-- ==== Sys2Proof/Word.lean ====
section
/-! DEFINITION. The words of the Huffman coding engine: the byte, the bit sequence, the symbol, the node id and the
fixed-size register file (spec/00_scope.md rules R7, R9, R10; spec/10_state.md rules R32, R33, R35). -/

namespace Sys2Proof

/-- A byte of a stream: 8 bits, bit 7 the most significant (R9). -/
abbrev Byte := BitVec 8

/-- A symbol: "one input byte, value range 0–255" (R7 `SYM_W`, glossary). -/
abbrev Symbol := BitVec 8

/-- A bit sequence, the first element first in stream order (R10). -/
abbrev Bits := List Bool

/-- A node id: one of the 511 elements `NODE[0 .. 510]` (R33; 9 bits). -/
abbrev NodeId := Fin 511

/-- A register file of `n` elements. The length stands beside the cells, so that no other length can be built. -/
structure RegFile (n : Nat) (α : Type) where
  cells : List α
  size_eq : cells.length = n
deriving DecidableEq, Repr

/-- The register file all of whose elements are `a`. -/
def RegFile.fill (n : Nat) {α : Type} (a : α) : RegFile n α :=
  ⟨List.replicate n a, List.length_replicate⟩

/-- `A[i]` (R11). -/
def RegFile.get {n : Nat} {α : Type} (r : RegFile n α) (i : Fin n) : α :=
  r.cells[i.val]'(by rw [r.size_eq]; exact i.isLt)

/-- `A[i] <- a` (R11). -/
def RegFile.set {n : Nat} {α : Type} (r : RegFile n α) (i : Fin n) (a : α) : RegFile n α :=
  ⟨r.cells.set i.val a, by rw [List.length_set]; exact r.size_eq⟩

/-- The place of a symbol in a register file indexed by symbol value (R32, R35). -/
def symIndex (b : Symbol) : Fin 256 := ⟨b.toNat, b.isLt⟩

end Sys2Proof
end

