-- ==== Sys2Proof/Machine/Bits.lean ====
section
/-! DEFINITION. Bits, bytes and byte order: the notation of spec/00_scope.md rules R9 to R11 and the packing of
spec/20_memory.md rules R64 and R65. -/

namespace Sys2Proof.Bit

/-- `bits8(v)`: the eight bits of a byte, bit 7 first (R10). -/
def bits8 (v : Byte) : Bits :=
  [v.getLsbD 7, v.getLsbD 6, v.getLsbD 5, v.getLsbD 4, v.getLsbD 3, v.getLsbD 2, v.getLsbD 1, v.getLsbD 0]

/-- The number a bit sequence adds behind the digits already read. -/
def valFrom (acc : Nat) : Bits → Nat
  | [] => acc
  | b :: s => valFrom (2 * acc + b.toNat) s

/-- `val(s)`: the unsigned number whose binary digits are `s`, first element most significant (R10). -/
def val (s : Bits) : Nat := valFrom 0 s

/-- `zeros(n)` (R10). -/
def zeros (n : Nat) : Bits := List.replicate n false

/-- The byte whose bits are `s`, first element in bit 7 when `s` has eight (R9, R65). -/
def byteOf (s : Bits) : Byte := BitVec.ofNat 8 (val s)

/-- `ceil8(n)`: the bytes that carry `n` bits (R11). -/
def ceil8 (n : Nat) : Nat := (n + 7) / 8

/-- The first `q` groups of eight bits, each packed into a byte (R122). -/
def packGroups : Nat → Bits → List Byte
  | 0, _ => []
  | q + 1, s => byteOf (s.take 8) :: packGroups q (s.drop 8)

/-- The bits of a list of bytes in stream order (R65). -/
def unpack : List Byte → Bits
  | [] => []
  | b :: bs => bits8 b ++ unpack bs

/-- `le32(v)` (R11, R64). -/
def le32 (v : BitVec 32) : List Byte :=
  [v.extractLsb' 0 8, v.extractLsb' 8 8, v.extractLsb' 16 8, v.extractLsb' 24 8]

/-- The number whose little-endian bytes are given (R9). -/
def unle : List Byte → Nat
  | [] => 0
  | b :: bs => b.toNat + 256 * unle bs

/-- `unle32([a, b, c, d])` (R11, R64). -/
def unle32 (bs : List Byte) : BitVec 32 := BitVec.ofNat 32 (unle bs)

/-- The little-endian bytes of a natural number, as many as it needs; `fuel` bounds their number. -/
def leBytes : Nat → Nat → List Byte
  | 0, _ => []
  | fuel + 1, n => if n = 0 then [] else BitVec.ofNat 8 n :: leBytes fuel (n / 256)

end Sys2Proof.Bit
end

