-- ==== Sys2Proof/Syntax.lean ====
section
/-! DEFINITION. The operations of the engine, one constructor per row of spec/opcode_table.json: the two commands, the
six unit operations and the three container records (spec/30_encoding.md rules R90, R104, R107). -/

namespace Sys2Proof

/-- The formats an operation is written in (R90). `uop` is a label of the opcode table and no bit pattern of any
stream or register. -/
inductive Format where
  | cmd
  | uop
  | hdr
  | ent
  | cod
deriving DecidableEq, Repr

/-- One row of the opcode table each. The operands `buffer`, `table` and `source` of the source's spelling are always
`BITBUF`, `CODE` and `SRC` (R104) and are not written. -/
inductive Instr where
  /-- `ENCODE`, command word `0x01` (R170). -/
  | encode
  /-- `DECODE`, command word `0x02` (R200). -/
  | decode
  /-- `appendByte(buffer, byte)`: `byte` is a natural number of any size (R121). -/
  | appendByte (byte : Nat)
  /-- `drainBytes(buffer, flush)` (R122). -/
  | drainBytes (flush : Bool)
  /-- `buildTree` (R131, R132). -/
  | buildTree
  /-- `generateCodes()` (R135). -/
  | generateCodes
  /-- `writeHeader(table)` (R151). -/
  | writeHeader
  /-- `readHeader(source)` (R156). -/
  | readHeader
  /-- The record `HDR`: the padding count and the table length in bits (R92). -/
  | hdr (pad : Byte) (tlen : BitVec 32)
  /-- The record `ENT`: a symbol and its code; the field `L` is the code's length (R97). -/
  | ent (symbol : Symbol) (code : Bits)
  /-- The record `COD`: the bits of one payload code (R101). -/
  | cod (code : Bits)
deriving DecidableEq, Repr

/-- The format of an operation (R90, R107). -/
def Instr.format : Instr → Format
  | .encode => .cmd
  | .decode => .cmd
  | .appendByte _ => .uop
  | .drainBytes _ => .uop
  | .buildTree => .uop
  | .generateCodes => .uop
  | .writeHeader => .uop
  | .readHeader => .uop
  | .hdr _ _ => .hdr
  | .ent _ _ => .ent
  | .cod _ => .cod

/-- Why bits are no operation: the name of each rejection of the decoder. -/
inductive DecodeError where
  /-- A `CMD` value other than `0x01` and `0x02` (R21, R103). -/
  | reservedCommand
  /-- A label the opcode table gives to no unit operation. -/
  | unknownLabel
  /-- Fewer bits than the record's fixed part. -/
  | tooShort
  /-- An entry whose `L` exceeds the bits that are left (R103). -/
  | entryTruncated
  /-- A payload code of 0 bits or of more than 255 (R90). -/
  | badCodeLength
deriving DecidableEq, Repr

end Sys2Proof
end

