-- ==== Sys2Proof/Config.lean ====
section
/-! DEFINITION. The parameters of the hardware (spec/00_scope.md rules R7 and R8): the two open ones as the fields of
one record, the fixed and decided ones as constants. -/

namespace Sys2Proof

/-- The two open parameters, "named configuration values passed into Encoder/Decoder construction" (R8). They are
constants of one instance (R20, R261): State carries them so that every statement holds for every value, and no step
changes them (assumption 1). -/
structure Params where
  /-- `CHUNK_SIZE`, bytes the decoder reads per chunk: any natural; DECODE is refused at 0 (R7, R201). -/
  chunkSize : Nat
  /-- `FLUSH_THRESHOLD`, the bit-buffer length above which the encoder drains: any natural (R7, R179). -/
  flushThreshold : Nat
deriving DecidableEq, Repr

namespace Config

/-- `MAXLEN`, the longest code the format can carry (R7; spec/90_conflicts.md C1). -/
abbrev maxLen : Nat := 255

/-- `HDR_FIXED`, bytes of fixed header fields (R7). -/
abbrev hdrFixed : Nat := 5

/-- `MAX_NODES`, the largest number of tree nodes (R7). -/
abbrev maxNodes : Nat := 511

/-- A command is refused unless `SRC_SIZE` is below this bound (R25, R171, R201; D9). -/
abbrev sizeLimit : Nat := 2 ^ 56

/-- Offsets are natural numbers below `2^POS_W` (R60, R7). -/
abbrev spaceSize : Nat := 2 ^ 64

end Config

end Sys2Proof
end

