-- ==== Sys2Proof/WellFormed.lean ====
section
/-! DEFINITION. Which operations an encoding admits: the code of an entry has an 8-bit length (spec/30_encoding.md
rule R97), a payload code has 1 to 255 bits (R90). Every other operand is admitted at every value of its type. -/

namespace Sys2Proof

/-- R97: "exactly L bits", with `L` of 8 bits. -/
def entryCodeFits (code : Bits) : Bool := decide (code.length ≤ Config.maxLen)

/-- R90: "`COD` is one payload code, variable length, 1 to 255 bits". -/
def payloadCodeFits (code : Bits) : Bool := decide (1 ≤ code.length) && decide (code.length ≤ Config.maxLen)

/-- The operations that have an encoding. -/
def Instr.wf : Instr → Bool
  | .encode => true
  | .decode => true
  | .appendByte _ => true
  | .drainBytes _ => true
  | .buildTree => true
  | .generateCodes => true
  | .writeHeader => true
  | .readHeader => true
  | .hdr _ _ => true
  | .ent _ code => entryCodeFits code
  | .cod code => payloadCodeFits code

end Sys2Proof
end

