-- ==== Sys2Proof/Decode.lean ====
section
/-! DEFINITION. The decoder of the operations, total on any bits, and the encoder (spec/30_encoding.md rules R90 to
R102, spec/opcode_table.json). Which format applies is known from where the bits stand (the `CMD` register, the header,
the table, the payload) and is given to the decoder. The unit operations have no bit pattern in the hardware (R90): the
label and operand bytes read here are the model's own way to name one of them (assumption 3). -/

namespace Sys2Proof

/-- The command word (R21, R91): `0x01` and `0x02`, all else reserved (R103). -/
def decodeCmd (b : Byte) : Except DecodeError Instr :=
  if b = 0x01#8 then .ok .encode
  else if b = 0x02#8 then .ok .decode
  else .error .reservedCommand

/-- A unit operation from its label in the opcode table and its operand bytes. -/
def decodeUop (label : Byte) (operand : List Byte) : Except DecodeError Instr :=
  if label = 0x10#8 then .ok (.appendByte (Bit.unle operand))
  else if label = 0x11#8 then .ok (.drainBytes ((operand.headD 0#8).getLsbD 0))
  else if label = 0x20#8 then .ok .buildTree
  else if label = 0x21#8 then .ok .generateCodes
  else if label = 0x30#8 then .ok .writeHeader
  else if label = 0x31#8 then .ok .readHeader
  else .error .unknownLabel

/-- The fixed header fields (R92): the padding count, then `T` little-endian. -/
def decodeHdr (bits : Bits) : Except DecodeError (Instr × Bits) :=
  if bits.length < 40 then .error .tooShort
  else
    match Bit.packGroups 5 bits with
    | pad :: t => .ok (.hdr pad (Bit.unle32 t), bits.drop 40)
    | [] => .error .tooShort

/-- One table entry (R97, R102): eight bits of symbol, eight of `L`, then `L` bits of code; the rest is returned. -/
def decodeEnt (bits : Bits) : Except DecodeError (Instr × Bits) :=
  if bits.length < 16 then .error .tooShort
  else
    let symbol := Bit.byteOf (bits.take 8)
    let len := Bit.val ((bits.drop 8).take 8)
    let body := bits.drop 16
    if body.length < len then .error .entryTruncated
    else .ok (.ent symbol (body.take len), body.drop len)

/-- One payload code given by its bits (R101): it has no length field, so the bits given are the code. -/
def decodeCod (bits : Bits) : Except DecodeError Instr :=
  if payloadCodeFits bits then .ok (.cod bits) else .error .badCodeLength

/-- The operation at the front of `bits` in a format, and the bits behind it. -/
def decodeRest (f : Format) (bits : Bits) : Except DecodeError (Instr × Bits) :=
  match f with
  | .cmd =>
    if bits.length < 8 then .error .tooShort
    else (decodeCmd (Bit.byteOf (bits.take 8))).map fun i => (i, bits.drop 8)
  | .uop =>
    if bits.length < 8 then .error .tooShort
    else
      let operand := bits.drop 8
      (decodeUop (Bit.byteOf (bits.take 8)) (Bit.packGroups (operand.length / 8) operand)).map fun i => (i, [])
  | .hdr => decodeHdr bits
  | .ent => decodeEnt bits
  | .cod => (decodeCod bits).map fun i => (i, [])

/-- The operation at the front of `bits`. -/
def decode (f : Format) (bits : Bits) : Except DecodeError Instr := (decodeRest f bits).map fun p => p.1

/-- The decoder on bytes: they are read in stream order, most significant bit first (R65). -/
def decodeBytes (f : Format) (bytes : List Byte) : Except DecodeError Instr := decode f (Bit.unpack bytes)

/-- The encoder: the bits of an operation in stream order (R91, R92, R97, R99; labels of the opcode table). -/
def encode : Instr → Bits
  | .encode => Bit.bits8 0x01#8
  | .decode => Bit.bits8 0x02#8
  | .appendByte n => Bit.bits8 0x10#8 ++ Bit.unpack (Bit.leBytes n n)
  | .drainBytes flush => Bit.bits8 0x11#8 ++ Bit.bits8 (if flush then 0x01#8 else 0x00#8)
  | .buildTree => Bit.bits8 0x20#8
  | .generateCodes => Bit.bits8 0x21#8
  | .writeHeader => Bit.bits8 0x30#8
  | .readHeader => Bit.bits8 0x31#8
  | .hdr pad tlen => Bit.bits8 pad ++ Bit.unpack (Bit.le32 tlen)
  | .ent symbol code => Bit.bits8 symbol ++ Bit.bits8 (BitVec.ofNat 8 code.length) ++ code
  | .cod code => code

/-- The labels the opcode table gives to the unit operations. -/
def isUopLabel (b : Byte) : Bool :=
  b == 0x10#8 || b == 0x11#8 || b == 0x20#8 || b == 0x21#8 || b == 0x30#8 || b == 0x31#8

/-- The longest encoded operation, an entry of 271 bits (R97), in whole bytes. -/
def longestBytes : Nat := 34

/-- The bytes of a word of the opcode table: the first byte is bits 7:0, every bit at or above `nbits` is 0. -/
def tableBytes (nbits w : Nat) : List Byte :=
  (List.range longestBytes).map fun i => BitVec.ofNat 8 ((w % 2 ^ nbits) / 256 ^ i)

/-- The format of a table word: a word of one byte is a unit operation's label or a command, one of 40 bits the fixed
header, any other an entry (assumption 3). -/
def tableFormat (nbits w : Nat) : Format :=
  if nbits ≤ 8 then (if isUopLabel (BitVec.ofNat 8 (w % 2 ^ nbits)) then .uop else .cmd)
  else if nbits = 40 then .hdr
  else .ent

/-- The instruction the decoder reads from a word numbered as spec/opcode_table.json numbers it. -/
def decodeTableWord (nbits w : Nat) : Option Instr :=
  match decodeBytes (tableFormat nbits w) (tableBytes nbits w) with
  | .ok i => some i
  | .error _ => none

end Sys2Proof
end

