-- ==== Sys2Proof/Machine/State.lean ====
section
/-! DEFINITION. The state of the engine (spec/10_state.md rules R20 to R42), the reasons a step can stop, and the
state after reset (R41, R260). The fields under "the model's own" are no state of the hardware; assumptions 1 to 6 say
what each is for. -/

namespace Sys2Proof.Machine

/-- An address space: the bytes that were written, by rising offset. An offset with no entry has no value
(R38, R41; assumption 7). -/
abbrev Memory := List Host.Cell

/-- The decoding table: a finite map from bit sequences to symbols, by rising key (R36). -/
abbrev DecTable := List (Bits × Symbol)

/-- One element of the tree's arena (R33). -/
structure Node where
  weight : BitVec 64
  sym : Option Symbol
  parent : Option NodeId
  left : Option NodeId
  right : Option NodeId
deriving DecidableEq, Repr

/-- The reset value of a node: every field `none`, weight 0 (R33, R41). -/
def Node.blank : Node := { weight := 0, sym := none, parent := none, left := none, right := none }

/-- `STATUS` by its fields (R22): they are its eight bits, so the register is no more and no less than this. -/
structure Status where
  /-- `STATUS[3:0]`, the sequencer state, coded as R23 says. -/
  phase : BitVec 4
  /-- `STATUS[4]`: false after ENCODE or when no command was started, true after DECODE. -/
  mode : Bool
  /-- `STATUS[5]`: a command is running. -/
  busy : Bool
  /-- `STATUS[6]`: the last command ended in its final phase. -/
  done : Bool
  /-- `STATUS[7]`: the last command ended with an error. -/
  fail : Bool
deriving DecidableEq, Repr

/-- `STATUS = 0x00` (R22, R41). -/
def Status.reset : Status := { phase := 0, mode := false, busy := false, done := false, fail := false }

/-- What the host can do, one move at a time (spec/70_reset_and_hazards.md rules R260 to R266; spec/20_memory.md rule
R78). Reading `STATUS`, `ERR`, `SNK_SIZE` and the sink changes nothing and is no move (Machine/HostMoves.lean). -/
inductive HostMove where
  /-- The host does nothing: the engine takes its next transition, if one is enabled. -/
  | wait
  /-- The host writes `CMD` (R21). -/
  | command (word : Byte)
  /-- The host provides a source whose bytes are these (R264 (1)). -/
  | provideSource (bytes : List Byte)
  /-- The host provides a fresh, empty sink (R264 (2)). -/
  | provideSink
  /-- The host writes `SRC_SIZE` (R25, R264 (3)). -/
  | writeSrcSize (size : BitVec 64)
  /-- The host changes one byte of the source: its own business while no command runs, and between the two passes of
  ENCODE the breach whose outcome the spec gives (R78, R79, R267). -/
  | changeSource (offset : Nat) (byte : Byte)
  /-- Reset (R260). While a command runs, `landed` says how many byte writes of the transition then in progress had
  reached the sink, so that every prefix of the command's write sequence is admitted (R262; D20). -/
  | reset (landed : Nat)
deriving DecidableEq, Repr

/-- One operation issued by itself, in its format and bits (assumption 3). -/
structure Issue where
  format : Format
  bits : Bits
deriving DecidableEq, Repr

/-- The three errors of the engine (spec/60_exceptions.md rules R230 to R233). -/
inductive ErrorKind where
  /-- Raised by `readHeader` (R231). -/
  | malformedHeader
  /-- Raised by `walk` (R232). -/
  | invalidCode
  /-- Raised by `lookup` (R233). -/
  | codingTableMiss
deriving DecidableEq, Repr

/-- What stops the machine because the spec gives no successor. Every one of these is SAFE: the model stops. -/
inductive Fault where
  /-- `MemRead` of the source at or beyond `SRC_SIZE` (R62; U15): raised by reads of the source; no engine run does it. -/
  | sourceOutOfRange
  /-- A read of a source byte that the host never provided (R264, R265; assumption 7): raised by reads of the source. -/
  | sourceNotProvided
  /-- A write that would leave the sink's address space, or reach a size `SNK_SIZE` cannot hold (R60, R26): raised by
  `MemWrite`; no engine run does it. -/
  | sinkOutOfSpace
  /-- `BUSY = 1` and no transition is enabled (R170, R200): raised by the sequencer; no run reaches such a state. -/
  | noTransition
  /-- `generateCodes` on an arena whose parent links run in a ring (R135): `buildTree` leaves none. -/
  | endlessParentWalk
  /-- `generateCodes` on a leaf that holds no symbol (R135): `buildTree` leaves none. -/
  | leafWithoutSymbol
deriving DecidableEq, Repr

/-- What the machine refuses because the spec gives it no meaning. Every one of these is SAFE: the model stops. -/
inductive Refusal where
  /-- An operation that has no meaning in the model yet: raised by an arm of the dispatch only. -/
  | notModelled (mnemonic : String)
  /-- A write of `CMD` with a reserved value (R21, R103; U12): raised by the fetch of a command. -/
  | reservedCommand
  /-- A write of `CMD` while `BUSY = 1` (R21, R171, R201; U13): raised by ENCODE and DECODE. -/
  | commandWhileBusy
  /-- `SRC_SIZE >= 2^56` at the start of a command (R171, R201; U14): raised by ENCODE and DECODE. -/
  | sourceTooLarge
  /-- `CHUNK_SIZE = 0` at the start of DECODE (R201; U14): raised by DECODE. -/
  | zeroChunkSize
  /-- A move of the host while a command runs that the spec gives no meaning (R78, R264; U17): raised by the host's
  moves. -/
  | hostBreach
  /-- Issued bits that are no operation (assumption 3): raised by the fetch of an issued operation. -/
  | undecodable
deriving DecidableEq, Repr

/-- The state of the machine. -/
structure State where
  -- constants of the instance (R7, R20; assumption 1)
  params : Params
  -- host interface registers
  /-- `CMD`: the word the host is writing; it "holds no value between writes" (R21). -/
  cmd : Option Byte
  /-- `STATUS` (R22, R23). -/
  status : Status
  /-- `ERR` (R24). -/
  err : BitVec 8
  /-- `SRC_SIZE` (R25). -/
  srcSize : BitVec 64
  /-- `SNK_SIZE` (R26). -/
  snkSize : BitVec 64
  -- scalar working registers (R27)
  pad : BitVec 8
  tlen : BitVec 32
  hbits : BitVec 32
  payloadOff : BitVec 64
  srcPos : BitVec 64
  snkPos : BitVec 64
  nleaf : BitVec 9
  nnodes : BitVec 10
  root : Option NodeId
  -- bit-sequence registers
  /-- `BITBUF` (R28). -/
  bitbuf : Bits
  /-- `CAND` (R29). -/
  cand : Bits
  -- register files
  /-- `FREQ[0 .. 255]` (R32). -/
  freq : RegFile 256 (BitVec 64)
  /-- `NODE[0 .. 510]` (R33). -/
  node : RegFile 511 Node
  /-- `PQ`, a set of node ids, by rising id (R34). -/
  pq : List NodeId
  /-- `CODE[0 .. 255]` (R35). -/
  code : RegFile 256 (Option Bits)
  /-- `DEC` (R36). -/
  dec : DecTable
  -- address spaces
  /-- `SRC` (R37). -/
  src : Memory
  /-- `SNK` (R38). -/
  snk : Memory
  -- the model's own
  /-- The host's coming moves, the next one first; when none is left the host waits (assumption 2). -/
  host : List HostMove
  /-- An operation issued by itself for the next step; no step of the machine fills it (assumption 3). -/
  issue : Option Issue
  /-- The list a `drainBytes` executed by itself returned (R122; assumption 4). -/
  drained : List Byte
  /-- The byte writes to the sink since the last start of a command or reset, in order (R72, R74; assumption 5). -/
  journal : List Host.Cell
deriving DecidableEq, Repr

/-- The state after reset (R41, R260, R261). The spec gives no reset value for `SRC_SIZE`, the two parameters and the
contents of the streams (assumptions 1, 6 and 7). -/
def State.reset : State where
  params := { chunkSize := 1, flushThreshold := 0 }
  cmd := none
  status := Status.reset
  err := 0
  srcSize := 0
  snkSize := 0
  pad := 0
  tlen := 0
  hbits := 0
  payloadOff := 0
  srcPos := 0
  snkPos := 0
  nleaf := 0
  nnodes := 0
  root := none
  bitbuf := []
  cand := []
  freq := RegFile.fill 256 0
  node := RegFile.fill 511 Node.blank
  pq := []
  code := RegFile.fill 256 none
  dec := []
  src := []
  snk := []
  host := []
  issue := none
  drained := []
  journal := []

/-- How one piece of the sequential pseudocode ends (R11, R236). -/
inductive Flow where
  /-- It ran to its end; what follows it runs next. -/
  | on (s : State)
  /-- A `raise` ended the command in this state; nothing after it runs. -/
  | raised (s : State)
  /-- The spec gives no successor. -/
  | stuck (f : Fault)
deriving DecidableEq, Repr

end Sys2Proof.Machine
end

