-- ==== Sys2Proof/Machine/Flags.lean ====
section
/-! DEFINITION. The flags (spec/10_state.md rules R22, R23, R31): what sets and clears each field of `STATUS`, its
byte form, and the phase numbers. No operation writes a flag as a side effect of computing a value (R31). -/

namespace Sys2Proof.Machine

/-- The phase numbers (R23). `Idle` is 0 for both commands. -/
def Phase.idle : BitVec 4 := 0
def Phase.frequencyCounted : BitVec 4 := 1
def Phase.treeBuilt : BitVec 4 := 2
def Phase.headerWritten : BitVec 4 := 3
def Phase.encoding : BitVec 4 := 4
def Phase.flushed : BitVec 4 := 5
def Phase.headerParsed : BitVec 4 := 1
def Phase.decoding : BitVec 4 := 2
def Phase.done : BitVec 4 := 3

/-- The register `STATUS` as the host reads it (R22). -/
def Status.toByte (t : Status) : Byte :=
  BitVec.ofBool t.fail ++ BitVec.ofBool t.done ++ BitVec.ofBool t.busy ++ BitVec.ofBool t.mode ++ t.phase

/-- `STATUS <- t`. -/
def setStatus (t : Status) (s : State) : State := { s with status := t }

/-- `PHASE <- p`. -/
def setPhase (p : BitVec 4) (s : State) : State := { s with status := { s.status with phase := p } }

/-- The flags at the start of a command: `MODE` as given, `BUSY = 1`, all else reset (R170, R200). -/
def Status.started (mode : Bool) : Status := { Status.reset with mode := mode, busy := true }

/-- The normal end of a command: `PHASE <- p ; BUSY <- 0 ; DONE <- 1` (R181, R213). -/
def finish (p : BitVec 4) (s : State) : State :=
  { s with status := { s.status with phase := p, busy := false, done := true } }

/-- The flags of `raise`: `FAIL <- 1`, `BUSY <- 0`, `DONE` is 0, `PHASE` and `MODE` unchanged (R236; at most one of the
three is 1, R22). -/
def Status.failed (t : Status) : Status := { t with busy := false, done := false, fail := true }

end Sys2Proof.Machine
end

