-- ==== Sys2Proof/Machine/Memory.lean ====
section
/-! DEFINITION. The two sparse containers of the state and their one canonical form: an address space by rising
offset (spec/20_memory.md rules R60 to R63) and the decoding table by rising key (spec/10_state.md rule R36). -/

namespace Sys2Proof.Machine

/-- The byte at an offset, if it has a value. -/
def Memory.read : Memory → Nat → Option Byte
  | [], _ => none
  | (k, v) :: m, a => if k = a then some v else Memory.read m a

/-- Write one byte, keeping the offsets rising. -/
def Memory.write : Memory → Nat → Byte → Memory
  | [], a, b => [(a, b)]
  | (k, v) :: m, a, b =>
    if a < k then (a, b) :: (k, v) :: m
    else if a = k then (a, b) :: m
    else (k, v) :: Memory.write m a b

/-- Write a run of bytes in ascending offset order (R63, R68). -/
def Memory.writeRun : Memory → Nat → List Byte → Memory
  | m, _, [] => m
  | m, a, b :: bs => Memory.writeRun (Memory.write m a b) (a + 1) bs

/-- Replay byte writes in order (R75 (c)). -/
def Memory.replay : Memory → List Host.Cell → Memory
  | m, [] => m
  | m, (a, b) :: ws => Memory.replay (Memory.write m a b) ws

/-- The cells of a run of bytes from an offset on. -/
def cellsFrom : Nat → List Byte → List Host.Cell
  | _, [] => []
  | a, b :: bs => (a, b) :: cellsFrom (a + 1) bs

/-- The offsets rise strictly from above `low` on. -/
def Memory.rising : Nat → Memory → Bool
  | _, [] => true
  | low, (k, _) :: m => decide (low ≤ k) && Memory.rising (k + 1) m

/-- The canonical form: strictly rising offsets, each below `2^POS_W` (R60). Since an unlisted offset has no value,
every listed byte differs from what an unlisted one reads as. -/
def Memory.wf (m : Memory) : Bool := Memory.rising 0 m && m.all fun c => decide (c.1 < Config.spaceSize)

/-- The order of the keys of the decoding table: a proper prefix first, then 0 before 1. -/
def keyBefore : Bits → Bits → Bool
  | _, [] => false
  | [], _ :: _ => true
  | a :: s, b :: t => if a = b then keyBefore s t else !a

/-- Exact-match lookup of a whole bit sequence (R211; spec/93_implementation_defined.md U6). -/
def DecTable.lookup : DecTable → Bits → Option Symbol
  | [], _ => none
  | (k, v) :: t, c => if k = c then some v else DecTable.lookup t c

/-- `DEC[code] <- sym`: a new symbol for a key already there replaces the old one (R159). -/
def DecTable.insert : DecTable → Bits → Symbol → DecTable
  | [], c, v => [(c, v)]
  | (k, w) :: t, c, v =>
    if k = c then (c, v) :: t
    else if keyBefore c k then (c, v) :: (k, w) :: t
    else (k, w) :: DecTable.insert t c v

/-- The canonical form of the decoding table: strictly rising keys. -/
def DecTable.wf : DecTable → Bool
  | [] => true
  | (k, _) :: t => (t.all fun e => keyBefore k e.1) && DecTable.wf t

end Sys2Proof.Machine
end

