-- ==== Sys2Proof/Machine/Operands.lean ====
section
/-! DEFINITION. The operand forms of the engine's operations (spec/30_encoding.md rules R91 to R102, R104): natural
number modulo 256, the fields of the container records, and the registers that stand for `buffer`, `table` and
`source`. -/

namespace Sys2Proof.Machine

/-- The `byte` operand of `appendByte`: "taken modulo 256" (R12 (a), R121). -/
def byteOperand (n : Nat) : Byte := BitVec.ofNat 8 n

/-- `H`, the table bytes that carry `T` bits (R102); computed over the naturals, where nothing overflows. -/
def tableBytesOf (tlen : BitVec 32) : Nat := Bit.ceil8 tlen.toNat

/-- `5 + H` (R102). -/
def payloadOffsetOf (tlen : BitVec 32) : Nat := Config.hdrFixed + tableBytesOf tlen

/-- The `symbol` field of the entry at the front of a bit sequence (R97, R102). -/
def entrySymbol (bits : Bits) : Symbol := Bit.byteOf (bits.take 8)

/-- The `L` field of the entry at the front of a bit sequence (R97, R102). -/
def entryLength (bits : Bits) : Nat := Bit.val ((bits.drop 8).take 8)

/-- The `code` field of the entry at the front of a bit sequence, kept as a bit sequence (R97, R102). -/
def entryCode (bits : Bits) : Bits := (bits.drop 16).take (entryLength bits)

/-- The `buffer` operand: always `BITBUF` (R104). -/
def bufferOperand (s : State) : Bits := s.bitbuf

/-- The `table` operand: always `CODE`, read in ascending symbol order (R104, R153). -/
def tableOperand (s : State) : List (Option Bits) := s.code.cells

/-- The code of a symbol in the `table` operand (R178). -/
def codeOf (s : State) (b : Symbol) : Option Bits := s.code.get (symIndex b)

/-- `FREQ[b]` (R32). -/
def freqOf (s : State) (b : Symbol) : BitVec 64 := s.freq.get (symIndex b)

end Sys2Proof.Machine
end

