-- ==== Sys2Proof/Machine/Ops.lean ====
section
/-! DEFINITION. The shared operations over streams and registers: `MemRead`, `MemWrite` (spec/20_memory.md rules R62,
R63), `raise` and what stands for a return from it (spec/60_exceptions.md rules R236, R239), reset and the start of a
command (spec/10_state.md rules R40, R41). -/

namespace Sys2Proof.Machine

/-- Run the next piece of the pseudocode where the one before ran to its end. -/
def Flow.andThen (f : Flow) (k : State → Flow) : Flow :=
  match f with
  | .on s => k s
  | .raised s => .raised s
  | .stuck r => .stuck r

/-- Go on with a value that was read. -/
def withValue {α : Type} (r : Except Fault α) (k : α → Flow) : Flow :=
  match r with
  | .ok a => k a
  | .error f => .stuck f

/-- A transition ends in a next state, whether it ran to its end or raised (R236: the state at the `raise` stands). -/
def Flow.outcome (f : Flow) : Host.Outcome State Fault Refusal :=
  match f with
  | .on s => .next s
  | .raised s => .next s
  | .stuck r => .fault r

/-- `MemRead(SRC, addr, 1)[0]` (R62): it has no side effect; beyond `SRC_SIZE` it has no meaning. -/
def readByte (s : State) (addr : Nat) : Except Fault Byte :=
  if addr < s.srcSize.toNat then
    match s.src.read addr with
    | some b => .ok b
    | none => .error .sourceNotProvided
  else .error .sourceOutOfRange

/-- `MemRead(SRC, addr, n)`: `n` bytes, lowest offset first (R62, R68). -/
def memRead (s : State) : Nat → Nat → Except Fault (List Byte)
  | _, 0 => .ok []
  | addr, n + 1 =>
    match readByte s addr with
    | .error f => .error f
    | .ok b =>
      match memRead s (addr + 1) n with
      | .error f => .error f
      | .ok bs => .ok (b :: bs)

/-- The bytes land in ascending order and `SNK_SIZE <- max(SNK_SIZE, addr + n)` (R63). -/
def putRun (addr : Nat) (bytes : List Byte) (s : State) : State :=
  { s with
    snk := s.snk.writeRun addr bytes
    snkSize := BitVec.ofNat 64 (max s.snkSize.toNat (addr + bytes.length))
    journal := s.journal ++ cellsFrom addr bytes }

/-- `MemWrite(SNK, addr, n, bytes)` (R63): with `n = 0` it does nothing. -/
def memWrite (addr : Nat) (bytes : List Byte) (s : State) : Flow :=
  match bytes with
  | [] => .on s
  | _ :: _ => if addr + bytes.length < Config.spaceSize then .on (putRun addr bytes s) else .stuck .sinkOutOfSpace

/-- `SNK_POS <- SNK_POS + n` (R30). -/
def advanceSink (n : Nat) (s : State) : State := { s with snkPos := s.snkPos + BitVec.ofNat 64 n }

/-- The next bytes in sequence: `MemWrite(SNK, SNK_POS, n, bytes)`, then `SNK_POS <- SNK_POS + n` (R30). -/
def writeSeq (bytes : List Byte) (s : State) : Flow :=
  (memWrite s.snkPos.toNat bytes s).andThen fun t => .on (advanceSink bytes.length t)

/-- The number of an error in `ERR` (R24, R231 to R233). -/
def ErrorKind.number : ErrorKind → BitVec 8
  | .malformedHeader => 1
  | .invalidCode => 2
  | .codingTableMiss => 3

/-- `raise E`, the one way an error is taken (R236): `ERR` holds the kind, `FAIL <- 1`, `BUSY <- 0`; `PHASE` and `MODE`
keep naming where it happened; nothing else changes and control goes nowhere. There is no return from an error (R239):
what ends the condition is `resetEngine` or `startCommand`. -/
def raise (e : ErrorKind) (s : State) : State := { s with err := e.number, status := s.status.failed }

/-- Every register and register file at its reset value; the instance's parameters, `SRC_SIZE`, the source, the sink's
bytes and the host's coming moves are not touched (R41, R260). -/
def resetEngine (s : State) : State :=
  { State.reset with params := s.params, srcSize := s.srcSize, src := s.src, snk := s.snk, host := s.host }

/-- The start of a command: the engine's own reset, then `MODE` and `BUSY` (R40, R41, R263). -/
def startCommand (mode : Bool) (s : State) : State := setStatus (Status.started mode) (resetEngine s)

end Sys2Proof.Machine
end

