-- ==== Sys2Proof/Machine/BitPacker.lean ====
section
/-! DEFINITION. BitPacker: `appendByte` and `drainBytes` (spec/40_bitpacker.md rules R120 to R123). -/

namespace Sys2Proof.Machine

/-- `BITBUF <- BITBUF ++ bits` (R28). -/
def appendBits (bits : Bits) (s : State) : State := { s with bitbuf := s.bitbuf ++ bits }

/-- `appendByte(byte)` (R121). -/
def appendByte (byte : Nat) (s : State) : State := appendBits (Bit.bits8 (byteOperand byte)) s

/-- The bytes `appendByte` of each element in order puts into the buffer (R157, R208). -/
def appendBytes : List Byte → State → State
  | [], s => s
  | b :: bs, s => appendBytes bs (appendByte b.toNat s)

/-- What `drainBytes(flush)` returns from a buffer (R122). -/
def drainedBytes (flush : Bool) (buf : Bits) : List Byte :=
  let q := buf.length / 8
  let rest := buf.drop (8 * q)
  Bit.packGroups q buf ++ (if flush && !rest.isEmpty then [Bit.byteOf (rest ++ Bit.zeros (8 - rest.length))] else [])

/-- What `drainBytes(flush)` leaves of a buffer (R122). -/
def drainedRest (flush : Bool) (buf : Bits) : Bits :=
  let rest := buf.drop (8 * (buf.length / 8))
  if flush then [] else rest

/-- `drainBytes(flush)` on the register: the buffer keeps the rest; the caller takes `drainedBytes` (R122). -/
def drainBuffer (flush : Bool) (s : State) : State := { s with bitbuf := drainedRest flush s.bitbuf }

/-- The list a `drainBytes` executed by itself returned (assumption 4). -/
def keepReturned (bytes : List Byte) (s : State) : State := { s with drained := bytes }

/-- The operation `appendByte` (R121): no error for any operand. -/
def execAppendByte (byte : Nat) (s : State) : Host.Outcome State Fault Refusal := .next (appendByte byte s)

/-- The operation `drainBytes` (R122): the returned list is kept where a reader of the state finds it
(assumption 4). -/
def execDrainBytes (flush : Bool) (s : State) : Host.Outcome State Fault Refusal :=
  .next (keepReturned (drainedBytes flush s.bitbuf) (drainBuffer flush s))

end Sys2Proof.Machine
end

