-- ==== Sys2Proof/Machine/Container.lean ====
section
/-! DEFINITION. ContainerFormat: `writeHeader`, `readHeader` and the records `HDR` and `ENT` (spec/42_container.md
rules R150 to R160; spec/30_encoding.md rules R92 to R98). -/

namespace Sys2Proof.Machine

/-- `writeHeader` step 1 (R152): five bytes `0x00` reserve the fixed fields. -/
def reserveHeader (s : State) : Flow :=
  (memWrite 0 [0x00, 0x00, 0x00, 0x00, 0x00] s).andThen fun t => .on { t with snkPos := 5 }

/-- `HBITS <- HBITS + n` (R153, R158). -/
def countBits (n : Nat) (s : State) : State := { s with hbits := s.hbits + BitVec.ofNat 32 n }

/-- One entry of step 2 (R153): the symbol field, the `L` field, the code, and the count of bits. -/
def writeEntry (symbol : Nat) (c : Bits) (s : State) : State :=
  countBits (16 + c.length) (appendBits c (appendByte c.length (appendByte symbol s)))

/-- `for s in 0 .. 255: if CODE[s] = some(c)` (R153), over the table from symbol `k` on. -/
def writeEntries : List (Option Bits) → Nat → State → State
  | [], _, s => s
  | none :: cs, k, s => writeEntries cs (k + 1) s
  | some c :: cs, k, s => writeEntries cs (k + 1) (writeEntry k c s)

/-- `writeHeader` step 2 (R153). -/
def serialiseTable (s : State) : State := writeEntries (tableOperand s) 0 { s with hbits := 0 }

/-- `writeHeader` step 3 (R154): the flushing drain, its bytes behind the fixed fields. -/
def packTable (s : State) : Flow :=
  let tb := drainedBytes true (bufferOperand s)
  (memWrite 5 tb (drainBuffer true s)).andThen fun t => .on { t with snkPos := 5 + BitVec.ofNat 64 tb.length }

/-- `writeHeader` step 4 (R155): `T` is patched at offsets 1 to 4, `SNK_POS` does not move. -/
def patchTableLength (s : State) : Flow :=
  let t := { s with tlen := s.hbits }
  (memWrite 1 (Bit.le32 t.tlen) t).andThen fun u => .on { u with payloadOff := u.snkPos }

/-- `writeHeader(CODE)`: the four steps in order (R151). -/
def writeHeader (s : State) : Flow :=
  (reserveHeader s).andThen fun t => (packTable (serialiseTable t)).andThen patchTableLength

/-- The fixed header fields enter their registers (R156): the effect of the record `HDR`. -/
def loadFixed (pad : Byte) (tlen : BitVec 32) (s : State) : State := { s with pad := pad, tlen := tlen }

/-- `readHeader` step 1 (R156). `PAD` is not checked. -/
def readFixed (s : State) : Flow :=
  if s.srcSize.toNat < Config.hdrFixed then .raised (raise .malformedHeader s)
  else
    withValue (readByte s 0) fun pad =>
      withValue (memRead s 1 4) fun t => .on (loadFixed pad (Bit.unle32 t) s)

/-- One entry whose `symbol` and `L` were read (R158, R159): the second check, then the insertion and the count. -/
def takeEntry (symbol : Symbol) (len : Nat) (code : Bits) (s : State) : Flow :=
  if s.hbits.toNat + 16 + len > s.tlen.toNat then .raised (raise .malformedHeader s)
  else .on { s with dec := s.dec.insert code symbol, hbits := s.hbits + BitVec.ofNat 32 (16 + len) }

/-- The body of the entry loop on the table bits `tbl` (R158): the first check, the fields at `HBITS`, the second. -/
def readEntry (tbl : Bits) (s : State) : Flow :=
  if s.hbits.toNat + 16 > s.tlen.toNat then .raised (raise .malformedHeader s)
  else
    let bits := tbl.drop s.hbits.toNat
    takeEntry (entrySymbol bits) (entryLength bits) (entryCode bits) s

/-- `while HBITS < TLEN` (R158). Each pass takes 16 bits or more, so `TLEN` bounds the passes. -/
def readEntries (tbl : Bits) : Nat → State → Flow
  | 0, s => .on s
  | n + 1, s =>
    if s.hbits.toNat < s.tlen.toNat then (readEntry tbl s).andThen (readEntries tbl n) else .on s

/-- `BITBUF <- []` (R157). -/
def clearBuffer (s : State) : State := { s with bitbuf := [] }

/-- `HBITS <- 0 ; DEC <- {}` (R158). -/
def startTable (s : State) : State := { s with hbits := 0, dec := [] }

/-- `PAYLOAD_OFF <- 5 + H ; SRC_POS <- PAYLOAD_OFF` (R158). -/
def endTable (h : Nat) (s : State) : State :=
  { s with payloadOff := BitVec.ofNat 64 (Config.hdrFixed + h), srcPos := BitVec.ofNat 64 (Config.hdrFixed + h) }

/-- The table bytes pass through the buffer and leave `tbl`, the first `TLEN` of their bits, which the entry loop
reads; the fill bits behind them are not examined (R157, R158). -/
def readTableBytes (bytes : List Byte) (s : State) : Flow :=
  let loaded := appendBytes bytes (clearBuffer s)
  readEntries (loaded.bitbuf.take s.tlen.toNat) s.tlen.toNat (startTable (clearBuffer loaded))

/-- `readHeader` steps 2 to 4 (R157 to R159), where the table has `h` bytes. -/
def readTableOf (h : Nat) (s : State) : Flow :=
  if Config.hdrFixed + h > s.srcSize.toNat then .raised (raise .malformedHeader s)
  else
    withValue (memRead s Config.hdrFixed h) fun bytes =>
      (readTableBytes bytes s).andThen fun t => .on (endTable h t)

/-- `readHeader` steps 2 to 4 (R157 to R159). -/
def readTable (s : State) : Flow := readTableOf (tableBytesOf s.tlen) s

/-- `readHeader(SRC)` (R156 to R159). -/
def readHeader (s : State) : Flow := (readFixed s).andThen readTable

/-- The operation `writeHeader` (R151). -/
def execWriteHeader (s : State) : Host.Outcome State Fault Refusal := (writeHeader s).outcome

/-- The operation `readHeader` (R156): it may raise `MalformedHeaderError`. -/
def execReadHeader (s : State) : Host.Outcome State Fault Refusal := (readHeader s).outcome

/-- The record `HDR` (R92, R102): what `readHeader` does with the fixed fields. -/
def execHdr (pad : Byte) (tlen : BitVec 32) (s : State) : Host.Outcome State Fault Refusal :=
  .next (loadFixed pad tlen s)

/-- The record `ENT` (R97, R158, R159): what the entry loop does with one entry at `HBITS`, its two checks included. -/
def execEnt (symbol : Symbol) (code : Bits) (s : State) : Host.Outcome State Fault Refusal :=
  (if s.hbits.toNat + 16 > s.tlen.toNat then Flow.raised (raise .malformedHeader s)
   else takeEntry symbol code.length code s).outcome

end Sys2Proof.Machine
end

