-- ==== Sys2Proof/Machine/Decoder.lean ====
section
/-! DEFINITION. The DECODE command (spec/44_decoder.md rules R200 to R215): its start, one definition per arrow of its
state machine, the chunk step of the phase `Decoding`, and the record `COD`. Each is one atomic transition (R200). -/

namespace Sys2Proof.Machine

/-- The command DECODE (R200, R201): refused while a command runs, for a source of `2^56` bytes or more, or with
`CHUNK_SIZE = 0`; else it starts, and the transitions below run it to its end, one a step (assumption 8). The host's
duties of R264 (1) to (3) are not checked: with `SRC_SIZE` smaller than the source it runs on the first `SRC_SIZE` bytes
(assumption 24). -/
def execDecode (s : State) : Host.Outcome State Fault Refusal :=
  if s.status.busy then .refused .commandWhileBusy
  else if s.srcSize.toNat < Config.sizeLimit then
    if s.params.chunkSize = 0 then .refused .zeroChunkSize else .next (startCommand true s)
  else .refused .sourceTooLarge

/-- `Idle → HeaderParsed` (R202). -/
def parseHeader (s : State) : Flow := (readHeader s).andThen fun t => .on (setPhase Phase.headerParsed t)

/-- `HeaderParsed → Decoding` (R203). -/
def seekPayload (s : State) : Flow :=
  .on (setPhase Phase.decoding { s with srcPos := s.payloadOff, cand := [], snkPos := 0 })

/-- `n`, the bytes of the next chunk (R205). -/
def chunkBytes (s : State) : Nat := min s.params.chunkSize (s.srcSize.toNat - s.srcPos.toNat)

/-- `SRC_POS <- SRC_POS + n` (R30). -/
def advanceSource (n : Nat) (s : State) : State := { s with srcPos := s.srcPos + BitVec.ofNat 64 n }

/-- `fill(n)` (R208). -/
def fillBuffer (n : Nat) (s : State) : Flow :=
  withValue (memRead s s.srcPos.toNat n) fun bytes => .on (advanceSource n (appendBytes bytes s))

/-- `droppad()` (R209): at most the declared count, never more than the buffer holds. -/
def dropPadding (s : State) : State :=
  { s with bitbuf := s.bitbuf.take (s.bitbuf.length - min s.pad.toNat s.bitbuf.length) }

/-- `CAND <- c` (R29). -/
def setCandidate (c : Bits) (s : State) : State := { s with cand := c }

/-- A match (R211): the symbol is written at `SNK_POS` and the candidate is reset. -/
def emitSymbol (b : Symbol) (s : State) : Flow := (writeSeq [b] s).andThen fun t => .on (setCandidate [] t)

/-- One bit of `walk` (R211, R212): it joins the candidate; the match test, then the length test. -/
def walkBit (b : Bool) (s : State) : Flow :=
  match s.dec.lookup (s.cand ++ [b]) with
  | some symbol => emitSymbol symbol (setCandidate (s.cand ++ [b]) s)
  | none =>
    if (s.cand ++ [b]).length > Config.maxLen then .raised (raise .invalidCode (setCandidate (s.cand ++ [b]) s))
    else .on (setCandidate (s.cand ++ [b]) s)

/-- `while BITBUF != []` (R211), where the list is `BITBUF`: each bit leaves the buffer before it is tested. -/
def walkBits : Bits → State → Flow
  | [], s => .on s
  | b :: rest, s => (walkBit b { s with bitbuf := rest }).andThen (walkBits rest)

/-- `walk()` (R211). -/
def walk (s : State) : Flow := walkBits s.bitbuf s

/-- The `Decoding` step: one chunk (R204). -/
def decodeChunk (s : State) : Flow :=
  let n := chunkBytes s
  let final := s.srcPos.toNat + n = s.srcSize.toNat
  (fillBuffer n s).andThen fun t => walk (if final then dropPadding t else t)

/-- `Decoding → Done` (R213). -/
def finishDecode (s : State) : Flow := .on (finish Phase.done s)

/-- The transition of DECODE that is enabled (R200): at most one is. -/
def decoderTransition (s : State) : Flow :=
  if s.status.phase = Phase.idle then parseHeader s
  else if s.status.phase = Phase.headerParsed then seekPayload s
  else if s.status.phase = Phase.decoding then
    if s.srcPos.toNat < s.srcSize.toNat then decodeChunk s
    else if s.srcPos = s.srcSize ∧ s.bitbuf = [] then finishDecode s
    else .stuck .noTransition
  else .stuck .noTransition

/-- One payload code (R101): bits leave the front of the buffer until the candidate matches a key, or none is left. -/
def takeCode : Bits → State → Flow
  | [], s => .on s
  | b :: rest, s =>
    (walkBit b { s with bitbuf := rest }).andThen fun t => if t.cand = [] then .on t else takeCode rest t

/-- The record `COD` (R101, R211): its bits arrive in the buffer and one code is taken from the front. -/
def execCod (code : Bits) (s : State) : Host.Outcome State Fault Refusal :=
  (takeCode (appendBits code s).bitbuf (appendBits code s)).outcome

end Sys2Proof.Machine
end

