-- ==== Sys2Proof/Machine/CodeTree.lean ====
section
/-! DEFINITION. CodeTree: `buildTree` and `generateCodes` (spec/41_codetree.md rules R130 to R140). -/

namespace Sys2Proof.Machine

/-- `NODE[i]`. -/
def nodeAt (s : State) (i : NodeId) : Node := s.node.get i

/-- The order of `PQ` (R34): lower weight first, compared as unsigned numbers (R12 (c)); among equal weights the lower
id first. -/
def nodeBefore (nodes : RegFile 511 Node) (a b : NodeId) : Bool :=
  decide ((nodes.get a).weight.toNat < (nodes.get b).weight.toNat) ||
    ((nodes.get a).weight == (nodes.get b).weight && decide (a < b))

/-- `min(PQ)` in that order (R132). -/
def pqMin (nodes : RegFile 511 Node) : List NodeId → Option NodeId
  | [] => none
  | i :: q =>
    match pqMin nodes q with
    | none => some i
    | some j => if nodeBefore nodes j i then some j else some i

/-- `PQ with i added`: a set, kept by rising id. -/
def pqAdd (i : NodeId) : List NodeId → List NodeId
  | [] => [i]
  | j :: q => if i < j then i :: j :: q else if i = j then j :: q else j :: pqAdd i q

/-- The id of the next node: the number of nodes created so far (R131). `buildTree` creates at most 511 (R133). -/
def nextId (s : State) : NodeId := Fin.ofNat 511 s.nnodes.toNat

/-- One leaf (R131): created, added to `PQ`, counted. -/
def addLeaf (symbol : Symbol) (weight : BitVec 64) (s : State) : State :=
  { s with
    node := s.node.set (nextId s) { weight := weight, sym := some symbol, parent := none, left := none, right := none }
    pq := pqAdd (nextId s) s.pq
    nnodes := s.nnodes + 1 }

/-- `for s in 0 .. 255: if FREQ[s] >= 1` (R131), over the counters from symbol `k` on. -/
def addLeaves : List (BitVec 64) → Nat → State → State
  | [], _, s => s
  | w :: ws, k, s => addLeaves ws (k + 1) (if 1 ≤ w.toNat then addLeaf (BitVec.ofNat 8 k) w s else s)

/-- `NLEAF <- NNODES` (R131). -/
def countLeaves (s : State) : State := { s with nleaf := s.nnodes.setWidth 9 }

/-- `buildTree` part 1 (R131). -/
def buildLeaves (s : State) : State := countLeaves (addLeaves s.freq.cells 0 { s with nnodes := 0, pq := [] })

/-- The parent link of a node, set when its parent is created (R132). -/
def setParent (p i : NodeId) (nodes : RegFile 511 Node) : RegFile 511 Node :=
  nodes.set i { nodes.get i with parent := some p }

/-- Combine the two extracted nodes `a` (left) and `b` (right) under a new one (R132). -/
def combine (a b : NodeId) (s : State) : State :=
  let i := nextId s
  let inner : Node :=
    { weight := (s.node.get a).weight + (s.node.get b).weight, sym := none, parent := none, left := some a,
      right := some b }
  { s with
    node := setParent i b (setParent i a (s.node.set i inner))
    pq := pqAdd i s.pq
    nnodes := s.nnodes + 1 }

/-- `while PQ has 2 or more elements` (R132). Each pass leaves one element less, so `PQ`'s size bounds the passes. -/
def combineLoop : Nat → State → State
  | 0, s => s
  | n + 1, s =>
    match pqMin s.node s.pq with
    | none => s
    | some a =>
      match pqMin s.node (s.pq.erase a) with
      | none => s
      | some b => combineLoop n (combine a b { s with pq := (s.pq.erase a).erase b })

/-- The end of `buildTree`: the one element left is the root and leaves `PQ` (R132). -/
def takeRoot (s : State) : State := { s with root := s.pq.head?, pq := [] }

/-- `buildTree` (R131, R132, R134). -/
def buildTree (s : State) : State := takeRoot (combineLoop (buildLeaves s).pq.length (buildLeaves s))

/-- The walk from node `j` to the root, prepending 0 for a left-child step and 1 for a right-child step (R135). A
walk over more links than the arena has nodes goes round in a ring and never ends. -/
def climb (nodes : RegFile 511 Node) : Nat → NodeId → Bits → Except Fault Bits
  | fuel, j, c =>
    match (nodes.get j).parent with
    | none => .ok c
    | some p =>
      match fuel with
      | 0 => .error .endlessParentWalk
      | n + 1 => climb nodes n p ((if (nodes.get p).left = some j then false else true) :: c)

/-- `CODE[ NODE[i].sym ] <- some(c)` (R135). -/
def setCode (i : NodeId) (c : Bits) (s : State) : Flow :=
  match (nodeAt s i).sym with
  | some b => .on { s with code := s.code.set (symIndex b) (some c) }
  | none => .stuck .leafWithoutSymbol

/-- `for i in 0 .. NLEAF-1` (R135): `n` leaves from id `i` on. -/
def codeLeaves : Nat → Nat → State → Flow
  | 0, _, s => .on s
  | n + 1, i, s =>
    withValue (climb s.node Config.maxNodes (Fin.ofNat 511 i) []) fun c =>
      (setCode (Fin.ofNat 511 i) c s).andThen (codeLeaves n (i + 1))

/-- `for s in 0 .. 255: CODE[s] <- none` (R135). -/
def clearCodes (s : State) : State := { s with code := RegFile.fill 256 none }

/-- `generateCodes()` (R134, R135). -/
def generateCodes (s : State) : Flow :=
  if s.nleaf.toNat = 1 then setCode 0 [false] (clearCodes s) else codeLeaves s.nleaf.toNat 0 (clearCodes s)

/-- The discard on the transition into `HeaderWritten` (R40, R175). -/
def discardTree (s : State) : State :=
  { s with
    freq := RegFile.fill 256 0
    node := RegFile.fill 511 Node.blank
    pq := []
    root := none
    nleaf := 0
    nnodes := 0 }

/-- The operation `buildTree` (R131): no error for any content of `FREQ`. -/
def execBuildTree (s : State) : Host.Outcome State Fault Refusal := .next (buildTree s)

/-- The operation `generateCodes` (R135). -/
def execGenerateCodes (s : State) : Host.Outcome State Fault Refusal := (generateCodes s).outcome

end Sys2Proof.Machine
end

