-- ==== Sys2Proof/Machine/Encoder.lean ====
section
/-! DEFINITION. The ENCODE command (spec/43_encoder.md rules R170 to R184): its start, one definition per arrow of its
state machine, and the step of the phase `Encoding`. Each is one atomic transition (R170). -/

namespace Sys2Proof.Machine

/-- The command ENCODE (R170, R171): refused while a command runs or for a source of `2^56` bytes or more; else it
starts, and the transitions below run it to its end, one a step (assumption 8). The host's duties of R264 (1) to (3) are
not checked: with `SRC_SIZE` smaller than the source it runs on the first `SRC_SIZE` bytes (assumption 24). -/
def execEncode (s : State) : Host.Outcome State Fault Refusal :=
  if s.status.busy then .refused .commandWhileBusy
  else if s.srcSize.toNat < Config.sizeLimit then .next (startCommand false s)
  else .refused .sourceTooLarge

/-- `FREQ[b] <- FREQ[b] + 1 ; SRC_POS <- SRC_POS + 1` (R172). -/
def countByte (b : Symbol) (s : State) : State :=
  { s with freq := s.freq.set (symIndex b) (freqOf s b + 1), srcPos := s.srcPos + 1 }

/-- `while SRC_POS < SRC_SIZE` of pass 1 (R172), with `n` bytes to go. -/
def countBytes : Nat → State → Flow
  | 0, s => .on s
  | n + 1, s => withValue (readByte s s.srcPos.toNat) fun b => countBytes n (countByte b s)

/-- `Idle → FrequencyCounted`, pass 1 (R172). -/
def countFrequencies (s : State) : Flow :=
  (countBytes s.srcSize.toNat { s with srcPos := 0 }).andThen fun t => .on (setPhase Phase.frequencyCounted t)

/-- `FrequencyCounted → TreeBuilt` (R174). -/
def makeTree (s : State) : Flow := (generateCodes (buildTree s)).andThen fun t => .on (setPhase Phase.treeBuilt t)

/-- `TreeBuilt → HeaderWritten` (R175). -/
def emitHeader (s : State) : Flow :=
  (writeHeader s).andThen fun t => .on (setPhase Phase.headerWritten (discardTree t))

/-- `HeaderWritten → Encoding` (R176). -/
def seekSource (s : State) : Flow := .on (setPhase Phase.encoding { s with srcPos := 0 })

/-- `emit(c)` (R179): append the code, then drain if the buffer is above the threshold. -/
def emitCode (c : Bits) (s : State) : Flow :=
  let t := appendBits c s
  if t.bitbuf.length > t.params.flushThreshold then writeSeq (drainedBytes false t.bitbuf) (drainBuffer false t)
  else .on t

/-- `lookup(b)` and `emit` of its code, or the coding-table miss (R178). -/
def encodeByte (b : Symbol) (s : State) : Flow :=
  match codeOf s b with
  | none => .raised (raise .codingTableMiss s)
  | some c => emitCode c s

/-- The `Encoding` step: one source byte (R177). -/
def encodeStep (s : State) : Flow :=
  withValue (readByte s s.srcPos.toNat) fun b => encodeByte b { s with srcPos := s.srcPos + 1 }

/-- The padding count of `r` leftover bits (R12 (f), R100, R181). -/
def padCount (r : Nat) : Nat := (8 - r) % 8

/-- `Encoding → Flushed` (R181). -/
def flushPayload (s : State) : Flow :=
  let pad := BitVec.ofNat 8 (padCount (s.bitbuf.length % 8))
  (writeSeq (drainedBytes true s.bitbuf) (drainBuffer true s)).andThen fun t =>
    (memWrite 0 [pad] { t with pad := pad }).andThen fun u => .on (finish Phase.flushed u)

/-- The transition of ENCODE that is enabled (R170): at most one is. -/
def encoderTransition (s : State) : Flow :=
  if s.status.phase = Phase.idle then countFrequencies s
  else if s.status.phase = Phase.frequencyCounted then makeTree s
  else if s.status.phase = Phase.treeBuilt then emitHeader s
  else if s.status.phase = Phase.headerWritten then seekSource s
  else if s.status.phase = Phase.encoding then
    if s.srcPos.toNat < s.srcSize.toNat then encodeStep s
    else if s.srcPos = s.srcSize then flushPayload s
    else .stuck .noTransition
  else .stuck .noTransition

end Sys2Proof.Machine
end

