-- ==== Sys2Proof/Machine/Dispatch.lean ====
section
/-! DEFINITION. The meaning of each operation, one arm per constructor of Instr (spec/opcode_table.json). -/

namespace Sys2Proof.Machine

def exec (i : Instr) (s : State) : Host.Outcome State Fault Refusal :=
  match i with
  | .encode => Sys2Proof.Machine.execEncode s
  | .decode => Sys2Proof.Machine.execDecode s
  | .appendByte byte => Sys2Proof.Machine.execAppendByte byte s
  | .drainBytes flush => Sys2Proof.Machine.execDrainBytes flush s
  | .buildTree => Sys2Proof.Machine.execBuildTree s
  | .generateCodes => Sys2Proof.Machine.execGenerateCodes s
  | .writeHeader => Sys2Proof.Machine.execWriteHeader s
  | .readHeader => Sys2Proof.Machine.execReadHeader s
  | .hdr pad tlen => Sys2Proof.Machine.execHdr pad tlen s
  | .ent symbol code => Sys2Proof.Machine.execEnt symbol code s
  | .cod code => Sys2Proof.Machine.execCod code s

end Sys2Proof.Machine
end

