-- ==== Sys2Proof/Machine/Engine.lean ====
section
/-! DEFINITION. The sequencer, which plays the program counter's part (spec/10_state.md rule R30), the fetch of a
command word (R21) and of an operation issued by itself (assumption 3). -/

namespace Sys2Proof.Machine

/-- The transition that is enabled while a command runs (R170, R200). -/
def engineTransition (s : State) : Flow := if s.status.mode then decoderTransition s else encoderTransition s

/-- One move of the engine: "the engine executes nothing until the host writes CMD" (R261), and nothing after the end
of a command (R236, R266), so an idle engine stays as it is. -/
def engineMove (s : State) : Host.Outcome State Fault Refusal :=
  if s.status.busy then (engineTransition s).outcome else .next s

/-- A word written to `CMD` (R21): it is decoded at the moment of the write and its operation runs. -/
def fetchCommand (word : Byte) (s : State) : Host.Outcome State Fault Refusal :=
  match decode .cmd (Bit.bits8 word) with
  | .ok i => exec i s
  | .error _ => .refused .reservedCommand

/-- An operation issued by itself (assumption 3). -/
def fetchIssue (w : Issue) (s : State) : Host.Outcome State Fault Refusal :=
  match decode w.format w.bits with
  | .ok i => exec i s
  | .error _ => .refused .undecodable

end Sys2Proof.Machine
end

