-- ==== Sys2Proof/Machine/HostMoves.lean ====
section
/-! DEFINITION. The host's moves and what it can read (spec/70_reset_and_hazards.md rules R260 to R266;
spec/20_memory.md rules R75, R78). -/

namespace Sys2Proof.Machine

/-- The byte writes of the transition in progress, in order: what it would add to the journal. -/
def pendingWrites (s : State) : List Host.Cell :=
  match engineMove s with
  | .next t => t.journal.drop s.journal.length
  | .fault _ => []
  | .refused _ => []

/-- Reset (R260, R262): all registers to their reset values; of the transition in progress the first `landed` byte
writes had reached the sink. -/
def hostReset (landed : Nat) (s : State) : State :=
  resetEngine { s with snk := s.snk.replay ((pendingWrites s).take landed) }

/-- Between the two passes of ENCODE: pass 1 is complete and pass 2 has not begun (R78, R79, R267). -/
def betweenPasses (s : State) : Bool :=
  s.status.busy && !s.status.mode &&
    (s.status.phase == Phase.frequencyCounted || s.status.phase == Phase.treeBuilt ||
      s.status.phase == Phase.headerWritten)

/-- A move of the host that only an idle engine allows (R78 (a), R264). -/
def whenIdle (s t : State) : Host.Outcome State Fault Refusal :=
  if s.status.busy then .refused .hostBreach else .next t

/-- A change of one source byte: free while no command runs, the breach of R79 between the passes, else no move;
an offset outside the space does not exist (R60). -/
def changeSource (offset : Nat) (byte : Byte) (s : State) : Host.Outcome State Fault Refusal :=
  if s.status.busy && !betweenPasses s then .refused .hostBreach
  else if offset < Config.spaceSize then .next { s with src := s.src.write offset byte }
  else .refused .hostBreach

/-- A source of these bytes, at offsets 0 upward (R37); the space holds fewer than `2^64` of them (R60). -/
def provideSource (bytes : List Byte) (s : State) : Host.Outcome State Fault Refusal :=
  if bytes.length < Config.spaceSize then whenIdle s { s with src := cellsFrom 0 bytes } else .refused .hostBreach

/-- One move of the host. -/
def hostMove (m : HostMove) (s : State) : Host.Outcome State Fault Refusal :=
  match m with
  | .wait => engineMove s
  | .command word => fetchCommand word s
  | .provideSource bytes => provideSource bytes s
  | .provideSink => whenIdle s { s with snk := [] }
  | .writeSrcSize size => whenIdle s { s with srcSize := size }
  | .changeSource offset byte => changeSource offset byte s
  | .reset landed => .next (hostReset landed s)

/-- A byte of the sink as the host reads it: offsets at or above `SNK_SIZE` have no value (R38). -/
def sinkByte (s : State) (offset : Nat) : Option Byte :=
  if offset < s.snkSize.toNat then s.snk.read offset else none

/-- The `n` bytes of the sink from an offset on, where all of them have a value. -/
def sinkRun (s : State) : Nat → Nat → Option (List Byte)
  | _, 0 => some []
  | a, n + 1 =>
    match sinkByte s a, sinkRun s (a + 1) n with
    | some b, some bs => some (b :: bs)
    | _, _ => none

/-- The sink image `SNK[0 .. SNK_SIZE)` (R6). -/
def sinkImage (s : State) : Option (List Byte) := sinkRun s 0 s.snkSize.toNat

/-- What the host may read. The results only when no command runs (R266). R266 gives `STATUS` at that time too, but has the
host wait for `BUSY = 0`; that it sees the whole of `STATUS` at any time is the model's choice (assumption 25). -/
structure HostView where
  status : Byte
  result : Option (BitVec 8 × BitVec 64 × Option (List Byte))
deriving DecidableEq, Repr

/-- The host's view of the engine (R22, R24, R26, R266; assumptions 20 and 25). -/
def hostView (s : State) : HostView :=
  { status := s.status.toByte
    result := if s.status.busy then none else some (s.err, s.snkSize, sinkImage s) }

end Sys2Proof.Machine
end

