-- ==== Sys2Proof/Machine/Step.lean ====
section
/-! DEFINITION. One step of the machine: a command word in `CMD` first, then an operation issued by itself, then the
host's next move, and with none of these a transition of the engine. -/

namespace Sys2Proof.Machine

/-- One step. -/
def step (s : State) : Host.Outcome State Fault Refusal :=
  match s.cmd with
  | some word => fetchCommand word { s with cmd := none }
  | none =>
    match s.issue with
    | some w => fetchIssue w { s with issue := none }
    | none =>
      match s.host with
      | [] => engineMove s
      | m :: ms => hostMove m { s with host := ms }

/-- The word of the opcode table placed where the next step fetches it: a command word in `CMD`, any other operation in
the model's own slot (assumption 3). -/
def State.withFetchWord (s : State) (nbits w : Nat) : State :=
  match tableFormat nbits w with
  | .cmd => { s with cmd := some ((tableBytes nbits w).headD 0) }
  | f => { s with cmd := none, issue := some { format := f, bits := Bit.unpack (tableBytes nbits w) } }

end Sys2Proof.Machine
end

