-- ==== Sys2Proof/Machine/Pseudo.lean ====
section
/-! DEFINITION. The pseudo-operations `encode(S)` and `decode(F)` (spec/30_encoding.md rule R105): a reset engine, the
host's duties of spec/70_reset_and_hazards.md rule R264, one command run to its end, and the sink image read. -/

namespace Sys2Proof.Machine

/-- At most `k` steps, stopping at the first fault or refusal. -/
def runSteps : Nat → State → Host.Outcome State Fault Refusal
  | 0, s => .next s
  | k + 1, s =>
    match step s with
    | .next t => runSteps k t
    | .fault f => .fault f
    | .refused r => .refused r

/-- A reset engine with parameters `p` whose host provides a source and an empty sink, writes `SRC_SIZE` and `CMD`, and
then waits (R105, R264, R266). -/
def session (p : Params) (source : List Byte) (command : Byte) : State :=
  { State.reset with
    params := p
    host := [.provideSource source, .provideSink, .writeSrcSize (BitVec.ofNat 64 source.length), .command command] }

/-- Steps that are enough for either command on a source of `n` bytes: four moves of the host, four transitions that
happen once, one step for each source byte, one to end; an engine that is done stays as it is. -/
def stepsFor (n : Nat) : Nat := n + 9

/-- How a pseudo-operation ends. -/
inductive Verdict where
  /-- `DONE = 1`: the sink image. -/
  | value (bytes : List Byte)
  /-- `FAIL = 1`: the number in `ERR`. -/
  | error (err : BitVec 8)
  /-- The command was refused, or the machine stopped. -/
  | noMeaning
deriving DecidableEq, Repr

/-- Run a command on a source and read the result (R105, R266). -/
def runCommand (p : Params) (source : List Byte) (command : Byte) : Verdict :=
  match runSteps (stepsFor source.length) (session p source command) with
  | .next s =>
    if s.status.done then
      match sinkImage s with
      | some bytes => .value bytes
      | none => .noMeaning
    else if s.status.fail then .error s.err
    else .noMeaning
  | .fault _ => .noMeaning
  | .refused _ => .noMeaning

/-- `encode(S)` (R105). -/
def encodeOf (p : Params) (source : List Byte) : Verdict := runCommand p source 0x01

/-- `decode(F)` (R105). -/
def decodeOf (p : Params) (source : List Byte) : Verdict := runCommand p source 0x02

end Sys2Proof.Machine
end

