-- ==== Sys2Proof/Safety.lean ====
section
/-! DEFINITION. What counts as a safe state of the engine, and the words the statements are written in
(spec/10_state.md rules R22 to R40; spec/20_memory.md rules R60 to R75). -/

namespace Sys2Proof.Machine

/-- The phase in which a command ends normally (R23). -/
def finalPhase (mode : Bool) : BitVec 4 := if mode then Phase.done else Phase.flushed

/-- Where an error leaves the sequencer (R231 to R233, R236, R238): the mode, the phase and the number in `ERR`. -/
def Status.ErrorPlace (t : Status) (err : BitVec 8) : Prop :=
  (t.mode = true ∧ t.phase = Phase.idle ∧ err = ErrorKind.malformedHeader.number) ∨
  (t.mode = true ∧ t.phase = Phase.decoding ∧ err = ErrorKind.invalidCode.number) ∨
  (t.mode = false ∧ t.phase = Phase.encoding ∧ err = ErrorKind.codingTableMiss.number)

/-- The legal contents of `STATUS` with `ERR` (R22, R23, R24): a command runs in a phase before its last, or the last
command ended in its last phase, or it ended with an error, or there was none. -/
def Status.Legal (t : Status) (err : BitVec 8) : Prop :=
  (t.busy = true ∧ t.done = false ∧ t.fail = false ∧ err = 0 ∧ t.phase.toNat < (finalPhase t.mode).toNat) ∨
  (t.busy = false ∧ t.done = true ∧ t.fail = false ∧ err = 0 ∧ t.phase = finalPhase t.mode) ∨
  (t.busy = false ∧ t.done = false ∧ t.fail = true ∧ t.ErrorPlace err) ∨
  (t = Status.reset ∧ err = 0)

/-- The registers only ENCODE uses hold their reset values (R40, R42). -/
def EncoderRegistersReset (s : State) : Prop :=
  s.freq = RegFile.fill 256 0 ∧ s.node = RegFile.fill 511 Node.blank ∧ s.pq = [] ∧ s.root = none ∧ s.nleaf = 0 ∧
    s.nnodes = 0

/-- Every sink byte below `SNK_SIZE` has a value (R63: "the defined part of the sink is always the contiguous range"). -/
def SinkContiguous (s : State) : Prop := ∀ a, a < s.snkSize.toNat → (s.snk.read a).isSome = true

/-- What holds while a command runs. -/
structure Running (s : State) : Prop where
  /-- R25, R171, R201. -/
  size_limit : s.srcSize.toNat < Config.sizeLimit
  /-- R201. -/
  chunk_pos : s.status.mode = true → 1 ≤ s.params.chunkSize
  /-- R30. -/
  position_le : s.srcPos.toNat ≤ s.srcSize.toNat
  /-- R63. -/
  contiguous : SinkContiguous s
  /-- R72, R74, R202: nothing is written before the header of ENCODE, nor before the phase `Decoding` of DECODE. -/
  empty_before : s.status.phase.toNat < (if s.status.mode then 2 else 3) → s.snkSize = 0
  /-- R152: the fixed fields are there once the header is written. -/
  header_there : s.status.mode = false → 3 ≤ s.status.phase.toNat → 5 ≤ s.snkSize.toNat
  /-- R202. -/
  payload_start : s.status.mode = true → s.status.phase = Phase.headerParsed → s.srcPos = s.payloadOff
  /-- R175, R207, R273: the buffer is empty but for the phase `Encoding`. -/
  buffer_empty : (s.status.mode = true ∨ s.status.phase.toNat < 4) → s.bitbuf = []

/-- The invariant of the machine: what every step keeps. -/
structure Inv (s : State) : Prop where
  src_wf : s.src.wf = true
  snk_wf : s.snk.wf = true
  dec_wf : s.dec.wf = true
  /-- No operation stands issued by itself: nothing in the machine issues one (assumption 3). -/
  issue_none : s.issue = none
  /-- R22, R23, R24, R236. -/
  status_legal : s.status.Legal s.err
  /-- R26, R30, R72, R74: outside a step the next byte in sequence goes to the end of the sink. -/
  position_at_end : s.snkPos = s.snkSize
  /-- R42: DECODE writes none of these. -/
  decode_keeps : s.status.mode = true → EncoderRegistersReset s ∧ s.code = RegFile.fill 256 none
  /-- R42: ENCODE writes neither `DEC` nor `CAND`. -/
  encode_keeps : s.status.mode = false → s.dec = [] ∧ s.cand = []
  /-- R40, R175: discarded once the header is written. -/
  discarded : s.status.mode = false → 3 ≤ s.status.phase.toNat → EncoderRegistersReset s
  /-- R34, R132: `PQ` is used by tree construction only, which leaves it empty. -/
  queue_empty : s.pq = []
  running : s.status.busy = true → Running s

/-- How far a running command can have come in the sink: what keeps every position inside its register (R30, R94,
R138). -/
structure Sized (s : State) : Prop where
  /-- R35, R138. -/
  code_length : s.status.mode = false → ∀ b c, codeOf s b = some c → 1 ≤ c.length ∧ c.length ≤ 255
  /-- R94, R102: the header has at most `5 + ceil8(69376)` bytes. -/
  header_size : s.status.busy = true → s.status.mode = false → 3 ≤ s.status.phase.toNat → s.payloadOff.toNat ≤ 8677
  /-- R180: no more payload bits than the source bytes read so far can have. -/
  payload_size : s.status.busy = true → s.status.mode = false → 3 ≤ s.status.phase.toNat →
    8 * s.snkSize.toNat + s.bitbuf.length ≤
      8 * s.payloadOff.toNat + (if s.status.phase = Phase.encoding then 255 * s.srcPos.toNat else 0)
  /-- R203, R211: no more symbols than payload bits read. -/
  output_size : s.status.busy = true → s.status.mode = true →
    (if s.status.phase = Phase.decoding then 8 * s.payloadOff.toNat else 0) + s.snkSize.toNat ≤ 8 * s.srcPos.toNat

/-- The host's duty of R264 (1) and R265: every byte below `SRC_SIZE` was provided. -/
def SourceProvided (s : State) : Prop := ∀ a, a < s.srcSize.toNat → (s.src.read a).isSome = true

/-- The source holds these bytes, all of them and no more count (R37, R265). -/
def SourceIs (s : State) (bytes : List Byte) : Prop :=
  s.srcSize.toNat = bytes.length ∧ ∀ k (h : k < bytes.length), s.src.read k = some bytes[k]

/-- The first bytes of the source are these (R62, R265). -/
def SourceStarts (s : State) (bytes : List Byte) : Prop :=
  bytes.length ≤ s.srcSize.toNat ∧ ∀ k (h : k < bytes.length), s.src.read k = some bytes[k]

/-- Nothing else than the engine's next transition can run: no command word, no issued operation, no host move. -/
def EngineAlone (s : State) : Prop := s.cmd = none ∧ s.issue = none ∧ s.host = []

/-- A command runs with this `MODE` and `PHASE`, and the engine is alone (R170, R200). -/
def RunningIn (s : State) (mode : Bool) (phase : BitVec 4) : Prop :=
  EngineAlone s ∧ s.status.busy = true ∧ s.status.mode = mode ∧ s.status.phase = phase

/-- The registers and register files at the reset values of R41, but for `STATUS`, which a command then sets. -/
structure RegistersReset (s : State) : Prop where
  cmd : s.cmd = none
  err : s.err = 0
  snkSize : s.snkSize = 0
  pad : s.pad = 0
  tlen : s.tlen = 0
  hbits : s.hbits = 0
  payloadOff : s.payloadOff = 0
  srcPos : s.srcPos = 0
  snkPos : s.snkPos = 0
  nleaf : s.nleaf = 0
  nnodes : s.nnodes = 0
  root : s.root = none
  bitbuf : s.bitbuf = []
  cand : s.cand = []
  freq : ∀ b, freqOf s b = 0
  node : ∀ i, nodeAt s i = { weight := 0, sym := none, parent := none, left := none, right := none }
  pq : s.pq = []
  code : ∀ b, codeOf s b = none
  dec : s.dec = []

/-- What a command and a reset leave as the host gave it (R37, R40, R41, R60, R260): the parameters, the source and its
size, and the host's coming moves. -/
structure SameHostSide (s t : State) : Prop where
  params : t.params = s.params
  srcSize : t.srcSize = s.srcSize
  src : t.src = s.src
  host : t.host = s.host

/-- The symbols that occur, in ascending order (R32, R131). -/
def occurring (freq : RegFile 256 (BitVec 64)) : List Symbol :=
  ((List.range 256).map (BitVec.ofNat 8)).filter fun b => decide (1 ≤ (freq.get (symIndex b)).toNat)

/-- The node reached from `j` by a left step for each 0 and a right step for each 1 (R135). -/
def follow (nodes : RegFile 511 Node) : NodeId → Bits → Option NodeId
  | j, [] => some j
  | j, b :: bs =>
    match (if b then (nodes.get j).right else (nodes.get j).left) with
    | some k => follow nodes k bs
    | none => none

/-- `u` is what the two operations of the transition into `TreeBuilt` leave of `s` (R174). -/
def CodedFrom (s u : State) : Prop :=
  ∃ t, exec .buildTree s = .next t ∧ exec .generateCodes t = .next u

/-- The state at a `raise` with the error taken (R236): nothing but `ERR` and `STATUS` differs. -/
def WithError (e : ErrorKind) (s t : State) : Prop :=
  t = { s with
    err := e.number
    status := { phase := s.status.phase, mode := s.status.mode, busy := false, done := false, fail := true } }

/-- Every byte of the sink outside `n` bytes from `a` on reads as before. -/
def SinkKeptOutside (a n : Nat) (s t : State) : Prop :=
  ∀ k, k < a ∨ a + n ≤ k → t.snk.read k = s.snk.read k

/-- These bytes stand in the sink from `a` on. -/
def SinkHolds (a : Nat) (bytes : List Byte) (t : State) : Prop :=
  ∀ k (h : k < bytes.length), t.snk.read (a + k) = some bytes[k]

/-- Bit sequences appended (`some`) with non-flushing drains (`none`) between them and one flushing drain at the end:
all the bytes returned, in order (R123 (c)). -/
def packRun : List (Option Bits) → Bits → List Byte
  | [], buf => drainedBytes true buf
  | some x :: ops, buf => packRun ops (buf ++ x)
  | none :: ops, buf => drainedBytes false buf ++ packRun ops (drainedRest false buf)

/-- `pack(x)`: what `drainBytes(true)` returns for `BITBUF = x` (R182). -/
def packBits (x : Bits) : List Byte := drainedBytes true x

/-- The bits of a list of table entries (R95, R97). -/
def entriesBits : List (Symbol × Bits) → Bits
  | [] => []
  | (b, c) :: es => Bit.bits8 b ++ Bit.bits8 (BitVec.ofNat 8 c.length) ++ c ++ entriesBits es

/-- The table a list of entries makes, each inserted in order (R158, R159). -/
def entriesTable : List (Symbol × Bits) → DecTable → DecTable
  | [], d => d
  | (b, c) :: es, d => entriesTable es (d.insert c b)

/-- The source begins with a header: a padding byte, `T`, and the bytes that carry `T` table bits, which are the bits of
these entries followed by `rest` (R92, R95, R97). -/
structure HeaderStarts (s : State) (pad : Byte) (T : BitVec 32) (es : List (Symbol × Bits)) (rest : Bits) (tb : List Byte) :
    Prop where
  codes : ∀ e ∈ es, e.2.length ≤ 255
  table_bytes : tb.length = (T.toNat + 7) / 8
  table_bits : (Bit.unpack tb).take T.toNat = entriesBits es ++ rest
  source : SourceStarts s (pad :: Bit.le32 T ++ tb)

/-- `t` is what a `readHeader` from `s` that raised leaves, by the four cases of R231: (a) the fixed fields pass the end of
the source, and nothing was read; (b) the table passes it, and the fixed fields were read; (c) fewer than 16 bits are left
for an entry, or (d) fewer than its code needs: the entries before it are in `DEC`, and `HBITS` is its place (R234, R236). -/
def HeaderErrorLeft (s t : State) : Prop :=
  (s.srcSize.toNat < 5 ∧ WithError .malformedHeader s t) ∨
  (∃ (pad : Byte) (T : BitVec 32), SourceStarts s (pad :: Bit.le32 T) ∧ s.srcSize.toNat < 5 + (T.toNat + 7) / 8 ∧
    WithError .malformedHeader { s with pad := pad, tlen := T } t) ∨
  ∃ (pad : Byte) (T h : BitVec 32) (es : List (Symbol × Bits)) (rest : Bits) (tb : List Byte),
    HeaderStarts s pad T es rest tb ∧ (0 < rest.length ∧ rest.length < 16 ∨ 16 ≤ rest.length ∧
      rest.length < 16 + entryLength rest) ∧ h.toNat = (entriesBits es).length ∧
    WithError .malformedHeader
      { s with pad := pad, tlen := T, hbits := h, bitbuf := [], dec := entriesTable es [] } t

/-- The entries of a code table in ascending symbol order, from symbol `k` on (R96, R153). -/
def codeEntries : List (Option Bits) → Nat → List (Symbol × Bits)
  | [], _ => []
  | none :: cs, k => codeEntries cs (k + 1)
  | some c :: cs, k => (BitVec.ofNat 8 k, c) :: codeEntries cs (k + 1)

/-- `tablebits` of a code table (R182). -/
def tableBits (code : RegFile 256 (Option Bits)) : Bits := entriesBits (codeEntries code.cells 0)

/-- `paybits`: the codes of the bytes in order; a byte without a code has none (R99, R182). -/
def payBits (code : RegFile 256 (Option Bits)) : List Byte → Bits
  | [] => []
  | b :: bs => (code.get (symIndex b)).getD [] ++ payBits code bs

/-- The code table of a state with these counters: `buildTree`, then `generateCodes` (R131 to R135, R182). -/
def codesOf (freq : RegFile 256 (BitVec 64)) : RegFile 256 (Option Bits) :=
  match generateCodes (buildTree { State.reset with freq := freq }) with
  | .on s => s.code
  | .raised s => s.code
  | .stuck _ => RegFile.fill 256 none

/-- The byte counts of a source (R173). -/
def countsOf (source : List Byte) : RegFile 256 (BitVec 64) :=
  source.foldl (fun f b => f.set (symIndex b) (f.get (symIndex b) + 1)) (RegFile.fill 256 0)

/-- The closed form of the container of a source (R182). -/
def containerOf (source : List Byte) : List Byte :=
  let code := codesOf (countsOf source)
  let table := tableBits code
  let pay := payBits code source
  BitVec.ofNat 8 (padCount (pay.length % 8)) :: Bit.le32 (BitVec.ofNat 32 table.length) ++ packBits table ++ packBits pay

/-- `F`, the size of the final chunk of a payload of `b` bytes read in chunks of `c` (R205, R210). -/
def finalChunk (c b : Nat) : Nat := b - c * ((b - 1) / c)

/-- The bits the walks consume of a payload, in order (R210): all but `min(PAD, 8F)` of its bits. -/
def payloadBits (c : Nat) (pad : Byte) (payload : List Byte) : Bits :=
  (Bit.unpack payload).take (8 * payload.length - min pad.toNat (8 * finalChunk c payload.length))

/-- How `parse` of R214 ends. -/
inductive ParseEnd where
  /-- `Done`, with these bits left in the candidate. -/
  | done (rest : Bits)
  /-- `InvalidCodeError`. -/
  | invalid
deriving DecidableEq, Repr

/-- The symbols read and the end of the reading, put in front. -/
def ParseEnd.cons (b : Symbol) (r : List Symbol × ParseEnd) : List Symbol × ParseEnd := (b :: r.1, r.2)

/-- The least length from `n` on, up to 255, at which a prefix of `bits` is a key, with its symbol. -/
def shortestKey (dec : DecTable) (bits : Bits) : Nat → Nat → Option (Nat × Symbol)
  | _, 0 => none
  | n, fuel + 1 =>
    if n ≤ bits.length ∧ n ≤ 255 then
      match dec.lookup (bits.take n) with
      | some b => some (n, b)
      | none => shortestKey dec bits (n + 1) fuel
    else none

/-- `parse(bits)` (R214): keep the shortest non-empty prefix that is a key, output its symbol, go on with the rest. -/
def parseBits (dec : DecTable) : Nat → Bits → List Symbol × ParseEnd
  | 0, bits => ([], .done bits)
  | fuel + 1, bits =>
    match shortestKey dec bits 1 255 with
    | some (n, b) => ParseEnd.cons b (parseBits dec fuel (bits.drop n))
    | none => if 256 ≤ bits.length then ([], .invalid) else ([], .done bits)

end Sys2Proof.Machine
end

