-- ==== Sys2Proof/Certificates/Slice0/Obligations.lean ====
section
/-! DEFINITION. The statements for the provers. Each docstring names the rules of the spec a statement is about; where it
rests on a choice of the model, the docstring says so. -/

open Sys2Proof Sys2Proof.Machine

/-! ### Encodings (spec/30_encoding.md) -/

/-- R21, R91, R92, R97, R101 and the labels of spec/opcode_table.json (assumption 3): words written out bit by bit decode
to the operations they stand for. -/
def Obligations.WrittenOutWordsDecode : Prop :=
  decode .cmd [false, false, false, false, false, false, false, true] = .ok .encode ∧
  decode .cmd [false, false, false, false, false, false, true, false] = .ok .decode ∧
  decode .cmd [false, false, false, false, false, false, true, true] = .error .reservedCommand ∧
  decode .uop [false, false, true, false, false, false, false, true] = .ok .generateCodes ∧
  decode .uop [false, false, false, true, false, false, false, true, false, false, false, false, false, false, false, true]
    = .ok (.drainBytes true) ∧
  decodeBytes .hdr [0x01, 0x5d, 0x00, 0x00, 0x00] = .ok (.hdr 1 93) ∧
  decode .ent [false, true, false, false, false, false, false, true, false, false, false, false, false, false, true, true,
    true, true, false] = .ok (.ent 0x41 [true, true, false]) ∧
  decode .cod [true, true, false] = .ok (.cod [true, true, false])

/-- R92: the fixed header's two fields stand at offsets 0 and 1 to 4, the second little-endian. -/
def Obligations.HeaderFieldsStandAtTheirOffsets : Prop :=
  ∀ pad t0 t1 t2 t3 : Byte, ∃ T : BitVec 32, decodeBytes .hdr [pad, t0, t1, t2, t3] = .ok (.hdr pad T) ∧
    T.toNat = t0.toNat + 256 * t1.toNat + 65536 * t2.toNat + 16777216 * t3.toNat

/-- R97: an entry's three fields, at any place in the table, whatever follows; its length; and the bound on `T`. -/
def Obligations.EntryFieldsFollowOneAnother : Prop :=
  (∀ (symbol : Symbol) (code rest : Bits), code.length ≤ 255 →
    decodeRest .ent (Bit.bits8 symbol ++ Bit.bits8 (BitVec.ofNat 8 code.length) ++ code ++ rest) =
      .ok (.ent symbol code, rest) ∧
    (encode (.ent symbol code)).length = 16 + code.length ∧ 16 + code.length ≤ 271) ∧
  ∀ code : RegFile 256 (Option Bits), (∀ b c, code.get (symIndex b) = some c → c.length ≤ 255) →
    (tableBits code).length ≤ 69376

/-- R91 to R101: no bit of an encoding is dropped, for every well-formed operation and every value of its operands. The
labels and operand bytes of the unit operations are the model's own (assumption 3). -/
def Obligations.DecodeInvertsEncode : Prop :=
  ∀ i : Instr, i.wf = true → decode i.format (encode i) = .ok i

/-! ### The step, the commands and the host (spec/10_state.md, spec/70_reset_and_hazards.md) -/

/-- R21, R30 and assumptions 2 and 3: what `step` runs, and in which order it looks: a word in `CMD`, an operation issued
by itself, the host's next move, the engine's transition. -/
def Obligations.StepRunsTheDecodedOperation : Prop :=
  ∀ s : State,
    (∀ w i, s.cmd = some w → decode .cmd (Bit.bits8 w) = .ok i → step s = exec i { s with cmd := none }) ∧
    (∀ u i, s.cmd = none → s.issue = some u → decode u.format u.bits = .ok i →
      step s = exec i { s with issue := none }) ∧
    (∀ w ms i, s.cmd = none → s.issue = none → s.host = .command w :: ms → decode .cmd (Bit.bits8 w) = .ok i →
      step s = exec i { s with host := ms }) ∧
    (EngineAlone s → step s = engineMove s)

/-- R21: the two words that start a command, every other word refused, a write while a command runs refused, and no value
held between writes. A host's write is the same step as the word standing in `CMD`. -/
def Obligations.CommandWriteStartsOrIsRefused : Prop :=
  (∀ (s : State) (word : Byte), s.cmd = some word →
    (word = 0x01 → step s = exec .encode { s with cmd := none }) ∧
    (word = 0x02 → step s = exec .decode { s with cmd := none }) ∧
    (word ≠ 0x01 → word ≠ 0x02 → step s = .refused .reservedCommand) ∧
    (word = 0x01 ∨ word = 0x02 → s.status.busy = true → step s = .refused .commandWhileBusy) ∧
    ∀ t, step s = .next t → t.cmd = none) ∧
  ∀ (s : State) (word : Byte) (ms : List HostMove), s.cmd = none → s.issue = none → s.host = .command word :: ms →
    step s = step { s with cmd := some word, host := ms }

/-- R171, with R40, R41 and R170 for the state a started ENCODE is in: refused exactly when a command runs or the source
has `2^56` bytes or more; else all registers at their reset values, `MODE = 0`, `BUSY = 1`, `PHASE = Idle`. -/
def Obligations.EncodeStartsUnlessRefused : Prop :=
  ∀ s : State,
    (s.status.busy = true → exec .encode s = .refused .commandWhileBusy) ∧
    (s.status.busy = false → 2 ^ 56 ≤ s.srcSize.toNat → exec .encode s = .refused .sourceTooLarge) ∧
    (s.status.busy = false → s.srcSize.toNat < 2 ^ 56 → ∃ t, exec .encode s = .next t ∧ RegistersReset t ∧
      t.status = { phase := 0, mode := false, busy := true, done := false, fail := false } ∧ SameHostSide s t ∧
      SinkKeptOutside 0 0 s t)

/-- R201, with R40, R41 and R200 for the state a started DECODE is in. -/
def Obligations.DecodeStartsUnlessRefused : Prop :=
  ∀ s : State,
    (s.status.busy = true → exec .decode s = .refused .commandWhileBusy) ∧
    (s.status.busy = false → 2 ^ 56 ≤ s.srcSize.toNat → exec .decode s = .refused .sourceTooLarge) ∧
    (s.status.busy = false → s.srcSize.toNat < 2 ^ 56 → s.params.chunkSize = 0 →
      exec .decode s = .refused .zeroChunkSize) ∧
    (s.status.busy = false → s.srcSize.toNat < 2 ^ 56 → 1 ≤ s.params.chunkSize → ∃ t, exec .decode s = .next t ∧
      RegistersReset t ∧ t.status = { phase := 0, mode := true, busy := true, done := false, fail := false } ∧
      SameHostSide s t ∧ SinkKeptOutside 0 0 s t)

/-- R263: a command's whole run is a function of the parameters, the source, its size and the host's moves: what an
earlier command left in the engine, finished, failed or abandoned, has no part in it. -/
def Obligations.EarlierCommandsHaveNoPart : Prop :=
  ∀ (s s' : State) (i : Instr) (n : Nat) (t t' : State), i = .encode ∨ i = .decode → SameHostSide s s' →
    s.snk = s'.snk → exec i s = .next t → exec i s' = .next t' →
    runSteps n t = runSteps n t'

/-- R22, R23: the bits of `STATUS` by their numbers. -/
def Obligations.StatusBitsStandAtTheirPlaces : Prop :=
  ∀ t : Status, t.toByte.toNat =
    t.phase.toNat + 16 * t.mode.toNat + 32 * t.busy.toNat + 64 * t.done.toNat + 128 * t.fail.toNat

/-- R41, R261: the registers and `STATUS` after reset. (What `SRC_SIZE` and the parameters hold then is the model's choice,
assumptions 1 and 6, and no part of this statement.) -/
def Obligations.ResetLeavesTheResetValues : Prop :=
  RegistersReset State.reset ∧ State.reset.status.toByte = 0x00 ∧ State.reset.status.phase = 0 ∧
    State.reset.status.mode = false ∧ State.reset.status.busy = false ∧ State.reset.status.done = false ∧
    State.reset.status.fail = false

/-- R260, R262: a reset puts every register to its reset value and leaves the source, `SRC_SIZE`, the parameters and the
sink's bytes alone; while a command runs, the sink keeps a prefix of the byte writes of the transition in progress, and
every prefix is admitted. -/
def Obligations.ResetMayCutATransitionShort : Prop :=
  ∀ (s : State) (landed : Nat) (ms : List HostMove), s.cmd = none → s.issue = none → s.host = .reset landed :: ms →
    ∃ t, step s = .next t ∧ RegistersReset t ∧ t.status.toByte = 0x00 ∧ SameHostSide { s with host := ms } t ∧
      (s.status.busy = false → SinkKeptOutside 0 0 s t) ∧
      (∀ u, s.status.busy = true → engineMove { s with host := ms } = .next u → ∃ ws,
        u.journal = s.journal ++ ws ∧ u.snk = s.snk.replay ws ∧ t.snk = s.snk.replay (ws.take landed))

/-- R78, R79, R264: while a command runs the host's moves are refused, but for a change of a source byte between the two
passes of ENCODE, which changes that byte and nothing else; while none runs they are free. -/
def Obligations.HostBreachesAreRefused : Prop :=
  ∀ s : State,
    (s.status.busy = true →
      (∀ bytes, hostMove (.provideSource bytes) s = .refused .hostBreach) ∧
      hostMove .provideSink s = .refused .hostBreach ∧
      (∀ n, hostMove (.writeSrcSize n) s = .refused .hostBreach) ∧
      (∀ a b, s.status.mode = true ∨ s.status.phase = 0 ∨ s.status.phase = 4 →
        hostMove (.changeSource a b) s = .refused .hostBreach)) ∧
    (∀ a b, a < 2 ^ 64 →
      s.status.busy = false ∨
        s.status.mode = false ∧ (s.status.phase = 1 ∨ s.status.phase = 2 ∨ s.status.phase = 3) →
      ∃ src, hostMove (.changeSource a b) s = .next { s with src := src } ∧ src.read a = some b ∧
        ∀ k, k ≠ a → src.read k = s.src.read k)

/-- R236, R239, R266: when no command runs and the host does nothing, nothing changes; an ended command is never
resumed. -/
def Obligations.AnEndedCommandStaysEnded : Prop :=
  ∀ (s : State) (n : Nat), EngineAlone s → s.status.busy = false → runSteps n s = .next s

/-! ### BitPacker (spec/40_bitpacker.md) -/

/-- R121: the eight bits of the operand modulo 256, most significant first, behind what the buffer holds; nothing else. -/
def Obligations.AppendByteAddsEightBits : Prop :=
  ∀ (s : State) (n : Nat),
    exec (.appendByte n) s =
      .next { s with bitbuf := s.bitbuf ++ (List.range 8).map fun k => (n % 256).testBit (7 - k) }

/-- R122: the bytes returned and the bits left, for either value of `flush`; nothing else changes but the model's own
record of what was returned (assumption 4). -/
def Obligations.DrainBytesPacksFromTheFront : Prop :=
  ∀ (s : State) (flush : Bool), ∃ out rest,
    exec (.drainBytes flush) s = .next { s with bitbuf := rest, drained := out } ∧
    (flush = false → out.length = s.bitbuf.length / 8 ∧ Bit.unpack out = s.bitbuf.take (8 * (s.bitbuf.length / 8)) ∧
      rest = s.bitbuf.drop (8 * (s.bitbuf.length / 8))) ∧
    (flush = true → out.length = (s.bitbuf.length + 7) / 8 ∧
      Bit.unpack out = s.bitbuf ++ Bit.zeros ((8 - s.bitbuf.length % 8) % 8) ∧ rest = [])

/-- R123 (a), (b), (d): append and drain are inverse on whole bytes and on bits, and what a drain leaves. -/
def Obligations.AppendAndDrainAreInverse : Prop :=
  (∀ (s : State) (ns : List Nat) (flush : Bool), s.bitbuf = [] →
    exec (.drainBytes flush) (ns.foldl (fun t n => appendByte n t) s) =
      .next { s with drained := ns.map (BitVec.ofNat 8) }) ∧
  (∀ s t : State, exec (.drainBytes true) s = .next t →
    t.bitbuf = [] ∧ (appendBytes t.drained t).bitbuf = s.bitbuf ++ Bit.zeros ((8 - s.bitbuf.length % 8) % 8)) ∧
  ∀ s t : State, exec (.drainBytes false) s = .next t → t.bitbuf.length ≤ 7

/-- R123 (c), (e): where the non-flushing drains happen does not matter. -/
def Obligations.WhereABufferIsDrainedDoesNotMatter : Prop :=
  ∀ (ops : List (Option Bits)) (buf : Bits),
    packRun ops buf = drainedBytes true (buf ++ (ops.filterMap fun x => x).flatten)

/-! ### CodeTree (spec/41_codetree.md) -/

/-- R131 to R134: `buildTree` always completes; it writes the tree's registers only, and their sizes and the root are as
R133 says. The root's weight is the sum of all counters (in the 64 bits of a weight). -/
def Obligations.BuildTreeCompletesWithOneRoot : Prop :=
  ∀ s : State, ∃ t, exec .buildTree s = .next t ∧
    t = { s with node := t.node, pq := [], nnodes := t.nnodes, nleaf := t.nleaf, root := t.root } ∧
    t.nleaf.toNat = (occurring s.freq).length ∧
    ((occurring s.freq).length = 0 → t.nnodes = 0 ∧ t.root = none) ∧
    (1 ≤ (occurring s.freq).length → t.nnodes.toNat = 2 * (occurring s.freq).length - 1 ∧
      ∃ r, t.root = some r ∧ r.val = 2 * (occurring s.freq).length - 2 ∧
        (nodeAt t r).weight = s.freq.cells.foldl (fun x y => x + y) 0)

/-- R131: the leaves, in ascending order of symbol value, with their counters. -/
def Obligations.LeavesAreTheOccurringSymbols : Prop :=
  ∀ s t : State, exec .buildTree s = .next t → ∀ k (h : k < (occurring s.freq).length) (i : NodeId), i.val = k →
    (nodeAt t i).sym = some (occurring s.freq)[k] ∧ (nodeAt t i).weight = freqOf s (occurring s.freq)[k] ∧
    (nodeAt t i).left = none ∧ (nodeAt t i).right = none

/-- R33: the tree is a tree: inner nodes have no symbol, two different children created before them, and their weights'
sum; a node's parent is the node whose child it is; the root alone has none. -/
def Obligations.TheNodesMakeABinaryTree : Prop :=
  ∀ s t : State, exec .buildTree s = .next t → ∀ i : NodeId, i.val < t.nnodes.toNat →
    ((nodeAt t i).parent = none ↔ t.root = some i) ∧
    (∀ p, (nodeAt t i).parent = some p ↔
      p.val < t.nnodes.toNat ∧ ((nodeAt t p).left = some i ∨ (nodeAt t p).right = some i)) ∧
    (t.nleaf.toNat ≤ i.val → (nodeAt t i).sym = none ∧ ∃ a b, a ≠ b ∧ a < i ∧ b < i ∧
      (nodeAt t i).left = some a ∧ (nodeAt t i).right = some b ∧
      (nodeAt t i).weight = (nodeAt t a).weight + (nodeAt t b).weight)

/-- R34, R132: each inner node joins the two nodes that came first in the order of weight, then id, among those that had
no parent yet when it was made, the first of the two on the left. -/
def Obligations.EachInnerNodeJoinsTheTwoLowest : Prop :=
  ∀ s t : State, exec .buildTree s = .next t → ∀ i a b : NodeId, i.val < t.nnodes.toNat →
    (nodeAt t i).left = some a → (nodeAt t i).right = some b →
    ((nodeAt t a).weight.toNat < (nodeAt t b).weight.toNat ∨
      (nodeAt t a).weight.toNat = (nodeAt t b).weight.toNat ∧ a < b) ∧
    ∀ j : NodeId, j < i → j ≠ a → j ≠ b → (∀ p, (nodeAt t j).parent = some p → i < p) →
      (nodeAt t b).weight.toNat < (nodeAt t j).weight.toNat ∨
        (nodeAt t b).weight.toNat = (nodeAt t j).weight.toNat ∧ b < j

/-- R133: inner nodes are created in order of non-decreasing weight, where no weight overflows (R12 (b)). -/
def Obligations.InnerNodesComeInOrderOfWeight : Prop :=
  ∀ s t : State, (s.freq.cells.map BitVec.toNat).sum < 2 ^ 64 → exec .buildTree s = .next t →
    ∀ i j : NodeId, t.nleaf.toNat ≤ i.val → i ≤ j → j.val < t.nnodes.toNat →
      (nodeAt t i).weight.toNat ≤ (nodeAt t j).weight.toNat

/-- R135: `generateCodes` completes on every arena whose parent links lead to later nodes and whose leaves hold symbols
(`buildTree` leaves no other), writes `CODE` only, and gives a code to the leaves' symbols and to no other. -/
def Obligations.GenerateCodesCompletes : Prop :=
  ∀ s : State, (∀ i p : NodeId, (nodeAt s i).parent = some p → i < p) →
    (∀ i : NodeId, i.val < s.nleaf.toNat → (nodeAt s i).sym.isSome = true) →
    ∃ t, exec .generateCodes s = .next t ∧ t = { s with code := t.code } ∧
      ∀ b, (codeOf t b).isSome = true ↔ ∃ i : NodeId, i.val < s.nleaf.toNat ∧ (nodeAt s i).sym = some b

/-- R35, R134, R135: a symbol has a code exactly when it occurs; for two or more symbols the code leads from the root to
the symbol's leaf, 0 to the left and 1 to the right; a lone symbol has the code `[0]`. -/
def Obligations.CodesLeadFromTheRootToTheLeaf : Prop :=
  ∀ s : State, ∃ t u, exec .buildTree s = .next t ∧ exec .generateCodes t = .next u ∧
    ∀ b, ((codeOf u b).isSome = true ↔ 1 ≤ (freqOf s b).toNat) ∧
      ∀ c, codeOf u b = some c →
        ((occurring s.freq).length = 1 → c = [false]) ∧
        (2 ≤ (occurring s.freq).length → ∃ r i, t.root = some r ∧ follow t.node r c = some i ∧
          (nodeAt t i).sym = some b)

/-- R137 (b), (c): no generated code is a prefix of another, so different symbols have different codes. -/
def Obligations.GeneratedCodesArePrefixFree : Prop :=
  ∀ s u : State, CodedFrom s u → ∀ b b' c c', codeOf u b = some c → codeOf u b' = some c' → c <+: c' → b = b'

/-- R137 (d): for two or more symbols the code is complete: every bit string that is long enough begins with a code. -/
def Obligations.GeneratedCodesAreComplete : Prop :=
  ∀ s u : State, CodedFrom s u → 2 ≤ (occurring s.freq).length → ∀ x : Bits, 255 ≤ x.length →
    ∃ b c, codeOf u b = some c ∧ c <+: x

/-- R138: the bounds on the length of a code. -/
def Obligations.CodeLengthsAreBounded : Prop :=
  ∀ s u : State, CodedFrom s u → ∀ b c, codeOf u b = some c →
    ((occurring s.freq).length = 1 → c.length = 1) ∧
    (2 ≤ (occurring s.freq).length → 1 ≤ c.length ∧ c.length ≤ (occurring s.freq).length - 1) ∧
    (occurring s.freq).length - 1 ≤ 255

/-- R140: the codes are a function of `FREQ`: two engines with the same counters, whatever else they hold, have the same
codes. -/
def Obligations.CodesAreAFunctionOfTheCounters : Prop :=
  ∀ s s' u u' : State, s.freq = s'.freq → CodedFrom s u → CodedFrom s' u' → u.code = u'.code

/-! ### ContainerFormat (spec/42_container.md) -/

/-- R151 to R155: `writeHeader` under its precondition, for codes an entry can carry: the registers, the bytes of the
header, and nothing else. -/
def Obligations.WriteHeaderLaysOutTheHeader : Prop :=
  ∀ s : State, s.bitbuf = [] → s.snkPos = 0 → s.snkSize = 0 → (∀ b c, codeOf s b = some c → c.length ≤ 255) →
    ∃ t T P, exec .writeHeader s = .next t ∧
      t = { s with
        bitbuf := [], hbits := T, tlen := T, payloadOff := P, snkPos := P, snkSize := P, snk := t.snk
        journal := t.journal } ∧
      T.toNat = (tableBits s.code).length ∧ P.toNat = 5 + ((tableBits s.code).length + 7) / 8 ∧
      SinkHolds 0 (0x00 :: Bit.le32 T ++ packBits (tableBits s.code)) t ∧ SinkKeptOutside 0 P.toNat s t

/-- R156 to R159: `readHeader` on a source that begins with any header the format allows: any padding byte, entries in any
order and number, lengths from 0 on, any fill bits. -/
def Obligations.ReadHeaderTakesAnyEntries : Prop :=
  ∀ (s : State) (pad : Byte) (T : BitVec 32) (es : List (Symbol × Bits)) (tb : List Byte),
    (∀ e ∈ es, e.2.length ≤ 255) → T.toNat = (entriesBits es).length → tb.length = (T.toNat + 7) / 8 →
    (Bit.unpack tb).take T.toNat = entriesBits es → SourceStarts s (pad :: Bit.le32 T ++ tb) →
    exec .readHeader s = .next { s with
      pad := pad
      tlen := T
      hbits := T
      payloadOff := BitVec.ofNat 64 (5 + tb.length)
      srcPos := BitVec.ofNat 64 (5 + tb.length)
      bitbuf := []
      dec := entriesTable es [] }

/-- R156 to R159, R231, R234, R236, with R42: on a source that is there, `readHeader` always ends; from `FAIL = 0` it
raises exactly when the source does not begin with a header, and then leaves, case by case, nothing changed but `ERR` and
`STATUS`, the fixed fields that were read, and in the entry loop `HBITS` at the failing entry, `DEC` and the empty `BITBUF`.
(That a raise writes `DONE = 0` is assumption 13.) -/
def Obligations.ReadHeaderRaisesOnlyOnMalformedHeaders : Prop :=
  ∀ s : State, SourceProvided s → s.status.fail = false → ∃ t, exec .readHeader s = .next t ∧
    (t.status.fail = true → HeaderErrorLeft s t) ∧
    (t.status.fail = false ↔ ∃ (pad : Byte) (T : BitVec 32) (es : List (Symbol × Bits)) (tb : List Byte),
      T.toNat = (entriesBits es).length ∧ HeaderStarts s pad T es [] tb)

/-- R160: what `writeHeader` wrote, `readHeader` reads back as the inverse of `CODE`. -/
def Obligations.ReadHeaderInvertsWriteHeader : Prop :=
  ∀ s t u : State, s.bitbuf = [] → s.snkPos = 0 → s.snkSize = 0 →
    (∀ b c, codeOf s b = some c → 1 ≤ c.length ∧ c.length ≤ 255) →
    (∀ b b' c, codeOf s b = some c → codeOf s b' = some c → b = b') →
    exec .writeHeader s = .next t → t.payloadOff.toNat ≤ u.srcSize.toNat →
    (∀ k, k < t.payloadOff.toNat → u.src.read k = t.snk.read k) →
    ∃ v, exec .readHeader u = .next v ∧ (∀ c b, v.dec.lookup c = some b ↔ codeOf s b = some c) ∧
      v.tlen = t.tlen ∧ v.payloadOff = t.payloadOff ∧ v.err = u.err ∧ v.status = u.status

/-- R92, R156: the record `HDR` enters its two registers. -/
def Obligations.HdrEntersItsRegisters : Prop :=
  ∀ (s : State) (pad : Byte) (T : BitVec 32), exec (.hdr pad T) s = .next { s with pad := pad, tlen := T }

/-- R97, R158, R159: the record `ENT` is inserted, replacing an entry with the same code, where it ends within `T`; else
the error of R231 (c) or (d) is taken and nothing else changes. -/
def Obligations.EntIsInsertedOrMalformed : Prop :=
  ∀ (s : State) (b : Symbol) (c : Bits), c.length ≤ 255 →
    (s.hbits.toNat + 16 + c.length ≤ s.tlen.toNat → ∃ t, exec (.ent b c) s = .next t ∧
      t = { s with dec := t.dec, hbits := t.hbits } ∧ t.hbits.toNat = s.hbits.toNat + 16 + c.length ∧
      ∀ k, t.dec.lookup k = if k = c then some b else s.dec.lookup k) ∧
    (s.tlen.toNat < s.hbits.toNat + 16 + c.length → ∃ t, exec (.ent b c) s = .next t ∧
      WithError .malformedHeader s t)

/-- R101, R211: the record `COD`: bits that are a key, none of whose shorter prefixes is one, give the key's symbol, one
byte at `SNK_POS`; bits no prefix of which is a key stay in the candidate. -/
def Obligations.CodEmitsTheSymbolOfItsKey : Prop :=
  ∀ (s : State) (code : Bits), 1 ≤ code.length → code.length ≤ 255 → s.bitbuf = [] → s.cand = [] →
    (∀ n, 1 ≤ n → n < code.length → s.dec.lookup (code.take n) = none) →
    (∀ y, s.dec.lookup code = some y → s.snkPos.toNat + 1 < 2 ^ 64 → ∃ t, exec (.cod code) s = .next t ∧
      t = { s with snk := t.snk, snkSize := t.snkSize, snkPos := s.snkPos + 1, journal := t.journal } ∧
      t.snkSize.toNat = max s.snkSize.toNat (s.snkPos.toNat + 1) ∧ SinkHolds s.snkPos.toNat [y] t ∧
      SinkKeptOutside s.snkPos.toNat 1 s t) ∧
    (s.dec.lookup code = none → exec (.cod code) s = .next { s with cand := code })

/-- R42, R60, with R40, R41, R170, R200 for the commands: the operations that store nothing leave every byte of both streams
as it was. Of ENCODE and DECODE only the start is meant, which is their meaning in `exec` (assumption 8); what R42 lists as
written to the sink is written by the transitions that follow. HDR and ENT are taken by themselves (assumption 16). -/
def Obligations.OperationsThatStoreNothingKeepTheStreams : Prop :=
  ∀ (i : Instr) (s t : State), i.format ≠ .cod → i ≠ .writeHeader → exec i s = .next t →
    (∀ a, t.src.read a = s.src.read a) ∧ (∀ a, t.snk.read a = s.snk.read a) ∧ t.srcSize = s.srcSize ∧
      (i.format ≠ .cmd → t.snkSize = s.snkSize ∧ t.snkPos = s.snkPos)

/-! ### ENCODE (spec/43_encoder.md) -/

/-- R172: pass 1 adds each byte of the source to its counter, once. -/
def Obligations.CountingPassCountsEveryByte : Prop :=
  ∀ (s : State) (bytes : List Byte), RunningIn s false 0 → SourceIs s bytes → ∃ f,
    step s = .next { s with freq := f, srcPos := s.srcSize, status := { s.status with phase := 1 } } ∧
    ∀ b, f.get (symIndex b) = freqOf s b + BitVec.ofNat 64 (bytes.count b)

/-- R174, R175, R176, R202, R203: the transitions that run the unit operations, in both commands, and the two seeks. An
error in `readHeader` ends the transition where it was raised. -/
def Obligations.TransitionsRunTheUnitOperations : Prop :=
  ∀ s : State,
    (∀ u, RunningIn s false 1 → CodedFrom s u → step s = .next { u with status := { s.status with phase := 2 } }) ∧
    (∀ t, RunningIn s false 2 → exec .writeHeader s = .next t → step s = .next { t with
      freq := RegFile.fill 256 0
      node := RegFile.fill 511 { weight := 0, sym := none, parent := none, left := none, right := none }
      pq := []
      root := none
      nleaf := 0
      nnodes := 0
      status := { s.status with phase := 3 } }) ∧
    (RunningIn s false 3 → step s = .next { s with srcPos := 0, status := { s.status with phase := 4 } }) ∧
    (∀ t, RunningIn s true 0 → exec .readHeader s = .next t → t.status.busy = true →
      step s = .next { t with status := { s.status with phase := 1 } }) ∧
    (∀ t, RunningIn s true 0 → exec .readHeader s = .next t → t.status.busy = false → step s = .next t) ∧
    (RunningIn s true 1 → step s = .next { s with
      srcPos := s.payloadOff
      cand := []
      snkPos := 0
      status := { s.status with phase := 2 } })

/-- R177 to R179: the `Encoding` step on a byte that has a code: the code joins the buffer; above the threshold all whole
bytes go to the sink at `SNK_POS` and fewer than eight bits stay; nothing else changes. -/
def Obligations.EncodingStepEmitsTheCode : Prop :=
  ∀ (s : State) (b : Symbol) (c : Bits), RunningIn s false 4 → s.srcPos.toNat < s.srcSize.toNat →
    s.src.read s.srcPos.toNat = some b → codeOf s b = some c →
    s.snkPos.toNat + (s.bitbuf ++ c).length / 8 < 2 ^ 64 → ∃ t out, step s = .next t ∧
      t = { s with
        srcPos := s.srcPos + 1, bitbuf := t.bitbuf, snk := t.snk, snkSize := t.snkSize, snkPos := t.snkPos
        journal := t.journal } ∧
      Bit.unpack out ++ t.bitbuf = s.bitbuf ++ c ∧
      ((s.bitbuf ++ c).length ≤ s.params.flushThreshold → out = []) ∧
      (s.params.flushThreshold < (s.bitbuf ++ c).length → t.bitbuf.length < 8) ∧
      t.snkPos.toNat = s.snkPos.toNat + out.length ∧
      t.snkSize.toNat = (if out = [] then s.snkSize.toNat else max s.snkSize.toNat (s.snkPos.toNat + out.length)) ∧
      SinkHolds s.snkPos.toNat out t ∧ SinkKeptOutside s.snkPos.toNat out.length s t

/-- R178, R233, R236: the `Encoding` step on a byte that has no code takes the coding-table miss: the byte has been read,
nothing was appended, nothing written. -/
def Obligations.ByteWithoutACodeIsAMiss : Prop :=
  ∀ (s : State) (b : Symbol), RunningIn s false 4 → s.srcPos.toNat < s.srcSize.toNat →
    s.src.read s.srcPos.toNat = some b → codeOf s b = none → ∃ t, step s = .next t ∧
      WithError .codingTableMiss { s with srcPos := s.srcPos + 1 } t

/-- R181: the last transition of ENCODE: the flushing drain, the padding count in `PAD` and at offset 0, the flags. -/
def Obligations.FlushEndsTheEncoding : Prop :=
  ∀ s : State, RunningIn s false 4 → s.srcPos = s.srcSize → 1 ≤ s.snkPos.toNat →
    s.snkPos.toNat + (s.bitbuf.length + 7) / 8 < 2 ^ 64 → ∃ t out, step s = .next t ∧
      t = { s with
        bitbuf := [], pad := t.pad, snk := t.snk, snkSize := t.snkSize, snkPos := t.snkPos, journal := t.journal
        status := { s.status with phase := 5, busy := false, done := true } } ∧
      t.pad.toNat = (8 - s.bitbuf.length % 8) % 8 ∧ Bit.unpack out = s.bitbuf ++ Bit.zeros t.pad.toNat ∧
      t.snkPos.toNat = s.snkPos.toNat + out.length ∧
      t.snkSize.toNat =
        max 1 (if out = [] then s.snkSize.toNat else max s.snkSize.toNat (s.snkPos.toNat + out.length)) ∧
      SinkHolds s.snkPos.toNat out t ∧ SinkHolds 0 [t.pad] t ∧
      ∀ k, 1 ≤ k → (k < s.snkPos.toNat ∨ s.snkPos.toNat + out.length ≤ k) → t.snk.read k = s.snk.read k

/-- R182, R183: ENCODE on any source below the limit ends with `DONE = 1`, `ERR = 0` and the closed form in the sink,
whatever `FLUSH_THRESHOLD` (and `CHUNK_SIZE`) is. -/
def Obligations.EncodeMakesTheClosedForm : Prop :=
  ∀ (p : Params) (source : List Byte), source.length < 2 ^ 56 → ∃ t,
    runSteps (stepsFor source.length) (session p source 0x01) = .next t ∧ t.status.done = true ∧
    t.status.fail = false ∧ t.err = 0 ∧ sinkImage t = some (containerOf source) ∧
    t.snkSize.toNat = 5 + ((tableBits (codesOf (countsOf source))).length + 7) / 8 +
      ((payBits (codesOf (countsOf source)) source).length + 7) / 8

/-- R72: the order of ENCODE's writes: the five reserved bytes, the table, the back-patch of `T`, the payload, byte 0. -/
def Obligations.EncodeWritesInOrder : Prop :=
  ∀ (p : Params) (source : List Byte), source.length < 2 ^ 56 → ∃ t pay,
    runSteps (stepsFor source.length) (session p source 0x01) = .next t ∧
    pay = packBits (payBits (codesOf (countsOf source)) source) ∧
    t.journal = cellsFrom 0 [0x00, 0x00, 0x00, 0x00, 0x00] ++
      cellsFrom 5 (packBits (tableBits (codesOf (countsOf source)))) ++ cellsFrom 1 (Bit.le32 t.tlen) ++
      cellsFrom t.payloadOff.toNat pay ++ [(0, t.pad)]

/-- R184: the empty input and inputs of one symbol, of any length. -/
def Obligations.EmptyAndLoneSymbolContainers : Prop :=
  containerOf [] = [0x00, 0x00, 0x00, 0x00, 0x00] ∧
  ∀ (b : Symbol) (n : Nat), 1 ≤ n → n < 2 ^ 56 →
    containerOf (List.replicate n b) =
      [BitVec.ofNat 8 ((8 - n % 8) % 8), 0x11, 0x00, 0x00, 0x00, b, 0x01, 0x00] ++ List.replicate ((n + 7) / 8) 0x00

/-! ### DECODE (spec/44_decoder.md) -/

/-- R211, R212, R232, with R63 for `SNK_SIZE`: one bit of `walk`: it joins the candidate; a key emits its symbol and resets
the candidate; else the 256th bit takes the error; else the candidate is kept. -/
def Obligations.EachBitIsTestedAgainstTheTable : Prop :=
  ∀ (s : State) (b : Bool),
    (∀ y, s.dec.lookup (s.cand ++ [b]) = some y → s.snkPos.toNat + 1 < 2 ^ 64 → ∃ t, walkBit b s = .on t ∧
      t = { s with
        cand := [], snk := t.snk, snkSize := t.snkSize, snkPos := s.snkPos + 1, journal := t.journal } ∧
      t.snkSize.toNat = max s.snkSize.toNat (s.snkPos.toNat + 1) ∧
      SinkHolds s.snkPos.toNat [y] t ∧ SinkKeptOutside s.snkPos.toNat 1 s t) ∧
    (s.dec.lookup (s.cand ++ [b]) = none → (s.cand ++ [b]).length ≤ 255 →
      walkBit b s = .on { s with cand := s.cand ++ [b] }) ∧
    (s.dec.lookup (s.cand ++ [b]) = none → 256 ≤ (s.cand ++ [b]).length → ∃ t, walkBit b s = .raised t ∧
      WithError .invalidCode { s with cand := s.cand ++ [b] } t)

/-- R213: DECODE is done when the source is exhausted and the buffer empty, whatever the candidate holds. -/
def Obligations.DoneDoesNotLookAtTheCandidate : Prop :=
  ∀ s : State, RunningIn s true 2 → s.srcPos = s.srcSize → s.bitbuf = [] →
    step s = .next { s with status := { s.status with phase := 3, busy := false, done := true } }

/-- R210, R214: DECODE of any source that begins with a header ends as `parse` of the payload's bits says: the sink holds
the symbols output, and the candidate the rest, or the error is taken. -/
def Obligations.DecodeParsesThePayload : Prop :=
  ∀ (p : Params) (pad : Byte) (T : BitVec 32) (es : List (Symbol × Bits)) (tb payload : List Byte),
    1 ≤ p.chunkSize → (∀ e ∈ es, e.2.length ≤ 255) → T.toNat = (entriesBits es).length →
    tb.length = (T.toNat + 7) / 8 → (Bit.unpack tb).take T.toNat = entriesBits es →
    (pad :: Bit.le32 T ++ tb ++ payload).length < 2 ^ 56 → ∃ t,
      runSteps (stepsFor (pad :: Bit.le32 T ++ tb ++ payload).length)
        (session p (pad :: Bit.le32 T ++ tb ++ payload) 0x02) = .next t ∧
      (∀ out rest, parseBits (entriesTable es []) (8 * payload.length) (payloadBits p.chunkSize pad payload) =
          (out, .done rest) →
        t.status.done = true ∧ t.err = 0 ∧ t.cand = rest ∧ sinkImage t = some out) ∧
      (∀ out, parseBits (entriesTable es []) (8 * payload.length) (payloadBits p.chunkSize pad payload) =
          (out, .invalid) →
        t.status.fail = true ∧ t.err = 2 ∧ t.cand.length = 256 ∧ sinkImage t = some out)

/-- R170, R200, R238, R240: every DECODE below the limits ends, in `DONE` or in one of its two errors; after a malformed
header nothing was written. -/
def Obligations.EveryDecodeEnds : Prop :=
  ∀ (p : Params) (source : List Byte), 1 ≤ p.chunkSize → source.length < 2 ^ 56 → ∃ t,
    runSteps (stepsFor source.length) (session p source 0x02) = .next t ∧ t.status.busy = false ∧
    t.status.mode = true ∧
    (t.status.done = true ∧ t.status.fail = false ∧ t.err = 0 ∧ t.status.phase = 3 ∨
     t.status.done = false ∧ t.status.fail = true ∧ t.err = 1 ∧ t.status.phase = 0 ∧ t.snkSize = 0 ∨
     t.status.done = false ∧ t.status.fail = true ∧ t.err = 2 ∧ t.status.phase = 2)

/-- R8, R214: where byte 0 of the source is at most 8, what a DECODE gives does not depend on `CHUNK_SIZE`. -/
def Obligations.ChunkSizeDoesNotMatter : Prop :=
  ∀ (p q : Params) (source : List Byte), 1 ≤ p.chunkSize → 1 ≤ q.chunkSize → source.length < 2 ^ 56 →
    (∀ h : 0 < source.length, source[0].toNat ≤ 8) → decodeOf p source = decodeOf q source

/-- R215: `decode(encode(S)) = S` for every finite byte sequence, whatever the parameters of the two engines, where both
are below the limit on the size of a source. -/
def Obligations.DecodeInvertsEncodeOfEverySource : Prop :=
  ∀ (p q : Params) (source container : List Byte), 1 ≤ q.chunkSize → source.length < 2 ^ 56 →
    encodeOf p source = .value container → container.length < 2 ^ 56 → decodeOf q container = .value source

/-! ### The whole machine (spec/10_state.md, spec/20_memory.md, spec/60_exceptions.md) -/

/-- R236 with R24, R231 to R233: what `raise` does, for each of the three errors. -/
def Obligations.RaiseRecordsTheKindAndThePlace : Prop :=
  (∀ (e : ErrorKind) (s : State), WithError e s (raise e s)) ∧ ErrorKind.malformedHeader.number = 1 ∧
    ErrorKind.invalidCode.number = 2 ∧ ErrorKind.codingTableMiss.number = 3

/-- R22 to R26, R30, R33, R42, R63: the invariant of Safety.lean holds after reset. -/
def Obligations.InvariantHoldsAfterReset : Prop := Inv State.reset

/-- R22 to R26, R30, R33, R42, R60, R63, R171, R201: every step keeps the invariant, the host's moves among them. -/
def Obligations.EveryStepKeepsTheInvariant : Prop :=
  ∀ s t : State, Inv s → step s = .next t → Inv t

/-- R30, R94, R138, R180, R203, R211: how far a command can have come; the invariant with its bounds is kept
by every step. -/
def Obligations.EveryStepKeepsTheBounds : Prop :=
  Sized State.reset ∧ ∀ s t : State, Inv s → Sized s → step s = .next t → Sized t

/-- R170, R200, R278: while a command runs on a source that is there, a transition is always enabled and completes. -/
def Obligations.ARunningCommandAlwaysMovesOn : Prop :=
  ∀ s : State, Inv s → Sized s → SourceProvided s → s.status.busy = true → ∃ t, engineMove s = .next t

/-- R23, R30: `PHASE` advances by one arrow or stays, never back, and `MODE` stays, while the engine moves. -/
def Obligations.PhaseAdvancesAlongItsArrows : Prop :=
  ∀ s t : State, engineMove s = .next t →
    t.status.mode = s.status.mode ∧ (t.status.phase = s.status.phase ∨ t.status.phase = s.status.phase + 1)

/-- R60, R72, R74, R78: the engine never writes the source, its size, the parameters or the host's side, and changes the
sink by the byte writes it records, in order. -/
def Obligations.TheEngineOnlyWritesTheSink : Prop :=
  ∀ s t : State, engineMove s = .next t → SameHostSide s t ∧
    ∃ ws, t.journal = s.journal ++ ws ∧ t.snk = s.snk.replay ws ∧ ∀ c ∈ ws, c.1 < 2 ^ 64

/-- R60, R75 (d): the engine never reads the sink: what bytes the sink holds has no part in anything else. -/
def Obligations.TheEngineNeverReadsTheSink : Prop :=
  ∀ (s : State) (m : Memory), match engineMove s with
    | .next t => ∃ m', engineMove { s with snk := m } = .next { t with snk := m' }
    | .fault f => engineMove { s with snk := m } = .fault f
    | .refused r => engineMove { s with snk := m } = .refused r

/-- R74: DECODE writes the sink from its end upward and never seeks back. -/
def Obligations.DecodeNeverSeeksTheSink : Prop :=
  ∀ s t : State, Inv s → s.status.busy = true → s.status.mode = true → engineMove s = .next t → ∃ bytes,
    t.journal = s.journal ++ cellsFrom s.snkSize.toNat bytes ∧
    t.snkSize.toNat = s.snkSize.toNat + bytes.length
end

