-- ==== Sys2Proof/Laws/Bits.lean ====
section
/-! SUPPORT. The laws of bits, bytes and byte order. -/

namespace Sys2Proof.Bit

@[simp] theorem bits8_length (v : Byte) : (bits8 v).length = 8 := rfl

@[simp] theorem zeros_length (n : Nat) : (zeros n).length = n := List.length_replicate

@[simp] theorem unpack_nil : unpack [] = [] := rfl

@[simp] theorem unpack_cons (b : Byte) (bs : List Byte) : unpack (b :: bs) = bits8 b ++ unpack bs := rfl

@[simp] theorem unpack_append (as bs : List Byte) : unpack (as ++ bs) = unpack as ++ unpack bs := by
  induction as with
  | nil => rfl
  | cons a as ih => simp [ih]

@[simp] theorem unpack_length (bs : List Byte) : (unpack bs).length = 8 * bs.length := by
  induction bs with
  | nil => rfl
  | cons b bs ih => simp [ih]; omega

theorem valFrom_append (acc : Nat) (s t : Bits) : valFrom acc (s ++ t) = valFrom (valFrom acc s) t := by
  induction s generalizing acc with
  | nil => rfl
  | cons b s ih => exact ih _

theorem valFrom_eq (acc : Nat) (s : Bits) : valFrom acc s = acc * 2 ^ s.length + val s := by
  induction s generalizing acc with
  | nil => simp [valFrom, val]
  | cons b s ih =>
    simp only [valFrom, val, List.length_cons]
    rw [ih, ih (2 * 0 + b.toNat)]
    simp only [Nat.pow_succ, Nat.mul_zero, Nat.zero_add, Nat.add_mul]
    rw [show 2 * acc * 2 ^ s.length = acc * (2 ^ s.length * 2) by rw [Nat.mul_comm 2 acc, Nat.mul_assoc, Nat.mul_comm 2]]
    omega

theorem val_cons (b : Bool) (s : Bits) : val (b :: s) = b.toNat * 2 ^ s.length + val s := by
  show valFrom (2 * 0 + b.toNat) s = _
  rw [valFrom_eq, Nat.mul_zero, Nat.zero_add]

theorem val_lt (s : Bits) : val s < 2 ^ s.length := by
  induction s with
  | nil => decide
  | cons b s ih =>
    rw [val_cons, List.length_cons, Nat.pow_succ]
    cases b <;> simp <;> omega

/-- A byte is the value of its eight bits (R9, R10). -/
theorem val_bits8 (v : Byte) : val (bits8 v) = v.toNat := by
  revert v; decide +kernel

@[simp] theorem byteOf_bits8 (v : Byte) : byteOf (bits8 v) = v := by
  simp [byteOf, val_bits8]

/-- Eight bits are the bits of the byte they make. -/
theorem bits8_byteOf (s : Bits) (h : s.length = 8) : bits8 (byteOf s) = s := by
  match s, h with
  | [a, b, c, d, e, f, g, i], _ =>
    cases a <;> cases b <;> cases c <;> cases d <;> cases e <;> cases f <;> cases g <;> cases i <;> decide

@[simp] theorem packGroups_length (q : Nat) (s : Bits) : (packGroups q s).length = q := by
  induction q generalizing s with
  | zero => rfl
  | succ q ih => simp [packGroups, ih]

theorem packGroups_succ_bits8 (q : Nat) (v : Byte) (s : Bits) :
    packGroups (q + 1) (bits8 v ++ s) = v :: packGroups q s := by
  have ht : (bits8 v ++ s).take 8 = bits8 v := by rw [List.take_append_of_le_length (by simp)]; simp [bits8]
  have hd : (bits8 v ++ s).drop 8 = s := by rw [List.drop_append_of_le_length (by simp)]; simp [bits8]
  simp [packGroups, ht, hd]

/-- Packing the bits of bytes gives the bytes (R123 (a)). -/
theorem packGroups_unpack (bs : List Byte) (s : Bits) : packGroups bs.length (unpack bs ++ s) = bs := by
  induction bs with
  | nil => rfl
  | cons b bs ih => rw [unpack_cons, List.append_assoc, List.length_cons, packGroups_succ_bits8, ih]

/-- The bits of packed groups are the bits that were packed (R123 (b)). -/
theorem unpack_packGroups (q : Nat) (s : Bits) (h : 8 * q ≤ s.length) : unpack (packGroups q s) = s.take (8 * q) := by
  induction q generalizing s with
  | zero => simp [packGroups]
  | succ q ih =>
    have h8 : (s.take 8).length = 8 := by simp; omega
    rw [packGroups, unpack_cons, bits8_byteOf _ h8, ih (s.drop 8) (by simp; omega)]
    rw [show 8 * (q + 1) = 8 + 8 * q by omega, List.take_add]

theorem packGroups_add (p q : Nat) (s : Bits) :
    packGroups (p + q) s = packGroups p s ++ packGroups q (s.drop (8 * p)) := by
  induction p generalizing s with
  | zero => simp [packGroups]
  | succ p ih =>
    rw [show p + 1 + q = (p + q) + 1 by omega, packGroups, ih, packGroups, List.drop_drop]
    simp [show 8 + 8 * p = 8 * (p + 1) by omega]

theorem packGroups_append (q : Nat) (s t : Bits) (h : 8 * q ≤ s.length) : packGroups q (s ++ t) = packGroups q s := by
  induction q generalizing s with
  | zero => rfl
  | succ q ih =>
    rw [packGroups, packGroups, List.take_append_of_le_length (by omega), List.drop_append_of_le_length (by omega),
      ih _ (by simp; omega)]

@[simp] theorem le32_length (v : BitVec 32) : (le32 v).length = 4 := rfl

/-- `unle32` inverts `le32` (R64). -/
@[simp] theorem unle32_le32 (v : BitVec 32) : unle32 (le32 v) = v := by
  apply BitVec.eq_of_toNat_eq
  simp only [unle32, le32, unle, BitVec.toNat_ofNat, BitVec.extractLsb'_toNat, Nat.shiftRight_eq_div_pow]
  have := v.isLt
  omega

/-- `le32` inverts `unle32` on four bytes. -/
theorem le32_unle32 (a b c d : Byte) : le32 (unle32 [a, b, c, d]) = [a, b, c, d] := by
  have := a.isLt; have := b.isLt; have := c.isLt; have := d.isLt
  simp only [unle32, le32, unle, List.cons.injEq, and_true]
  refine ⟨?_, ?_, ?_, ?_⟩ <;>
    (apply BitVec.eq_of_toNat_eq
     simp only [BitVec.extractLsb'_toNat, BitVec.toNat_ofNat, Nat.shiftRight_eq_div_pow]
     omega)

/-- The little-endian bytes of a number are its digits (R9). -/
theorem unle_leBytes (fuel n : Nat) (h : n ≤ fuel) : unle (leBytes fuel n) = n := by
  induction fuel generalizing n with
  | zero => simp [leBytes, unle]; omega
  | succ fuel ih =>
    rw [leBytes]
    split
    · simp [unle, *]
    · rw [unle, ih (n / 256) (by omega), BitVec.toNat_ofNat]
      omega

theorem ceil8_mul (q : Nat) : ceil8 (8 * q) = q := by unfold ceil8; omega

theorem ceil8_le (n : Nat) : n ≤ 8 * ceil8 n := by unfold ceil8; omega

theorem ceil8_lt (n : Nat) : 8 * ceil8 n < n + 8 := by unfold ceil8; omega

end Sys2Proof.Bit
end

