-- ==== Sys2Proof/Laws/Memory.lean ====
section
/-! SUPPORT. The laws of the address spaces, the decoding table and the register files: read after write, and the
canonical forms kept. -/

namespace Sys2Proof

@[simp] theorem RegFile.get_fill {α : Type} (n : Nat) (a : α) (i : Fin n) : (RegFile.fill n a).get i = a := by
  simp [RegFile.get, RegFile.fill]

@[simp] theorem RegFile.get_set_same {n : Nat} {α : Type} (r : RegFile n α) (i : Fin n) (a : α) :
    (r.set i a).get i = a := by
  simp [RegFile.get, RegFile.set]

theorem RegFile.get_set_ne {n : Nat} {α : Type} (r : RegFile n α) {i j : Fin n} (a : α) (h : i ≠ j) :
    (r.set i a).get j = r.get j := by
  have : i.val ≠ j.val := fun e => h (Fin.ext e)
  simp [RegFile.get, RegFile.set, this]

theorem RegFile.get_set {n : Nat} {α : Type} (r : RegFile n α) (i j : Fin n) (a : α) :
    (r.set i a).get j = if i = j then a else r.get j := by
  split
  · next h => subst h; simp
  · next h => exact get_set_ne r a h

theorem RegFile.ext_get {n : Nat} {α : Type} {r t : RegFile n α} (h : ∀ i, r.get i = t.get i) : r = t := by
  obtain ⟨r, hr⟩ := r
  obtain ⟨t, ht⟩ := t
  have : r = t := by
    apply List.ext_getElem (by omega)
    intro k h1 h2
    exact h ⟨k, by omega⟩
  subst this
  rfl

theorem RegFile.cells_getElem {n : Nat} {α : Type} (r : RegFile n α) (k : Nat) (h : k < r.cells.length) :
    r.cells[k] = r.get ⟨k, by rw [← r.size_eq]; exact h⟩ := rfl

theorem symIndex_inj {a b : Symbol} : symIndex a = symIndex b ↔ a = b := by
  constructor
  · intro h
    exact BitVec.eq_of_toNat_eq (by simpa [symIndex] using congrArg Fin.val h)
  · rintro rfl; rfl

namespace Machine

/-! ### Address spaces -/

@[simp] theorem Memory.read_nil (a : Nat) : Memory.read [] a = none := rfl

theorem Memory.read_write (m : Memory) (a c : Nat) (b : Byte) :
    (m.write a b).read c = if a = c then some b else m.read c := by
  induction m with
  | nil => simp [Memory.write, Memory.read]
  | cons e m ih =>
    obtain ⟨k, v⟩ := e
    simp only [Memory.write]
    split
    · simp [Memory.read]
    · split
      · next h => subst h; simp only [Memory.read]; split <;> simp_all
      · simp only [Memory.read, ih]
        split <;> split <;> simp_all

@[simp] theorem Memory.read_write_same (m : Memory) (a : Nat) (b : Byte) : (m.write a b).read a = some b := by
  simp [Memory.read_write]

theorem Memory.read_write_ne (m : Memory) {a c : Nat} (b : Byte) (h : a ≠ c) : (m.write a b).read c = m.read c := by
  simp [Memory.read_write, h]

theorem Memory.rising_mono (m : Memory) {low low' : Nat} (h : low' ≤ low) (hm : m.rising low = true) :
    m.rising low' = true := by
  cases m with
  | nil => rfl
  | cons e m => simp only [Memory.rising, Bool.and_eq_true, decide_eq_true_eq] at *; exact ⟨by omega, hm.2⟩

theorem Memory.rising_write (m : Memory) (low a : Nat) (b : Byte) (h : m.rising low = true) (ha : low ≤ a) :
    (m.write a b).rising low = true := by
  induction m generalizing low with
  | nil => simp [Memory.write, Memory.rising, ha]
  | cons e m ih =>
    obtain ⟨k, v⟩ := e
    simp only [Memory.rising, Bool.and_eq_true, decide_eq_true_eq] at h
    simp only [Memory.write]
    split
    · simp only [Memory.rising, Bool.and_eq_true, decide_eq_true_eq]
      exact ⟨ha, by omega, h.2⟩
    · split
      · next h1 => subst h1; simp [Memory.rising, h.1, h.2]
      · simp only [Memory.rising, Bool.and_eq_true, decide_eq_true_eq]
        exact ⟨h.1, ih (k + 1) h.2 (by omega)⟩

theorem Memory.all_write (m : Memory) (p : Host.Cell → Bool) (a : Nat) (b : Byte) (h : m.all p = true)
    (ha : p (a, b) = true) : (m.write a b).all p = true := by
  induction m with
  | nil => simp [Memory.write, ha]
  | cons e m ih =>
    obtain ⟨k, v⟩ := e
    simp only [List.all_cons, Bool.and_eq_true] at h
    simp only [Memory.write]
    split
    · simp [h.1, h.2, ha]
    · split
      · simp [h.2, ha]
      · simp [h.1, ih h.2]

theorem Memory.wf_nil : Memory.wf [] = true := rfl

/-- A write keeps the canonical form. -/
theorem Memory.wf_write (m : Memory) (a : Nat) (b : Byte) (h : m.wf = true) (ha : a < Config.spaceSize) :
    (m.write a b).wf = true := by
  simp only [Memory.wf, Bool.and_eq_true] at *
  exact ⟨rising_write m 0 a b h.1 (Nat.zero_le a), all_write m _ a b h.2 (by simpa using ha)⟩

/-- A run of writes keeps the canonical form. -/
theorem Memory.wf_writeRun (m : Memory) (a : Nat) (bs : List Byte) (h : m.wf = true)
    (ha : a + bs.length ≤ Config.spaceSize) : (m.writeRun a bs).wf = true := by
  induction bs generalizing m a with
  | nil => exact h
  | cons b bs ih =>
    simp only [List.length_cons] at ha
    exact ih (m.write a b) (a + 1) (wf_write m a b h (by omega)) (by omega)

/-- Replayed writes keep the canonical form. -/
theorem Memory.wf_replay (m : Memory) (ws : List Host.Cell) (h : m.wf = true)
    (hw : ∀ c ∈ ws, c.1 < Config.spaceSize) : (m.replay ws).wf = true := by
  induction ws generalizing m with
  | nil => exact h
  | cons c ws ih =>
    obtain ⟨a, b⟩ := c
    exact ih (m.write a b) (wf_write m a b h (hw _ List.mem_cons_self)) fun c hc => hw c (List.mem_cons_of_mem _ hc)

theorem Memory.read_writeRun_below (m : Memory) (a c : Nat) (bs : List Byte) (h : c < a) :
    (m.writeRun a bs).read c = m.read c := by
  induction bs generalizing m a with
  | nil => rfl
  | cons b bs ih => rw [Memory.writeRun, ih _ _ (by omega), read_write_ne m b (by omega)]

/-- What a run of writes leaves at each offset (R63). -/
theorem Memory.read_writeRun (m : Memory) (a c : Nat) (bs : List Byte) :
    (m.writeRun a bs).read c = if a ≤ c then (if c < a + bs.length then bs[c - a]? else m.read c) else m.read c := by
  induction bs generalizing m a with
  | nil =>
    simp only [Memory.writeRun, List.length_nil, Nat.add_zero]
    split
    · rw [if_neg (by omega)]
    · rfl
  | cons b bs ih =>
    rw [Memory.writeRun, ih, read_write, List.length_cons]
    by_cases h1 : a = c
    · subst h1
      rw [if_neg (by omega), if_pos rfl, if_pos (Nat.le_refl a), if_pos (by omega), Nat.sub_self, List.getElem?_cons_zero]
    · by_cases h2 : a ≤ c
      · have : c - a = (c - (a + 1)) + 1 := by omega
        rw [this, List.getElem?_cons_succ]
        simp only [h2, h1, if_true, if_false, show a + 1 ≤ c by omega, show a + (bs.length + 1) = a + 1 + bs.length by omega]
      · simp [h1, h2, show ¬ a + 1 ≤ c by omega]

theorem Memory.replay_cellsFrom (m : Memory) (a : Nat) (bs : List Byte) :
    m.replay (cellsFrom a bs) = m.writeRun a bs := by
  induction bs generalizing m a with
  | nil => rfl
  | cons b bs ih => exact ih _ _

theorem Memory.replay_append (m : Memory) (xs ys : List Host.Cell) :
    m.replay (xs ++ ys) = (m.replay xs).replay ys := by
  induction xs generalizing m with
  | nil => rfl
  | cons x xs ih => exact ih _

@[simp] theorem cellsFrom_length (a : Nat) (bs : List Byte) : (cellsFrom a bs).length = bs.length := by
  induction bs generalizing a with
  | nil => rfl
  | cons b bs ih => simp [cellsFrom, ih]

theorem mem_cellsFrom {a : Nat} {bs : List Byte} {c : Host.Cell} (h : c ∈ cellsFrom a bs) :
    a ≤ c.1 ∧ c.1 < a + bs.length := by
  induction bs generalizing a with
  | nil => simp [cellsFrom] at h
  | cons b bs ih =>
    rw [cellsFrom, List.mem_cons] at h
    rw [List.length_cons]
    rcases h with rfl | h
    · simp
    · have := ih h; omega

theorem Memory.read_cellsFrom (a c : Nat) (bs : List Byte) :
    Memory.read (cellsFrom a bs) c = if a ≤ c then bs[c - a]? else none := by
  induction bs generalizing a with
  | nil => simp [cellsFrom]
  | cons b bs ih =>
    rw [cellsFrom, Memory.read, ih]
    by_cases h1 : a = c
    · subst h1; simp
    · by_cases h2 : a ≤ c
      · have : c - a = (c - (a + 1)) + 1 := by omega
        rw [this, List.getElem?_cons_succ]
        simp [h1, h2, show a + 1 ≤ c by omega]
      · simp [h1, h2, show ¬ a + 1 ≤ c by omega]

theorem Memory.rising_cellsFrom (low a : Nat) (bs : List Byte) (h : low ≤ a) :
    Memory.rising low (cellsFrom a bs) = true := by
  induction bs generalizing low a with
  | nil => rfl
  | cons b bs ih => simp [cellsFrom, Memory.rising, h, ih]

/-- A run of bytes from an offset on is in canonical form where the space holds it. -/
theorem Memory.wf_cellsFrom (a : Nat) (bs : List Byte) (h : a + bs.length ≤ Config.spaceSize) :
    Memory.wf (cellsFrom a bs) = true := by
  simp only [Memory.wf, Bool.and_eq_true, List.all_eq_true, decide_eq_true_eq]
  exact ⟨rising_cellsFrom 0 a bs (Nat.zero_le a), fun c hc => by have := mem_cellsFrom hc; omega⟩

/-! ### The decoding table -/

@[simp] theorem DecTable.lookup_nil (c : Bits) : DecTable.lookup [] c = none := rfl

theorem keyBefore_irrefl (k : Bits) : keyBefore k k = false := by
  induction k with
  | nil => rfl
  | cons b k ih => simp [keyBefore, ih]

theorem keyBefore_trans {j k l : Bits} (h1 : keyBefore j k = true) (h2 : keyBefore k l = true) :
    keyBefore j l = true := by
  induction l generalizing j k with
  | nil => cases k <;> simp [keyBefore] at h2
  | cons c l ih =>
    cases k with
    | nil => cases j <;> simp [keyBefore] at h1
    | cons b k =>
      cases j with
      | nil => rfl
      | cons a j =>
        simp only [keyBefore] at *
        by_cases hab : a = b
        · subst hab
          by_cases hac : a = c
          · simp_all; exact ih h1 h2
          · simp_all
        · by_cases hbc : b = c
          · subst hbc; simp_all
          · revert h1 h2; cases a <;> cases b <;> cases c <;> simp_all

theorem keyBefore_total {k c : Bits} (h : k ≠ c) (h' : keyBefore c k = false) : keyBefore k c = true := by
  induction k generalizing c with
  | nil => cases c with
    | nil => exact absurd rfl h
    | cons => rfl
  | cons b k ih =>
    cases c with
    | nil => simp [keyBefore] at h'
    | cons a c =>
      simp only [keyBefore] at *
      by_cases hab : a = b
      · subst hab; simp_all
      · revert h'; cases a <;> cases b <;> simp_all

/-- Lookup after insertion (R159): the new symbol for the key, every other key as before. -/
theorem DecTable.lookup_insert (t : DecTable) (c k : Bits) (v : Symbol) :
    (t.insert c v).lookup k = if c = k then some v else t.lookup k := by
  induction t with
  | nil => simp [DecTable.insert, DecTable.lookup]
  | cons e t ih =>
    obtain ⟨j, w⟩ := e
    simp only [DecTable.insert]
    split
    · next h => subst h; simp only [DecTable.lookup]; split <;> simp_all
    · split
      · simp [DecTable.lookup]
      · simp only [DecTable.lookup, ih]
        split <;> split <;> simp_all

theorem DecTable.all_insert (t : DecTable) (p : Bits × Symbol → Bool) (c : Bits) (v : Symbol) (h : t.all p = true)
    (hc : p (c, v) = true) : (t.insert c v).all p = true := by
  induction t with
  | nil => simp [DecTable.insert, hc]
  | cons e t ih =>
    obtain ⟨k, w⟩ := e
    simp only [List.all_cons, Bool.and_eq_true] at h
    simp only [DecTable.insert]
    split
    · simp [h.2, hc]
    · split
      · simp [h.1, h.2, hc]
      · simp [h.1, ih h.2]

/-- Insertion keeps the canonical form of the decoding table. -/
theorem DecTable.wf_insert (t : DecTable) (c : Bits) (v : Symbol) (h : t.wf = true) : (t.insert c v).wf = true := by
  induction t with
  | nil => rfl
  | cons e t ih =>
    obtain ⟨k, w⟩ := e
    simp only [DecTable.wf, Bool.and_eq_true] at h
    simp only [DecTable.insert]
    split
    · next hk => subst hk; simp [DecTable.wf, h.1, h.2]
    · next hk =>
      split
      · next hb =>
        simp only [DecTable.wf, Bool.and_eq_true, List.all_cons, List.all_eq_true] at *
        exact ⟨⟨hb, fun e he => keyBefore_trans hb (h.1 e he)⟩, h⟩
      · next hb =>
        simp only [DecTable.wf, Bool.and_eq_true]
        exact ⟨all_insert t _ c v h.1 (keyBefore_total hk (by simpa using hb)), ih h.2⟩

end Machine

end Sys2Proof
end

