-- ==== Sys2Proof/Laws/State.lean ====
section
/-! SUPPORT. What each named update of the state leaves in each field: one lemma per field per update. -/

namespace Sys2Proof.Machine

@[simp] theorem setStatus_params (x : Status) (s : State) : (setStatus x s).params = s.params := rfl
@[simp] theorem setStatus_cmd (x : Status) (s : State) : (setStatus x s).cmd = s.cmd := rfl
@[simp] theorem setStatus_status (x : Status) (s : State) : (setStatus x s).status = x := rfl
@[simp] theorem setStatus_err (x : Status) (s : State) : (setStatus x s).err = s.err := rfl
@[simp] theorem setStatus_srcSize (x : Status) (s : State) : (setStatus x s).srcSize = s.srcSize := rfl
@[simp] theorem setStatus_snkSize (x : Status) (s : State) : (setStatus x s).snkSize = s.snkSize := rfl
@[simp] theorem setStatus_pad (x : Status) (s : State) : (setStatus x s).pad = s.pad := rfl
@[simp] theorem setStatus_tlen (x : Status) (s : State) : (setStatus x s).tlen = s.tlen := rfl
@[simp] theorem setStatus_hbits (x : Status) (s : State) : (setStatus x s).hbits = s.hbits := rfl
@[simp] theorem setStatus_payloadOff (x : Status) (s : State) : (setStatus x s).payloadOff = s.payloadOff := rfl
@[simp] theorem setStatus_srcPos (x : Status) (s : State) : (setStatus x s).srcPos = s.srcPos := rfl
@[simp] theorem setStatus_snkPos (x : Status) (s : State) : (setStatus x s).snkPos = s.snkPos := rfl
@[simp] theorem setStatus_nleaf (x : Status) (s : State) : (setStatus x s).nleaf = s.nleaf := rfl
@[simp] theorem setStatus_nnodes (x : Status) (s : State) : (setStatus x s).nnodes = s.nnodes := rfl
@[simp] theorem setStatus_root (x : Status) (s : State) : (setStatus x s).root = s.root := rfl
@[simp] theorem setStatus_bitbuf (x : Status) (s : State) : (setStatus x s).bitbuf = s.bitbuf := rfl
@[simp] theorem setStatus_cand (x : Status) (s : State) : (setStatus x s).cand = s.cand := rfl
@[simp] theorem setStatus_freq (x : Status) (s : State) : (setStatus x s).freq = s.freq := rfl
@[simp] theorem setStatus_node (x : Status) (s : State) : (setStatus x s).node = s.node := rfl
@[simp] theorem setStatus_pq (x : Status) (s : State) : (setStatus x s).pq = s.pq := rfl
@[simp] theorem setStatus_code (x : Status) (s : State) : (setStatus x s).code = s.code := rfl
@[simp] theorem setStatus_dec (x : Status) (s : State) : (setStatus x s).dec = s.dec := rfl
@[simp] theorem setStatus_src (x : Status) (s : State) : (setStatus x s).src = s.src := rfl
@[simp] theorem setStatus_snk (x : Status) (s : State) : (setStatus x s).snk = s.snk := rfl
@[simp] theorem setStatus_host (x : Status) (s : State) : (setStatus x s).host = s.host := rfl
@[simp] theorem setStatus_issue (x : Status) (s : State) : (setStatus x s).issue = s.issue := rfl
@[simp] theorem setStatus_drained (x : Status) (s : State) : (setStatus x s).drained = s.drained := rfl
@[simp] theorem setStatus_journal (x : Status) (s : State) : (setStatus x s).journal = s.journal := rfl

@[simp] theorem setPhase_params (p : BitVec 4) (s : State) : (setPhase p s).params = s.params := rfl
@[simp] theorem setPhase_cmd (p : BitVec 4) (s : State) : (setPhase p s).cmd = s.cmd := rfl
@[simp] theorem setPhase_status (p : BitVec 4) (s : State) : (setPhase p s).status = { s.status with phase := p } := rfl
@[simp] theorem setPhase_err (p : BitVec 4) (s : State) : (setPhase p s).err = s.err := rfl
@[simp] theorem setPhase_srcSize (p : BitVec 4) (s : State) : (setPhase p s).srcSize = s.srcSize := rfl
@[simp] theorem setPhase_snkSize (p : BitVec 4) (s : State) : (setPhase p s).snkSize = s.snkSize := rfl
@[simp] theorem setPhase_pad (p : BitVec 4) (s : State) : (setPhase p s).pad = s.pad := rfl
@[simp] theorem setPhase_tlen (p : BitVec 4) (s : State) : (setPhase p s).tlen = s.tlen := rfl
@[simp] theorem setPhase_hbits (p : BitVec 4) (s : State) : (setPhase p s).hbits = s.hbits := rfl
@[simp] theorem setPhase_payloadOff (p : BitVec 4) (s : State) : (setPhase p s).payloadOff = s.payloadOff := rfl
@[simp] theorem setPhase_srcPos (p : BitVec 4) (s : State) : (setPhase p s).srcPos = s.srcPos := rfl
@[simp] theorem setPhase_snkPos (p : BitVec 4) (s : State) : (setPhase p s).snkPos = s.snkPos := rfl
@[simp] theorem setPhase_nleaf (p : BitVec 4) (s : State) : (setPhase p s).nleaf = s.nleaf := rfl
@[simp] theorem setPhase_nnodes (p : BitVec 4) (s : State) : (setPhase p s).nnodes = s.nnodes := rfl
@[simp] theorem setPhase_root (p : BitVec 4) (s : State) : (setPhase p s).root = s.root := rfl
@[simp] theorem setPhase_bitbuf (p : BitVec 4) (s : State) : (setPhase p s).bitbuf = s.bitbuf := rfl
@[simp] theorem setPhase_cand (p : BitVec 4) (s : State) : (setPhase p s).cand = s.cand := rfl
@[simp] theorem setPhase_freq (p : BitVec 4) (s : State) : (setPhase p s).freq = s.freq := rfl
@[simp] theorem setPhase_node (p : BitVec 4) (s : State) : (setPhase p s).node = s.node := rfl
@[simp] theorem setPhase_pq (p : BitVec 4) (s : State) : (setPhase p s).pq = s.pq := rfl
@[simp] theorem setPhase_code (p : BitVec 4) (s : State) : (setPhase p s).code = s.code := rfl
@[simp] theorem setPhase_dec (p : BitVec 4) (s : State) : (setPhase p s).dec = s.dec := rfl
@[simp] theorem setPhase_src (p : BitVec 4) (s : State) : (setPhase p s).src = s.src := rfl
@[simp] theorem setPhase_snk (p : BitVec 4) (s : State) : (setPhase p s).snk = s.snk := rfl
@[simp] theorem setPhase_host (p : BitVec 4) (s : State) : (setPhase p s).host = s.host := rfl
@[simp] theorem setPhase_issue (p : BitVec 4) (s : State) : (setPhase p s).issue = s.issue := rfl
@[simp] theorem setPhase_drained (p : BitVec 4) (s : State) : (setPhase p s).drained = s.drained := rfl
@[simp] theorem setPhase_journal (p : BitVec 4) (s : State) : (setPhase p s).journal = s.journal := rfl

@[simp] theorem finish_params (p : BitVec 4) (s : State) : (finish p s).params = s.params := rfl
@[simp] theorem finish_cmd (p : BitVec 4) (s : State) : (finish p s).cmd = s.cmd := rfl
@[simp] theorem finish_status (p : BitVec 4) (s : State) : (finish p s).status = { s.status with phase := p, busy := false, done := true } := rfl
@[simp] theorem finish_err (p : BitVec 4) (s : State) : (finish p s).err = s.err := rfl
@[simp] theorem finish_srcSize (p : BitVec 4) (s : State) : (finish p s).srcSize = s.srcSize := rfl
@[simp] theorem finish_snkSize (p : BitVec 4) (s : State) : (finish p s).snkSize = s.snkSize := rfl
@[simp] theorem finish_pad (p : BitVec 4) (s : State) : (finish p s).pad = s.pad := rfl
@[simp] theorem finish_tlen (p : BitVec 4) (s : State) : (finish p s).tlen = s.tlen := rfl
@[simp] theorem finish_hbits (p : BitVec 4) (s : State) : (finish p s).hbits = s.hbits := rfl
@[simp] theorem finish_payloadOff (p : BitVec 4) (s : State) : (finish p s).payloadOff = s.payloadOff := rfl
@[simp] theorem finish_srcPos (p : BitVec 4) (s : State) : (finish p s).srcPos = s.srcPos := rfl
@[simp] theorem finish_snkPos (p : BitVec 4) (s : State) : (finish p s).snkPos = s.snkPos := rfl
@[simp] theorem finish_nleaf (p : BitVec 4) (s : State) : (finish p s).nleaf = s.nleaf := rfl
@[simp] theorem finish_nnodes (p : BitVec 4) (s : State) : (finish p s).nnodes = s.nnodes := rfl
@[simp] theorem finish_root (p : BitVec 4) (s : State) : (finish p s).root = s.root := rfl
@[simp] theorem finish_bitbuf (p : BitVec 4) (s : State) : (finish p s).bitbuf = s.bitbuf := rfl
@[simp] theorem finish_cand (p : BitVec 4) (s : State) : (finish p s).cand = s.cand := rfl
@[simp] theorem finish_freq (p : BitVec 4) (s : State) : (finish p s).freq = s.freq := rfl
@[simp] theorem finish_node (p : BitVec 4) (s : State) : (finish p s).node = s.node := rfl
@[simp] theorem finish_pq (p : BitVec 4) (s : State) : (finish p s).pq = s.pq := rfl
@[simp] theorem finish_code (p : BitVec 4) (s : State) : (finish p s).code = s.code := rfl
@[simp] theorem finish_dec (p : BitVec 4) (s : State) : (finish p s).dec = s.dec := rfl
@[simp] theorem finish_src (p : BitVec 4) (s : State) : (finish p s).src = s.src := rfl
@[simp] theorem finish_snk (p : BitVec 4) (s : State) : (finish p s).snk = s.snk := rfl
@[simp] theorem finish_host (p : BitVec 4) (s : State) : (finish p s).host = s.host := rfl
@[simp] theorem finish_issue (p : BitVec 4) (s : State) : (finish p s).issue = s.issue := rfl
@[simp] theorem finish_drained (p : BitVec 4) (s : State) : (finish p s).drained = s.drained := rfl
@[simp] theorem finish_journal (p : BitVec 4) (s : State) : (finish p s).journal = s.journal := rfl

@[simp] theorem raise_params (e : ErrorKind) (s : State) : (raise e s).params = s.params := rfl
@[simp] theorem raise_cmd (e : ErrorKind) (s : State) : (raise e s).cmd = s.cmd := rfl
@[simp] theorem raise_status (e : ErrorKind) (s : State) : (raise e s).status = s.status.failed := rfl
@[simp] theorem raise_err (e : ErrorKind) (s : State) : (raise e s).err = e.number := rfl
@[simp] theorem raise_srcSize (e : ErrorKind) (s : State) : (raise e s).srcSize = s.srcSize := rfl
@[simp] theorem raise_snkSize (e : ErrorKind) (s : State) : (raise e s).snkSize = s.snkSize := rfl
@[simp] theorem raise_pad (e : ErrorKind) (s : State) : (raise e s).pad = s.pad := rfl
@[simp] theorem raise_tlen (e : ErrorKind) (s : State) : (raise e s).tlen = s.tlen := rfl
@[simp] theorem raise_hbits (e : ErrorKind) (s : State) : (raise e s).hbits = s.hbits := rfl
@[simp] theorem raise_payloadOff (e : ErrorKind) (s : State) : (raise e s).payloadOff = s.payloadOff := rfl
@[simp] theorem raise_srcPos (e : ErrorKind) (s : State) : (raise e s).srcPos = s.srcPos := rfl
@[simp] theorem raise_snkPos (e : ErrorKind) (s : State) : (raise e s).snkPos = s.snkPos := rfl
@[simp] theorem raise_nleaf (e : ErrorKind) (s : State) : (raise e s).nleaf = s.nleaf := rfl
@[simp] theorem raise_nnodes (e : ErrorKind) (s : State) : (raise e s).nnodes = s.nnodes := rfl
@[simp] theorem raise_root (e : ErrorKind) (s : State) : (raise e s).root = s.root := rfl
@[simp] theorem raise_bitbuf (e : ErrorKind) (s : State) : (raise e s).bitbuf = s.bitbuf := rfl
@[simp] theorem raise_cand (e : ErrorKind) (s : State) : (raise e s).cand = s.cand := rfl
@[simp] theorem raise_freq (e : ErrorKind) (s : State) : (raise e s).freq = s.freq := rfl
@[simp] theorem raise_node (e : ErrorKind) (s : State) : (raise e s).node = s.node := rfl
@[simp] theorem raise_pq (e : ErrorKind) (s : State) : (raise e s).pq = s.pq := rfl
@[simp] theorem raise_code (e : ErrorKind) (s : State) : (raise e s).code = s.code := rfl
@[simp] theorem raise_dec (e : ErrorKind) (s : State) : (raise e s).dec = s.dec := rfl
@[simp] theorem raise_src (e : ErrorKind) (s : State) : (raise e s).src = s.src := rfl
@[simp] theorem raise_snk (e : ErrorKind) (s : State) : (raise e s).snk = s.snk := rfl
@[simp] theorem raise_host (e : ErrorKind) (s : State) : (raise e s).host = s.host := rfl
@[simp] theorem raise_issue (e : ErrorKind) (s : State) : (raise e s).issue = s.issue := rfl
@[simp] theorem raise_drained (e : ErrorKind) (s : State) : (raise e s).drained = s.drained := rfl
@[simp] theorem raise_journal (e : ErrorKind) (s : State) : (raise e s).journal = s.journal := rfl

@[simp] theorem startCommand_params (m : Bool) (s : State) : (startCommand m s).params = s.params := rfl
@[simp] theorem startCommand_cmd (m : Bool) (s : State) : (startCommand m s).cmd = none := rfl
@[simp] theorem startCommand_status (m : Bool) (s : State) : (startCommand m s).status = Status.started m := rfl
@[simp] theorem startCommand_err (m : Bool) (s : State) : (startCommand m s).err = 0 := rfl
@[simp] theorem startCommand_srcSize (m : Bool) (s : State) : (startCommand m s).srcSize = s.srcSize := rfl
@[simp] theorem startCommand_snkSize (m : Bool) (s : State) : (startCommand m s).snkSize = 0 := rfl
@[simp] theorem startCommand_pad (m : Bool) (s : State) : (startCommand m s).pad = 0 := rfl
@[simp] theorem startCommand_tlen (m : Bool) (s : State) : (startCommand m s).tlen = 0 := rfl
@[simp] theorem startCommand_hbits (m : Bool) (s : State) : (startCommand m s).hbits = 0 := rfl
@[simp] theorem startCommand_payloadOff (m : Bool) (s : State) : (startCommand m s).payloadOff = 0 := rfl
@[simp] theorem startCommand_srcPos (m : Bool) (s : State) : (startCommand m s).srcPos = 0 := rfl
@[simp] theorem startCommand_snkPos (m : Bool) (s : State) : (startCommand m s).snkPos = 0 := rfl
@[simp] theorem startCommand_nleaf (m : Bool) (s : State) : (startCommand m s).nleaf = 0 := rfl
@[simp] theorem startCommand_nnodes (m : Bool) (s : State) : (startCommand m s).nnodes = 0 := rfl
@[simp] theorem startCommand_root (m : Bool) (s : State) : (startCommand m s).root = none := rfl
@[simp] theorem startCommand_bitbuf (m : Bool) (s : State) : (startCommand m s).bitbuf = [] := rfl
@[simp] theorem startCommand_cand (m : Bool) (s : State) : (startCommand m s).cand = [] := rfl
@[simp] theorem startCommand_freq (m : Bool) (s : State) : (startCommand m s).freq = RegFile.fill 256 0 := rfl
@[simp] theorem startCommand_node (m : Bool) (s : State) : (startCommand m s).node = RegFile.fill 511 Node.blank := rfl
@[simp] theorem startCommand_pq (m : Bool) (s : State) : (startCommand m s).pq = [] := rfl
@[simp] theorem startCommand_code (m : Bool) (s : State) : (startCommand m s).code = RegFile.fill 256 none := rfl
@[simp] theorem startCommand_dec (m : Bool) (s : State) : (startCommand m s).dec = [] := rfl
@[simp] theorem startCommand_src (m : Bool) (s : State) : (startCommand m s).src = s.src := rfl
@[simp] theorem startCommand_snk (m : Bool) (s : State) : (startCommand m s).snk = s.snk := rfl
@[simp] theorem startCommand_host (m : Bool) (s : State) : (startCommand m s).host = s.host := rfl
@[simp] theorem startCommand_issue (m : Bool) (s : State) : (startCommand m s).issue = none := rfl
@[simp] theorem startCommand_drained (m : Bool) (s : State) : (startCommand m s).drained = [] := rfl
@[simp] theorem startCommand_journal (m : Bool) (s : State) : (startCommand m s).journal = [] := rfl

@[simp] theorem resetEngine_params (s : State) : (resetEngine s).params = s.params := rfl
@[simp] theorem resetEngine_cmd (s : State) : (resetEngine s).cmd = none := rfl
@[simp] theorem resetEngine_status (s : State) : (resetEngine s).status = Status.reset := rfl
@[simp] theorem resetEngine_err (s : State) : (resetEngine s).err = 0 := rfl
@[simp] theorem resetEngine_srcSize (s : State) : (resetEngine s).srcSize = s.srcSize := rfl
@[simp] theorem resetEngine_snkSize (s : State) : (resetEngine s).snkSize = 0 := rfl
@[simp] theorem resetEngine_pad (s : State) : (resetEngine s).pad = 0 := rfl
@[simp] theorem resetEngine_tlen (s : State) : (resetEngine s).tlen = 0 := rfl
@[simp] theorem resetEngine_hbits (s : State) : (resetEngine s).hbits = 0 := rfl
@[simp] theorem resetEngine_payloadOff (s : State) : (resetEngine s).payloadOff = 0 := rfl
@[simp] theorem resetEngine_srcPos (s : State) : (resetEngine s).srcPos = 0 := rfl
@[simp] theorem resetEngine_snkPos (s : State) : (resetEngine s).snkPos = 0 := rfl
@[simp] theorem resetEngine_nleaf (s : State) : (resetEngine s).nleaf = 0 := rfl
@[simp] theorem resetEngine_nnodes (s : State) : (resetEngine s).nnodes = 0 := rfl
@[simp] theorem resetEngine_root (s : State) : (resetEngine s).root = none := rfl
@[simp] theorem resetEngine_bitbuf (s : State) : (resetEngine s).bitbuf = [] := rfl
@[simp] theorem resetEngine_cand (s : State) : (resetEngine s).cand = [] := rfl
@[simp] theorem resetEngine_freq (s : State) : (resetEngine s).freq = RegFile.fill 256 0 := rfl
@[simp] theorem resetEngine_node (s : State) : (resetEngine s).node = RegFile.fill 511 Node.blank := rfl
@[simp] theorem resetEngine_pq (s : State) : (resetEngine s).pq = [] := rfl
@[simp] theorem resetEngine_code (s : State) : (resetEngine s).code = RegFile.fill 256 none := rfl
@[simp] theorem resetEngine_dec (s : State) : (resetEngine s).dec = [] := rfl
@[simp] theorem resetEngine_src (s : State) : (resetEngine s).src = s.src := rfl
@[simp] theorem resetEngine_snk (s : State) : (resetEngine s).snk = s.snk := rfl
@[simp] theorem resetEngine_host (s : State) : (resetEngine s).host = s.host := rfl
@[simp] theorem resetEngine_issue (s : State) : (resetEngine s).issue = none := rfl
@[simp] theorem resetEngine_drained (s : State) : (resetEngine s).drained = [] := rfl
@[simp] theorem resetEngine_journal (s : State) : (resetEngine s).journal = [] := rfl

@[simp] theorem putRun_params (a : Nat) (l : List Byte) (s : State) : (putRun a l s).params = s.params := rfl
@[simp] theorem putRun_cmd (a : Nat) (l : List Byte) (s : State) : (putRun a l s).cmd = s.cmd := rfl
@[simp] theorem putRun_status (a : Nat) (l : List Byte) (s : State) : (putRun a l s).status = s.status := rfl
@[simp] theorem putRun_err (a : Nat) (l : List Byte) (s : State) : (putRun a l s).err = s.err := rfl
@[simp] theorem putRun_srcSize (a : Nat) (l : List Byte) (s : State) : (putRun a l s).srcSize = s.srcSize := rfl
@[simp] theorem putRun_snkSize (a : Nat) (l : List Byte) (s : State) : (putRun a l s).snkSize = BitVec.ofNat 64 (max s.snkSize.toNat (a + l.length)) := rfl
@[simp] theorem putRun_pad (a : Nat) (l : List Byte) (s : State) : (putRun a l s).pad = s.pad := rfl
@[simp] theorem putRun_tlen (a : Nat) (l : List Byte) (s : State) : (putRun a l s).tlen = s.tlen := rfl
@[simp] theorem putRun_hbits (a : Nat) (l : List Byte) (s : State) : (putRun a l s).hbits = s.hbits := rfl
@[simp] theorem putRun_payloadOff (a : Nat) (l : List Byte) (s : State) : (putRun a l s).payloadOff = s.payloadOff := rfl
@[simp] theorem putRun_srcPos (a : Nat) (l : List Byte) (s : State) : (putRun a l s).srcPos = s.srcPos := rfl
@[simp] theorem putRun_snkPos (a : Nat) (l : List Byte) (s : State) : (putRun a l s).snkPos = s.snkPos := rfl
@[simp] theorem putRun_nleaf (a : Nat) (l : List Byte) (s : State) : (putRun a l s).nleaf = s.nleaf := rfl
@[simp] theorem putRun_nnodes (a : Nat) (l : List Byte) (s : State) : (putRun a l s).nnodes = s.nnodes := rfl
@[simp] theorem putRun_root (a : Nat) (l : List Byte) (s : State) : (putRun a l s).root = s.root := rfl
@[simp] theorem putRun_bitbuf (a : Nat) (l : List Byte) (s : State) : (putRun a l s).bitbuf = s.bitbuf := rfl
@[simp] theorem putRun_cand (a : Nat) (l : List Byte) (s : State) : (putRun a l s).cand = s.cand := rfl
@[simp] theorem putRun_freq (a : Nat) (l : List Byte) (s : State) : (putRun a l s).freq = s.freq := rfl
@[simp] theorem putRun_node (a : Nat) (l : List Byte) (s : State) : (putRun a l s).node = s.node := rfl
@[simp] theorem putRun_pq (a : Nat) (l : List Byte) (s : State) : (putRun a l s).pq = s.pq := rfl
@[simp] theorem putRun_code (a : Nat) (l : List Byte) (s : State) : (putRun a l s).code = s.code := rfl
@[simp] theorem putRun_dec (a : Nat) (l : List Byte) (s : State) : (putRun a l s).dec = s.dec := rfl
@[simp] theorem putRun_src (a : Nat) (l : List Byte) (s : State) : (putRun a l s).src = s.src := rfl
@[simp] theorem putRun_snk (a : Nat) (l : List Byte) (s : State) : (putRun a l s).snk = s.snk.writeRun a l := rfl
@[simp] theorem putRun_host (a : Nat) (l : List Byte) (s : State) : (putRun a l s).host = s.host := rfl
@[simp] theorem putRun_issue (a : Nat) (l : List Byte) (s : State) : (putRun a l s).issue = s.issue := rfl
@[simp] theorem putRun_drained (a : Nat) (l : List Byte) (s : State) : (putRun a l s).drained = s.drained := rfl
@[simp] theorem putRun_journal (a : Nat) (l : List Byte) (s : State) : (putRun a l s).journal = s.journal ++ cellsFrom a l := rfl

@[simp] theorem advanceSink_params (n : Nat) (s : State) : (advanceSink n s).params = s.params := rfl
@[simp] theorem advanceSink_cmd (n : Nat) (s : State) : (advanceSink n s).cmd = s.cmd := rfl
@[simp] theorem advanceSink_status (n : Nat) (s : State) : (advanceSink n s).status = s.status := rfl
@[simp] theorem advanceSink_err (n : Nat) (s : State) : (advanceSink n s).err = s.err := rfl
@[simp] theorem advanceSink_srcSize (n : Nat) (s : State) : (advanceSink n s).srcSize = s.srcSize := rfl
@[simp] theorem advanceSink_snkSize (n : Nat) (s : State) : (advanceSink n s).snkSize = s.snkSize := rfl
@[simp] theorem advanceSink_pad (n : Nat) (s : State) : (advanceSink n s).pad = s.pad := rfl
@[simp] theorem advanceSink_tlen (n : Nat) (s : State) : (advanceSink n s).tlen = s.tlen := rfl
@[simp] theorem advanceSink_hbits (n : Nat) (s : State) : (advanceSink n s).hbits = s.hbits := rfl
@[simp] theorem advanceSink_payloadOff (n : Nat) (s : State) : (advanceSink n s).payloadOff = s.payloadOff := rfl
@[simp] theorem advanceSink_srcPos (n : Nat) (s : State) : (advanceSink n s).srcPos = s.srcPos := rfl
@[simp] theorem advanceSink_snkPos (n : Nat) (s : State) : (advanceSink n s).snkPos = s.snkPos + BitVec.ofNat 64 n := rfl
@[simp] theorem advanceSink_nleaf (n : Nat) (s : State) : (advanceSink n s).nleaf = s.nleaf := rfl
@[simp] theorem advanceSink_nnodes (n : Nat) (s : State) : (advanceSink n s).nnodes = s.nnodes := rfl
@[simp] theorem advanceSink_root (n : Nat) (s : State) : (advanceSink n s).root = s.root := rfl
@[simp] theorem advanceSink_bitbuf (n : Nat) (s : State) : (advanceSink n s).bitbuf = s.bitbuf := rfl
@[simp] theorem advanceSink_cand (n : Nat) (s : State) : (advanceSink n s).cand = s.cand := rfl
@[simp] theorem advanceSink_freq (n : Nat) (s : State) : (advanceSink n s).freq = s.freq := rfl
@[simp] theorem advanceSink_node (n : Nat) (s : State) : (advanceSink n s).node = s.node := rfl
@[simp] theorem advanceSink_pq (n : Nat) (s : State) : (advanceSink n s).pq = s.pq := rfl
@[simp] theorem advanceSink_code (n : Nat) (s : State) : (advanceSink n s).code = s.code := rfl
@[simp] theorem advanceSink_dec (n : Nat) (s : State) : (advanceSink n s).dec = s.dec := rfl
@[simp] theorem advanceSink_src (n : Nat) (s : State) : (advanceSink n s).src = s.src := rfl
@[simp] theorem advanceSink_snk (n : Nat) (s : State) : (advanceSink n s).snk = s.snk := rfl
@[simp] theorem advanceSink_host (n : Nat) (s : State) : (advanceSink n s).host = s.host := rfl
@[simp] theorem advanceSink_issue (n : Nat) (s : State) : (advanceSink n s).issue = s.issue := rfl
@[simp] theorem advanceSink_drained (n : Nat) (s : State) : (advanceSink n s).drained = s.drained := rfl
@[simp] theorem advanceSink_journal (n : Nat) (s : State) : (advanceSink n s).journal = s.journal := rfl

@[simp] theorem advanceSource_params (n : Nat) (s : State) : (advanceSource n s).params = s.params := rfl
@[simp] theorem advanceSource_cmd (n : Nat) (s : State) : (advanceSource n s).cmd = s.cmd := rfl
@[simp] theorem advanceSource_status (n : Nat) (s : State) : (advanceSource n s).status = s.status := rfl
@[simp] theorem advanceSource_err (n : Nat) (s : State) : (advanceSource n s).err = s.err := rfl
@[simp] theorem advanceSource_srcSize (n : Nat) (s : State) : (advanceSource n s).srcSize = s.srcSize := rfl
@[simp] theorem advanceSource_snkSize (n : Nat) (s : State) : (advanceSource n s).snkSize = s.snkSize := rfl
@[simp] theorem advanceSource_pad (n : Nat) (s : State) : (advanceSource n s).pad = s.pad := rfl
@[simp] theorem advanceSource_tlen (n : Nat) (s : State) : (advanceSource n s).tlen = s.tlen := rfl
@[simp] theorem advanceSource_hbits (n : Nat) (s : State) : (advanceSource n s).hbits = s.hbits := rfl
@[simp] theorem advanceSource_payloadOff (n : Nat) (s : State) : (advanceSource n s).payloadOff = s.payloadOff := rfl
@[simp] theorem advanceSource_srcPos (n : Nat) (s : State) : (advanceSource n s).srcPos = s.srcPos + BitVec.ofNat 64 n := rfl
@[simp] theorem advanceSource_snkPos (n : Nat) (s : State) : (advanceSource n s).snkPos = s.snkPos := rfl
@[simp] theorem advanceSource_nleaf (n : Nat) (s : State) : (advanceSource n s).nleaf = s.nleaf := rfl
@[simp] theorem advanceSource_nnodes (n : Nat) (s : State) : (advanceSource n s).nnodes = s.nnodes := rfl
@[simp] theorem advanceSource_root (n : Nat) (s : State) : (advanceSource n s).root = s.root := rfl
@[simp] theorem advanceSource_bitbuf (n : Nat) (s : State) : (advanceSource n s).bitbuf = s.bitbuf := rfl
@[simp] theorem advanceSource_cand (n : Nat) (s : State) : (advanceSource n s).cand = s.cand := rfl
@[simp] theorem advanceSource_freq (n : Nat) (s : State) : (advanceSource n s).freq = s.freq := rfl
@[simp] theorem advanceSource_node (n : Nat) (s : State) : (advanceSource n s).node = s.node := rfl
@[simp] theorem advanceSource_pq (n : Nat) (s : State) : (advanceSource n s).pq = s.pq := rfl
@[simp] theorem advanceSource_code (n : Nat) (s : State) : (advanceSource n s).code = s.code := rfl
@[simp] theorem advanceSource_dec (n : Nat) (s : State) : (advanceSource n s).dec = s.dec := rfl
@[simp] theorem advanceSource_src (n : Nat) (s : State) : (advanceSource n s).src = s.src := rfl
@[simp] theorem advanceSource_snk (n : Nat) (s : State) : (advanceSource n s).snk = s.snk := rfl
@[simp] theorem advanceSource_host (n : Nat) (s : State) : (advanceSource n s).host = s.host := rfl
@[simp] theorem advanceSource_issue (n : Nat) (s : State) : (advanceSource n s).issue = s.issue := rfl
@[simp] theorem advanceSource_drained (n : Nat) (s : State) : (advanceSource n s).drained = s.drained := rfl
@[simp] theorem advanceSource_journal (n : Nat) (s : State) : (advanceSource n s).journal = s.journal := rfl

@[simp] theorem appendBits_params (b : Bits) (s : State) : (appendBits b s).params = s.params := rfl
@[simp] theorem appendBits_cmd (b : Bits) (s : State) : (appendBits b s).cmd = s.cmd := rfl
@[simp] theorem appendBits_status (b : Bits) (s : State) : (appendBits b s).status = s.status := rfl
@[simp] theorem appendBits_err (b : Bits) (s : State) : (appendBits b s).err = s.err := rfl
@[simp] theorem appendBits_srcSize (b : Bits) (s : State) : (appendBits b s).srcSize = s.srcSize := rfl
@[simp] theorem appendBits_snkSize (b : Bits) (s : State) : (appendBits b s).snkSize = s.snkSize := rfl
@[simp] theorem appendBits_pad (b : Bits) (s : State) : (appendBits b s).pad = s.pad := rfl
@[simp] theorem appendBits_tlen (b : Bits) (s : State) : (appendBits b s).tlen = s.tlen := rfl
@[simp] theorem appendBits_hbits (b : Bits) (s : State) : (appendBits b s).hbits = s.hbits := rfl
@[simp] theorem appendBits_payloadOff (b : Bits) (s : State) : (appendBits b s).payloadOff = s.payloadOff := rfl
@[simp] theorem appendBits_srcPos (b : Bits) (s : State) : (appendBits b s).srcPos = s.srcPos := rfl
@[simp] theorem appendBits_snkPos (b : Bits) (s : State) : (appendBits b s).snkPos = s.snkPos := rfl
@[simp] theorem appendBits_nleaf (b : Bits) (s : State) : (appendBits b s).nleaf = s.nleaf := rfl
@[simp] theorem appendBits_nnodes (b : Bits) (s : State) : (appendBits b s).nnodes = s.nnodes := rfl
@[simp] theorem appendBits_root (b : Bits) (s : State) : (appendBits b s).root = s.root := rfl
@[simp] theorem appendBits_bitbuf (b : Bits) (s : State) : (appendBits b s).bitbuf = s.bitbuf ++ b := rfl
@[simp] theorem appendBits_cand (b : Bits) (s : State) : (appendBits b s).cand = s.cand := rfl
@[simp] theorem appendBits_freq (b : Bits) (s : State) : (appendBits b s).freq = s.freq := rfl
@[simp] theorem appendBits_node (b : Bits) (s : State) : (appendBits b s).node = s.node := rfl
@[simp] theorem appendBits_pq (b : Bits) (s : State) : (appendBits b s).pq = s.pq := rfl
@[simp] theorem appendBits_code (b : Bits) (s : State) : (appendBits b s).code = s.code := rfl
@[simp] theorem appendBits_dec (b : Bits) (s : State) : (appendBits b s).dec = s.dec := rfl
@[simp] theorem appendBits_src (b : Bits) (s : State) : (appendBits b s).src = s.src := rfl
@[simp] theorem appendBits_snk (b : Bits) (s : State) : (appendBits b s).snk = s.snk := rfl
@[simp] theorem appendBits_host (b : Bits) (s : State) : (appendBits b s).host = s.host := rfl
@[simp] theorem appendBits_issue (b : Bits) (s : State) : (appendBits b s).issue = s.issue := rfl
@[simp] theorem appendBits_drained (b : Bits) (s : State) : (appendBits b s).drained = s.drained := rfl
@[simp] theorem appendBits_journal (b : Bits) (s : State) : (appendBits b s).journal = s.journal := rfl

@[simp] theorem drainBuffer_params (f : Bool) (s : State) : (drainBuffer f s).params = s.params := rfl
@[simp] theorem drainBuffer_cmd (f : Bool) (s : State) : (drainBuffer f s).cmd = s.cmd := rfl
@[simp] theorem drainBuffer_status (f : Bool) (s : State) : (drainBuffer f s).status = s.status := rfl
@[simp] theorem drainBuffer_err (f : Bool) (s : State) : (drainBuffer f s).err = s.err := rfl
@[simp] theorem drainBuffer_srcSize (f : Bool) (s : State) : (drainBuffer f s).srcSize = s.srcSize := rfl
@[simp] theorem drainBuffer_snkSize (f : Bool) (s : State) : (drainBuffer f s).snkSize = s.snkSize := rfl
@[simp] theorem drainBuffer_pad (f : Bool) (s : State) : (drainBuffer f s).pad = s.pad := rfl
@[simp] theorem drainBuffer_tlen (f : Bool) (s : State) : (drainBuffer f s).tlen = s.tlen := rfl
@[simp] theorem drainBuffer_hbits (f : Bool) (s : State) : (drainBuffer f s).hbits = s.hbits := rfl
@[simp] theorem drainBuffer_payloadOff (f : Bool) (s : State) : (drainBuffer f s).payloadOff = s.payloadOff := rfl
@[simp] theorem drainBuffer_srcPos (f : Bool) (s : State) : (drainBuffer f s).srcPos = s.srcPos := rfl
@[simp] theorem drainBuffer_snkPos (f : Bool) (s : State) : (drainBuffer f s).snkPos = s.snkPos := rfl
@[simp] theorem drainBuffer_nleaf (f : Bool) (s : State) : (drainBuffer f s).nleaf = s.nleaf := rfl
@[simp] theorem drainBuffer_nnodes (f : Bool) (s : State) : (drainBuffer f s).nnodes = s.nnodes := rfl
@[simp] theorem drainBuffer_root (f : Bool) (s : State) : (drainBuffer f s).root = s.root := rfl
@[simp] theorem drainBuffer_bitbuf (f : Bool) (s : State) : (drainBuffer f s).bitbuf = drainedRest f s.bitbuf := rfl
@[simp] theorem drainBuffer_cand (f : Bool) (s : State) : (drainBuffer f s).cand = s.cand := rfl
@[simp] theorem drainBuffer_freq (f : Bool) (s : State) : (drainBuffer f s).freq = s.freq := rfl
@[simp] theorem drainBuffer_node (f : Bool) (s : State) : (drainBuffer f s).node = s.node := rfl
@[simp] theorem drainBuffer_pq (f : Bool) (s : State) : (drainBuffer f s).pq = s.pq := rfl
@[simp] theorem drainBuffer_code (f : Bool) (s : State) : (drainBuffer f s).code = s.code := rfl
@[simp] theorem drainBuffer_dec (f : Bool) (s : State) : (drainBuffer f s).dec = s.dec := rfl
@[simp] theorem drainBuffer_src (f : Bool) (s : State) : (drainBuffer f s).src = s.src := rfl
@[simp] theorem drainBuffer_snk (f : Bool) (s : State) : (drainBuffer f s).snk = s.snk := rfl
@[simp] theorem drainBuffer_host (f : Bool) (s : State) : (drainBuffer f s).host = s.host := rfl
@[simp] theorem drainBuffer_issue (f : Bool) (s : State) : (drainBuffer f s).issue = s.issue := rfl
@[simp] theorem drainBuffer_drained (f : Bool) (s : State) : (drainBuffer f s).drained = s.drained := rfl
@[simp] theorem drainBuffer_journal (f : Bool) (s : State) : (drainBuffer f s).journal = s.journal := rfl

@[simp] theorem keepReturned_params (l : List Byte) (s : State) : (keepReturned l s).params = s.params := rfl
@[simp] theorem keepReturned_cmd (l : List Byte) (s : State) : (keepReturned l s).cmd = s.cmd := rfl
@[simp] theorem keepReturned_status (l : List Byte) (s : State) : (keepReturned l s).status = s.status := rfl
@[simp] theorem keepReturned_err (l : List Byte) (s : State) : (keepReturned l s).err = s.err := rfl
@[simp] theorem keepReturned_srcSize (l : List Byte) (s : State) : (keepReturned l s).srcSize = s.srcSize := rfl
@[simp] theorem keepReturned_snkSize (l : List Byte) (s : State) : (keepReturned l s).snkSize = s.snkSize := rfl
@[simp] theorem keepReturned_pad (l : List Byte) (s : State) : (keepReturned l s).pad = s.pad := rfl
@[simp] theorem keepReturned_tlen (l : List Byte) (s : State) : (keepReturned l s).tlen = s.tlen := rfl
@[simp] theorem keepReturned_hbits (l : List Byte) (s : State) : (keepReturned l s).hbits = s.hbits := rfl
@[simp] theorem keepReturned_payloadOff (l : List Byte) (s : State) : (keepReturned l s).payloadOff = s.payloadOff := rfl
@[simp] theorem keepReturned_srcPos (l : List Byte) (s : State) : (keepReturned l s).srcPos = s.srcPos := rfl
@[simp] theorem keepReturned_snkPos (l : List Byte) (s : State) : (keepReturned l s).snkPos = s.snkPos := rfl
@[simp] theorem keepReturned_nleaf (l : List Byte) (s : State) : (keepReturned l s).nleaf = s.nleaf := rfl
@[simp] theorem keepReturned_nnodes (l : List Byte) (s : State) : (keepReturned l s).nnodes = s.nnodes := rfl
@[simp] theorem keepReturned_root (l : List Byte) (s : State) : (keepReturned l s).root = s.root := rfl
@[simp] theorem keepReturned_bitbuf (l : List Byte) (s : State) : (keepReturned l s).bitbuf = s.bitbuf := rfl
@[simp] theorem keepReturned_cand (l : List Byte) (s : State) : (keepReturned l s).cand = s.cand := rfl
@[simp] theorem keepReturned_freq (l : List Byte) (s : State) : (keepReturned l s).freq = s.freq := rfl
@[simp] theorem keepReturned_node (l : List Byte) (s : State) : (keepReturned l s).node = s.node := rfl
@[simp] theorem keepReturned_pq (l : List Byte) (s : State) : (keepReturned l s).pq = s.pq := rfl
@[simp] theorem keepReturned_code (l : List Byte) (s : State) : (keepReturned l s).code = s.code := rfl
@[simp] theorem keepReturned_dec (l : List Byte) (s : State) : (keepReturned l s).dec = s.dec := rfl
@[simp] theorem keepReturned_src (l : List Byte) (s : State) : (keepReturned l s).src = s.src := rfl
@[simp] theorem keepReturned_snk (l : List Byte) (s : State) : (keepReturned l s).snk = s.snk := rfl
@[simp] theorem keepReturned_host (l : List Byte) (s : State) : (keepReturned l s).host = s.host := rfl
@[simp] theorem keepReturned_issue (l : List Byte) (s : State) : (keepReturned l s).issue = s.issue := rfl
@[simp] theorem keepReturned_drained (l : List Byte) (s : State) : (keepReturned l s).drained = l := rfl
@[simp] theorem keepReturned_journal (l : List Byte) (s : State) : (keepReturned l s).journal = s.journal := rfl

@[simp] theorem loadFixed_params (p : Byte) (t : BitVec 32) (s : State) : (loadFixed p t s).params = s.params := rfl
@[simp] theorem loadFixed_cmd (p : Byte) (t : BitVec 32) (s : State) : (loadFixed p t s).cmd = s.cmd := rfl
@[simp] theorem loadFixed_status (p : Byte) (t : BitVec 32) (s : State) : (loadFixed p t s).status = s.status := rfl
@[simp] theorem loadFixed_err (p : Byte) (t : BitVec 32) (s : State) : (loadFixed p t s).err = s.err := rfl
@[simp] theorem loadFixed_srcSize (p : Byte) (t : BitVec 32) (s : State) : (loadFixed p t s).srcSize = s.srcSize := rfl
@[simp] theorem loadFixed_snkSize (p : Byte) (t : BitVec 32) (s : State) : (loadFixed p t s).snkSize = s.snkSize := rfl
@[simp] theorem loadFixed_pad (p : Byte) (t : BitVec 32) (s : State) : (loadFixed p t s).pad = p := rfl
@[simp] theorem loadFixed_tlen (p : Byte) (t : BitVec 32) (s : State) : (loadFixed p t s).tlen = t := rfl
@[simp] theorem loadFixed_hbits (p : Byte) (t : BitVec 32) (s : State) : (loadFixed p t s).hbits = s.hbits := rfl
@[simp] theorem loadFixed_payloadOff (p : Byte) (t : BitVec 32) (s : State) : (loadFixed p t s).payloadOff = s.payloadOff := rfl
@[simp] theorem loadFixed_srcPos (p : Byte) (t : BitVec 32) (s : State) : (loadFixed p t s).srcPos = s.srcPos := rfl
@[simp] theorem loadFixed_snkPos (p : Byte) (t : BitVec 32) (s : State) : (loadFixed p t s).snkPos = s.snkPos := rfl
@[simp] theorem loadFixed_nleaf (p : Byte) (t : BitVec 32) (s : State) : (loadFixed p t s).nleaf = s.nleaf := rfl
@[simp] theorem loadFixed_nnodes (p : Byte) (t : BitVec 32) (s : State) : (loadFixed p t s).nnodes = s.nnodes := rfl
@[simp] theorem loadFixed_root (p : Byte) (t : BitVec 32) (s : State) : (loadFixed p t s).root = s.root := rfl
@[simp] theorem loadFixed_bitbuf (p : Byte) (t : BitVec 32) (s : State) : (loadFixed p t s).bitbuf = s.bitbuf := rfl
@[simp] theorem loadFixed_cand (p : Byte) (t : BitVec 32) (s : State) : (loadFixed p t s).cand = s.cand := rfl
@[simp] theorem loadFixed_freq (p : Byte) (t : BitVec 32) (s : State) : (loadFixed p t s).freq = s.freq := rfl
@[simp] theorem loadFixed_node (p : Byte) (t : BitVec 32) (s : State) : (loadFixed p t s).node = s.node := rfl
@[simp] theorem loadFixed_pq (p : Byte) (t : BitVec 32) (s : State) : (loadFixed p t s).pq = s.pq := rfl
@[simp] theorem loadFixed_code (p : Byte) (t : BitVec 32) (s : State) : (loadFixed p t s).code = s.code := rfl
@[simp] theorem loadFixed_dec (p : Byte) (t : BitVec 32) (s : State) : (loadFixed p t s).dec = s.dec := rfl
@[simp] theorem loadFixed_src (p : Byte) (t : BitVec 32) (s : State) : (loadFixed p t s).src = s.src := rfl
@[simp] theorem loadFixed_snk (p : Byte) (t : BitVec 32) (s : State) : (loadFixed p t s).snk = s.snk := rfl
@[simp] theorem loadFixed_host (p : Byte) (t : BitVec 32) (s : State) : (loadFixed p t s).host = s.host := rfl
@[simp] theorem loadFixed_issue (p : Byte) (t : BitVec 32) (s : State) : (loadFixed p t s).issue = s.issue := rfl
@[simp] theorem loadFixed_drained (p : Byte) (t : BitVec 32) (s : State) : (loadFixed p t s).drained = s.drained := rfl
@[simp] theorem loadFixed_journal (p : Byte) (t : BitVec 32) (s : State) : (loadFixed p t s).journal = s.journal := rfl

@[simp] theorem countBits_params (n : Nat) (s : State) : (countBits n s).params = s.params := rfl
@[simp] theorem countBits_cmd (n : Nat) (s : State) : (countBits n s).cmd = s.cmd := rfl
@[simp] theorem countBits_status (n : Nat) (s : State) : (countBits n s).status = s.status := rfl
@[simp] theorem countBits_err (n : Nat) (s : State) : (countBits n s).err = s.err := rfl
@[simp] theorem countBits_srcSize (n : Nat) (s : State) : (countBits n s).srcSize = s.srcSize := rfl
@[simp] theorem countBits_snkSize (n : Nat) (s : State) : (countBits n s).snkSize = s.snkSize := rfl
@[simp] theorem countBits_pad (n : Nat) (s : State) : (countBits n s).pad = s.pad := rfl
@[simp] theorem countBits_tlen (n : Nat) (s : State) : (countBits n s).tlen = s.tlen := rfl
@[simp] theorem countBits_hbits (n : Nat) (s : State) : (countBits n s).hbits = s.hbits + BitVec.ofNat 32 n := rfl
@[simp] theorem countBits_payloadOff (n : Nat) (s : State) : (countBits n s).payloadOff = s.payloadOff := rfl
@[simp] theorem countBits_srcPos (n : Nat) (s : State) : (countBits n s).srcPos = s.srcPos := rfl
@[simp] theorem countBits_snkPos (n : Nat) (s : State) : (countBits n s).snkPos = s.snkPos := rfl
@[simp] theorem countBits_nleaf (n : Nat) (s : State) : (countBits n s).nleaf = s.nleaf := rfl
@[simp] theorem countBits_nnodes (n : Nat) (s : State) : (countBits n s).nnodes = s.nnodes := rfl
@[simp] theorem countBits_root (n : Nat) (s : State) : (countBits n s).root = s.root := rfl
@[simp] theorem countBits_bitbuf (n : Nat) (s : State) : (countBits n s).bitbuf = s.bitbuf := rfl
@[simp] theorem countBits_cand (n : Nat) (s : State) : (countBits n s).cand = s.cand := rfl
@[simp] theorem countBits_freq (n : Nat) (s : State) : (countBits n s).freq = s.freq := rfl
@[simp] theorem countBits_node (n : Nat) (s : State) : (countBits n s).node = s.node := rfl
@[simp] theorem countBits_pq (n : Nat) (s : State) : (countBits n s).pq = s.pq := rfl
@[simp] theorem countBits_code (n : Nat) (s : State) : (countBits n s).code = s.code := rfl
@[simp] theorem countBits_dec (n : Nat) (s : State) : (countBits n s).dec = s.dec := rfl
@[simp] theorem countBits_src (n : Nat) (s : State) : (countBits n s).src = s.src := rfl
@[simp] theorem countBits_snk (n : Nat) (s : State) : (countBits n s).snk = s.snk := rfl
@[simp] theorem countBits_host (n : Nat) (s : State) : (countBits n s).host = s.host := rfl
@[simp] theorem countBits_issue (n : Nat) (s : State) : (countBits n s).issue = s.issue := rfl
@[simp] theorem countBits_drained (n : Nat) (s : State) : (countBits n s).drained = s.drained := rfl
@[simp] theorem countBits_journal (n : Nat) (s : State) : (countBits n s).journal = s.journal := rfl

@[simp] theorem clearBuffer_params (s : State) : (clearBuffer s).params = s.params := rfl
@[simp] theorem clearBuffer_cmd (s : State) : (clearBuffer s).cmd = s.cmd := rfl
@[simp] theorem clearBuffer_status (s : State) : (clearBuffer s).status = s.status := rfl
@[simp] theorem clearBuffer_err (s : State) : (clearBuffer s).err = s.err := rfl
@[simp] theorem clearBuffer_srcSize (s : State) : (clearBuffer s).srcSize = s.srcSize := rfl
@[simp] theorem clearBuffer_snkSize (s : State) : (clearBuffer s).snkSize = s.snkSize := rfl
@[simp] theorem clearBuffer_pad (s : State) : (clearBuffer s).pad = s.pad := rfl
@[simp] theorem clearBuffer_tlen (s : State) : (clearBuffer s).tlen = s.tlen := rfl
@[simp] theorem clearBuffer_hbits (s : State) : (clearBuffer s).hbits = s.hbits := rfl
@[simp] theorem clearBuffer_payloadOff (s : State) : (clearBuffer s).payloadOff = s.payloadOff := rfl
@[simp] theorem clearBuffer_srcPos (s : State) : (clearBuffer s).srcPos = s.srcPos := rfl
@[simp] theorem clearBuffer_snkPos (s : State) : (clearBuffer s).snkPos = s.snkPos := rfl
@[simp] theorem clearBuffer_nleaf (s : State) : (clearBuffer s).nleaf = s.nleaf := rfl
@[simp] theorem clearBuffer_nnodes (s : State) : (clearBuffer s).nnodes = s.nnodes := rfl
@[simp] theorem clearBuffer_root (s : State) : (clearBuffer s).root = s.root := rfl
@[simp] theorem clearBuffer_bitbuf (s : State) : (clearBuffer s).bitbuf = [] := rfl
@[simp] theorem clearBuffer_cand (s : State) : (clearBuffer s).cand = s.cand := rfl
@[simp] theorem clearBuffer_freq (s : State) : (clearBuffer s).freq = s.freq := rfl
@[simp] theorem clearBuffer_node (s : State) : (clearBuffer s).node = s.node := rfl
@[simp] theorem clearBuffer_pq (s : State) : (clearBuffer s).pq = s.pq := rfl
@[simp] theorem clearBuffer_code (s : State) : (clearBuffer s).code = s.code := rfl
@[simp] theorem clearBuffer_dec (s : State) : (clearBuffer s).dec = s.dec := rfl
@[simp] theorem clearBuffer_src (s : State) : (clearBuffer s).src = s.src := rfl
@[simp] theorem clearBuffer_snk (s : State) : (clearBuffer s).snk = s.snk := rfl
@[simp] theorem clearBuffer_host (s : State) : (clearBuffer s).host = s.host := rfl
@[simp] theorem clearBuffer_issue (s : State) : (clearBuffer s).issue = s.issue := rfl
@[simp] theorem clearBuffer_drained (s : State) : (clearBuffer s).drained = s.drained := rfl
@[simp] theorem clearBuffer_journal (s : State) : (clearBuffer s).journal = s.journal := rfl

@[simp] theorem startTable_params (s : State) : (startTable s).params = s.params := rfl
@[simp] theorem startTable_cmd (s : State) : (startTable s).cmd = s.cmd := rfl
@[simp] theorem startTable_status (s : State) : (startTable s).status = s.status := rfl
@[simp] theorem startTable_err (s : State) : (startTable s).err = s.err := rfl
@[simp] theorem startTable_srcSize (s : State) : (startTable s).srcSize = s.srcSize := rfl
@[simp] theorem startTable_snkSize (s : State) : (startTable s).snkSize = s.snkSize := rfl
@[simp] theorem startTable_pad (s : State) : (startTable s).pad = s.pad := rfl
@[simp] theorem startTable_tlen (s : State) : (startTable s).tlen = s.tlen := rfl
@[simp] theorem startTable_hbits (s : State) : (startTable s).hbits = 0 := rfl
@[simp] theorem startTable_payloadOff (s : State) : (startTable s).payloadOff = s.payloadOff := rfl
@[simp] theorem startTable_srcPos (s : State) : (startTable s).srcPos = s.srcPos := rfl
@[simp] theorem startTable_snkPos (s : State) : (startTable s).snkPos = s.snkPos := rfl
@[simp] theorem startTable_nleaf (s : State) : (startTable s).nleaf = s.nleaf := rfl
@[simp] theorem startTable_nnodes (s : State) : (startTable s).nnodes = s.nnodes := rfl
@[simp] theorem startTable_root (s : State) : (startTable s).root = s.root := rfl
@[simp] theorem startTable_bitbuf (s : State) : (startTable s).bitbuf = s.bitbuf := rfl
@[simp] theorem startTable_cand (s : State) : (startTable s).cand = s.cand := rfl
@[simp] theorem startTable_freq (s : State) : (startTable s).freq = s.freq := rfl
@[simp] theorem startTable_node (s : State) : (startTable s).node = s.node := rfl
@[simp] theorem startTable_pq (s : State) : (startTable s).pq = s.pq := rfl
@[simp] theorem startTable_code (s : State) : (startTable s).code = s.code := rfl
@[simp] theorem startTable_dec (s : State) : (startTable s).dec = [] := rfl
@[simp] theorem startTable_src (s : State) : (startTable s).src = s.src := rfl
@[simp] theorem startTable_snk (s : State) : (startTable s).snk = s.snk := rfl
@[simp] theorem startTable_host (s : State) : (startTable s).host = s.host := rfl
@[simp] theorem startTable_issue (s : State) : (startTable s).issue = s.issue := rfl
@[simp] theorem startTable_drained (s : State) : (startTable s).drained = s.drained := rfl
@[simp] theorem startTable_journal (s : State) : (startTable s).journal = s.journal := rfl

@[simp] theorem endTable_params (h : Nat) (s : State) : (endTable h s).params = s.params := rfl
@[simp] theorem endTable_cmd (h : Nat) (s : State) : (endTable h s).cmd = s.cmd := rfl
@[simp] theorem endTable_status (h : Nat) (s : State) : (endTable h s).status = s.status := rfl
@[simp] theorem endTable_err (h : Nat) (s : State) : (endTable h s).err = s.err := rfl
@[simp] theorem endTable_srcSize (h : Nat) (s : State) : (endTable h s).srcSize = s.srcSize := rfl
@[simp] theorem endTable_snkSize (h : Nat) (s : State) : (endTable h s).snkSize = s.snkSize := rfl
@[simp] theorem endTable_pad (h : Nat) (s : State) : (endTable h s).pad = s.pad := rfl
@[simp] theorem endTable_tlen (h : Nat) (s : State) : (endTable h s).tlen = s.tlen := rfl
@[simp] theorem endTable_hbits (h : Nat) (s : State) : (endTable h s).hbits = s.hbits := rfl
@[simp] theorem endTable_payloadOff (h : Nat) (s : State) : (endTable h s).payloadOff = BitVec.ofNat 64 (Config.hdrFixed + h) := rfl
@[simp] theorem endTable_srcPos (h : Nat) (s : State) : (endTable h s).srcPos = BitVec.ofNat 64 (Config.hdrFixed + h) := rfl
@[simp] theorem endTable_snkPos (h : Nat) (s : State) : (endTable h s).snkPos = s.snkPos := rfl
@[simp] theorem endTable_nleaf (h : Nat) (s : State) : (endTable h s).nleaf = s.nleaf := rfl
@[simp] theorem endTable_nnodes (h : Nat) (s : State) : (endTable h s).nnodes = s.nnodes := rfl
@[simp] theorem endTable_root (h : Nat) (s : State) : (endTable h s).root = s.root := rfl
@[simp] theorem endTable_bitbuf (h : Nat) (s : State) : (endTable h s).bitbuf = s.bitbuf := rfl
@[simp] theorem endTable_cand (h : Nat) (s : State) : (endTable h s).cand = s.cand := rfl
@[simp] theorem endTable_freq (h : Nat) (s : State) : (endTable h s).freq = s.freq := rfl
@[simp] theorem endTable_node (h : Nat) (s : State) : (endTable h s).node = s.node := rfl
@[simp] theorem endTable_pq (h : Nat) (s : State) : (endTable h s).pq = s.pq := rfl
@[simp] theorem endTable_code (h : Nat) (s : State) : (endTable h s).code = s.code := rfl
@[simp] theorem endTable_dec (h : Nat) (s : State) : (endTable h s).dec = s.dec := rfl
@[simp] theorem endTable_src (h : Nat) (s : State) : (endTable h s).src = s.src := rfl
@[simp] theorem endTable_snk (h : Nat) (s : State) : (endTable h s).snk = s.snk := rfl
@[simp] theorem endTable_host (h : Nat) (s : State) : (endTable h s).host = s.host := rfl
@[simp] theorem endTable_issue (h : Nat) (s : State) : (endTable h s).issue = s.issue := rfl
@[simp] theorem endTable_drained (h : Nat) (s : State) : (endTable h s).drained = s.drained := rfl
@[simp] theorem endTable_journal (h : Nat) (s : State) : (endTable h s).journal = s.journal := rfl

@[simp] theorem countByte_params (b : Symbol) (s : State) : (countByte b s).params = s.params := rfl
@[simp] theorem countByte_cmd (b : Symbol) (s : State) : (countByte b s).cmd = s.cmd := rfl
@[simp] theorem countByte_status (b : Symbol) (s : State) : (countByte b s).status = s.status := rfl
@[simp] theorem countByte_err (b : Symbol) (s : State) : (countByte b s).err = s.err := rfl
@[simp] theorem countByte_srcSize (b : Symbol) (s : State) : (countByte b s).srcSize = s.srcSize := rfl
@[simp] theorem countByte_snkSize (b : Symbol) (s : State) : (countByte b s).snkSize = s.snkSize := rfl
@[simp] theorem countByte_pad (b : Symbol) (s : State) : (countByte b s).pad = s.pad := rfl
@[simp] theorem countByte_tlen (b : Symbol) (s : State) : (countByte b s).tlen = s.tlen := rfl
@[simp] theorem countByte_hbits (b : Symbol) (s : State) : (countByte b s).hbits = s.hbits := rfl
@[simp] theorem countByte_payloadOff (b : Symbol) (s : State) : (countByte b s).payloadOff = s.payloadOff := rfl
@[simp] theorem countByte_srcPos (b : Symbol) (s : State) : (countByte b s).srcPos = s.srcPos + 1 := rfl
@[simp] theorem countByte_snkPos (b : Symbol) (s : State) : (countByte b s).snkPos = s.snkPos := rfl
@[simp] theorem countByte_nleaf (b : Symbol) (s : State) : (countByte b s).nleaf = s.nleaf := rfl
@[simp] theorem countByte_nnodes (b : Symbol) (s : State) : (countByte b s).nnodes = s.nnodes := rfl
@[simp] theorem countByte_root (b : Symbol) (s : State) : (countByte b s).root = s.root := rfl
@[simp] theorem countByte_bitbuf (b : Symbol) (s : State) : (countByte b s).bitbuf = s.bitbuf := rfl
@[simp] theorem countByte_cand (b : Symbol) (s : State) : (countByte b s).cand = s.cand := rfl
@[simp] theorem countByte_freq (b : Symbol) (s : State) : (countByte b s).freq = s.freq.set (symIndex b) (freqOf s b + 1) := rfl
@[simp] theorem countByte_node (b : Symbol) (s : State) : (countByte b s).node = s.node := rfl
@[simp] theorem countByte_pq (b : Symbol) (s : State) : (countByte b s).pq = s.pq := rfl
@[simp] theorem countByte_code (b : Symbol) (s : State) : (countByte b s).code = s.code := rfl
@[simp] theorem countByte_dec (b : Symbol) (s : State) : (countByte b s).dec = s.dec := rfl
@[simp] theorem countByte_src (b : Symbol) (s : State) : (countByte b s).src = s.src := rfl
@[simp] theorem countByte_snk (b : Symbol) (s : State) : (countByte b s).snk = s.snk := rfl
@[simp] theorem countByte_host (b : Symbol) (s : State) : (countByte b s).host = s.host := rfl
@[simp] theorem countByte_issue (b : Symbol) (s : State) : (countByte b s).issue = s.issue := rfl
@[simp] theorem countByte_drained (b : Symbol) (s : State) : (countByte b s).drained = s.drained := rfl
@[simp] theorem countByte_journal (b : Symbol) (s : State) : (countByte b s).journal = s.journal := rfl

@[simp] theorem clearCodes_params (s : State) : (clearCodes s).params = s.params := rfl
@[simp] theorem clearCodes_cmd (s : State) : (clearCodes s).cmd = s.cmd := rfl
@[simp] theorem clearCodes_status (s : State) : (clearCodes s).status = s.status := rfl
@[simp] theorem clearCodes_err (s : State) : (clearCodes s).err = s.err := rfl
@[simp] theorem clearCodes_srcSize (s : State) : (clearCodes s).srcSize = s.srcSize := rfl
@[simp] theorem clearCodes_snkSize (s : State) : (clearCodes s).snkSize = s.snkSize := rfl
@[simp] theorem clearCodes_pad (s : State) : (clearCodes s).pad = s.pad := rfl
@[simp] theorem clearCodes_tlen (s : State) : (clearCodes s).tlen = s.tlen := rfl
@[simp] theorem clearCodes_hbits (s : State) : (clearCodes s).hbits = s.hbits := rfl
@[simp] theorem clearCodes_payloadOff (s : State) : (clearCodes s).payloadOff = s.payloadOff := rfl
@[simp] theorem clearCodes_srcPos (s : State) : (clearCodes s).srcPos = s.srcPos := rfl
@[simp] theorem clearCodes_snkPos (s : State) : (clearCodes s).snkPos = s.snkPos := rfl
@[simp] theorem clearCodes_nleaf (s : State) : (clearCodes s).nleaf = s.nleaf := rfl
@[simp] theorem clearCodes_nnodes (s : State) : (clearCodes s).nnodes = s.nnodes := rfl
@[simp] theorem clearCodes_root (s : State) : (clearCodes s).root = s.root := rfl
@[simp] theorem clearCodes_bitbuf (s : State) : (clearCodes s).bitbuf = s.bitbuf := rfl
@[simp] theorem clearCodes_cand (s : State) : (clearCodes s).cand = s.cand := rfl
@[simp] theorem clearCodes_freq (s : State) : (clearCodes s).freq = s.freq := rfl
@[simp] theorem clearCodes_node (s : State) : (clearCodes s).node = s.node := rfl
@[simp] theorem clearCodes_pq (s : State) : (clearCodes s).pq = s.pq := rfl
@[simp] theorem clearCodes_code (s : State) : (clearCodes s).code = RegFile.fill 256 none := rfl
@[simp] theorem clearCodes_dec (s : State) : (clearCodes s).dec = s.dec := rfl
@[simp] theorem clearCodes_src (s : State) : (clearCodes s).src = s.src := rfl
@[simp] theorem clearCodes_snk (s : State) : (clearCodes s).snk = s.snk := rfl
@[simp] theorem clearCodes_host (s : State) : (clearCodes s).host = s.host := rfl
@[simp] theorem clearCodes_issue (s : State) : (clearCodes s).issue = s.issue := rfl
@[simp] theorem clearCodes_drained (s : State) : (clearCodes s).drained = s.drained := rfl
@[simp] theorem clearCodes_journal (s : State) : (clearCodes s).journal = s.journal := rfl

@[simp] theorem setCandidate_params (c : Bits) (s : State) : (setCandidate c s).params = s.params := rfl
@[simp] theorem setCandidate_cmd (c : Bits) (s : State) : (setCandidate c s).cmd = s.cmd := rfl
@[simp] theorem setCandidate_status (c : Bits) (s : State) : (setCandidate c s).status = s.status := rfl
@[simp] theorem setCandidate_err (c : Bits) (s : State) : (setCandidate c s).err = s.err := rfl
@[simp] theorem setCandidate_srcSize (c : Bits) (s : State) : (setCandidate c s).srcSize = s.srcSize := rfl
@[simp] theorem setCandidate_snkSize (c : Bits) (s : State) : (setCandidate c s).snkSize = s.snkSize := rfl
@[simp] theorem setCandidate_pad (c : Bits) (s : State) : (setCandidate c s).pad = s.pad := rfl
@[simp] theorem setCandidate_tlen (c : Bits) (s : State) : (setCandidate c s).tlen = s.tlen := rfl
@[simp] theorem setCandidate_hbits (c : Bits) (s : State) : (setCandidate c s).hbits = s.hbits := rfl
@[simp] theorem setCandidate_payloadOff (c : Bits) (s : State) : (setCandidate c s).payloadOff = s.payloadOff := rfl
@[simp] theorem setCandidate_srcPos (c : Bits) (s : State) : (setCandidate c s).srcPos = s.srcPos := rfl
@[simp] theorem setCandidate_snkPos (c : Bits) (s : State) : (setCandidate c s).snkPos = s.snkPos := rfl
@[simp] theorem setCandidate_nleaf (c : Bits) (s : State) : (setCandidate c s).nleaf = s.nleaf := rfl
@[simp] theorem setCandidate_nnodes (c : Bits) (s : State) : (setCandidate c s).nnodes = s.nnodes := rfl
@[simp] theorem setCandidate_root (c : Bits) (s : State) : (setCandidate c s).root = s.root := rfl
@[simp] theorem setCandidate_bitbuf (c : Bits) (s : State) : (setCandidate c s).bitbuf = s.bitbuf := rfl
@[simp] theorem setCandidate_cand (c : Bits) (s : State) : (setCandidate c s).cand = c := rfl
@[simp] theorem setCandidate_freq (c : Bits) (s : State) : (setCandidate c s).freq = s.freq := rfl
@[simp] theorem setCandidate_node (c : Bits) (s : State) : (setCandidate c s).node = s.node := rfl
@[simp] theorem setCandidate_pq (c : Bits) (s : State) : (setCandidate c s).pq = s.pq := rfl
@[simp] theorem setCandidate_code (c : Bits) (s : State) : (setCandidate c s).code = s.code := rfl
@[simp] theorem setCandidate_dec (c : Bits) (s : State) : (setCandidate c s).dec = s.dec := rfl
@[simp] theorem setCandidate_src (c : Bits) (s : State) : (setCandidate c s).src = s.src := rfl
@[simp] theorem setCandidate_snk (c : Bits) (s : State) : (setCandidate c s).snk = s.snk := rfl
@[simp] theorem setCandidate_host (c : Bits) (s : State) : (setCandidate c s).host = s.host := rfl
@[simp] theorem setCandidate_issue (c : Bits) (s : State) : (setCandidate c s).issue = s.issue := rfl
@[simp] theorem setCandidate_drained (c : Bits) (s : State) : (setCandidate c s).drained = s.drained := rfl
@[simp] theorem setCandidate_journal (c : Bits) (s : State) : (setCandidate c s).journal = s.journal := rfl

@[simp] theorem dropPadding_params (s : State) : (dropPadding s).params = s.params := rfl
@[simp] theorem dropPadding_cmd (s : State) : (dropPadding s).cmd = s.cmd := rfl
@[simp] theorem dropPadding_status (s : State) : (dropPadding s).status = s.status := rfl
@[simp] theorem dropPadding_err (s : State) : (dropPadding s).err = s.err := rfl
@[simp] theorem dropPadding_srcSize (s : State) : (dropPadding s).srcSize = s.srcSize := rfl
@[simp] theorem dropPadding_snkSize (s : State) : (dropPadding s).snkSize = s.snkSize := rfl
@[simp] theorem dropPadding_pad (s : State) : (dropPadding s).pad = s.pad := rfl
@[simp] theorem dropPadding_tlen (s : State) : (dropPadding s).tlen = s.tlen := rfl
@[simp] theorem dropPadding_hbits (s : State) : (dropPadding s).hbits = s.hbits := rfl
@[simp] theorem dropPadding_payloadOff (s : State) : (dropPadding s).payloadOff = s.payloadOff := rfl
@[simp] theorem dropPadding_srcPos (s : State) : (dropPadding s).srcPos = s.srcPos := rfl
@[simp] theorem dropPadding_snkPos (s : State) : (dropPadding s).snkPos = s.snkPos := rfl
@[simp] theorem dropPadding_nleaf (s : State) : (dropPadding s).nleaf = s.nleaf := rfl
@[simp] theorem dropPadding_nnodes (s : State) : (dropPadding s).nnodes = s.nnodes := rfl
@[simp] theorem dropPadding_root (s : State) : (dropPadding s).root = s.root := rfl
@[simp] theorem dropPadding_bitbuf (s : State) : (dropPadding s).bitbuf = s.bitbuf.take (s.bitbuf.length - min s.pad.toNat s.bitbuf.length) := rfl
@[simp] theorem dropPadding_cand (s : State) : (dropPadding s).cand = s.cand := rfl
@[simp] theorem dropPadding_freq (s : State) : (dropPadding s).freq = s.freq := rfl
@[simp] theorem dropPadding_node (s : State) : (dropPadding s).node = s.node := rfl
@[simp] theorem dropPadding_pq (s : State) : (dropPadding s).pq = s.pq := rfl
@[simp] theorem dropPadding_code (s : State) : (dropPadding s).code = s.code := rfl
@[simp] theorem dropPadding_dec (s : State) : (dropPadding s).dec = s.dec := rfl
@[simp] theorem dropPadding_src (s : State) : (dropPadding s).src = s.src := rfl
@[simp] theorem dropPadding_snk (s : State) : (dropPadding s).snk = s.snk := rfl
@[simp] theorem dropPadding_host (s : State) : (dropPadding s).host = s.host := rfl
@[simp] theorem dropPadding_issue (s : State) : (dropPadding s).issue = s.issue := rfl
@[simp] theorem dropPadding_drained (s : State) : (dropPadding s).drained = s.drained := rfl
@[simp] theorem dropPadding_journal (s : State) : (dropPadding s).journal = s.journal := rfl

@[simp] theorem discardTree_params (s : State) : (discardTree s).params = s.params := rfl
@[simp] theorem discardTree_cmd (s : State) : (discardTree s).cmd = s.cmd := rfl
@[simp] theorem discardTree_status (s : State) : (discardTree s).status = s.status := rfl
@[simp] theorem discardTree_err (s : State) : (discardTree s).err = s.err := rfl
@[simp] theorem discardTree_srcSize (s : State) : (discardTree s).srcSize = s.srcSize := rfl
@[simp] theorem discardTree_snkSize (s : State) : (discardTree s).snkSize = s.snkSize := rfl
@[simp] theorem discardTree_pad (s : State) : (discardTree s).pad = s.pad := rfl
@[simp] theorem discardTree_tlen (s : State) : (discardTree s).tlen = s.tlen := rfl
@[simp] theorem discardTree_hbits (s : State) : (discardTree s).hbits = s.hbits := rfl
@[simp] theorem discardTree_payloadOff (s : State) : (discardTree s).payloadOff = s.payloadOff := rfl
@[simp] theorem discardTree_srcPos (s : State) : (discardTree s).srcPos = s.srcPos := rfl
@[simp] theorem discardTree_snkPos (s : State) : (discardTree s).snkPos = s.snkPos := rfl
@[simp] theorem discardTree_nleaf (s : State) : (discardTree s).nleaf = 0 := rfl
@[simp] theorem discardTree_nnodes (s : State) : (discardTree s).nnodes = 0 := rfl
@[simp] theorem discardTree_root (s : State) : (discardTree s).root = none := rfl
@[simp] theorem discardTree_bitbuf (s : State) : (discardTree s).bitbuf = s.bitbuf := rfl
@[simp] theorem discardTree_cand (s : State) : (discardTree s).cand = s.cand := rfl
@[simp] theorem discardTree_freq (s : State) : (discardTree s).freq = RegFile.fill 256 0 := rfl
@[simp] theorem discardTree_node (s : State) : (discardTree s).node = RegFile.fill 511 Node.blank := rfl
@[simp] theorem discardTree_pq (s : State) : (discardTree s).pq = [] := rfl
@[simp] theorem discardTree_code (s : State) : (discardTree s).code = s.code := rfl
@[simp] theorem discardTree_dec (s : State) : (discardTree s).dec = s.dec := rfl
@[simp] theorem discardTree_src (s : State) : (discardTree s).src = s.src := rfl
@[simp] theorem discardTree_snk (s : State) : (discardTree s).snk = s.snk := rfl
@[simp] theorem discardTree_host (s : State) : (discardTree s).host = s.host := rfl
@[simp] theorem discardTree_issue (s : State) : (discardTree s).issue = s.issue := rfl
@[simp] theorem discardTree_drained (s : State) : (discardTree s).drained = s.drained := rfl
@[simp] theorem discardTree_journal (s : State) : (discardTree s).journal = s.journal := rfl

end Sys2Proof.Machine
end

