-- ==== Sys2Proof/Laws/Ops.lean ====
section
/-! SUPPORT. One lemma for each shared operation that says all it can do: how pieces of pseudocode compose, reads of
the source, writes to the sink, `raise`, reset and the start of a command. -/

namespace Sys2Proof.Machine

/-! ### Flows -/

@[simp] theorem Flow.andThen_on (s : State) (k : State → Flow) : (Flow.on s).andThen k = k s := rfl
@[simp] theorem Flow.andThen_raised (s : State) (k : State → Flow) : (Flow.raised s).andThen k = .raised s := rfl
@[simp] theorem Flow.andThen_stuck (r : Fault) (k : State → Flow) : (Flow.stuck r).andThen k = .stuck r := rfl
@[simp] theorem Flow.outcome_on (s : State) : (Flow.on s).outcome = .next s := rfl
@[simp] theorem Flow.outcome_raised (s : State) : (Flow.raised s).outcome = .next s := rfl
@[simp] theorem Flow.outcome_stuck (r : Fault) : (Flow.stuck r).outcome = .fault r := rfl
@[simp] theorem withValue_ok {α : Type} (a : α) (k : α → Flow) : withValue (.ok a) k = k a := rfl
@[simp] theorem withValue_error {α : Type} (f : Fault) (k : α → Flow) :
    withValue (.error f : Except Fault α) k = .stuck f := rfl

theorem Flow.andThen_assoc (f : Flow) (k l : State → Flow) :
    (f.andThen k).andThen l = f.andThen fun s => (k s).andThen l := by
  cases f <;> rfl

/-- `P` holds where the flow runs to its end, `Q` where it raises; a stop is no obligation. -/
def Flow.Ends (P Q : State → Prop) : Flow → Prop
  | .on s => P s
  | .raised s => Q s
  | .stuck _ => True

theorem Flow.Ends.weaken {P P' Q Q' : State → Prop} {f : Flow} (h : f.Ends P Q) (hp : ∀ s, P s → P' s)
    (hq : ∀ s, Q s → Q' s) : f.Ends P' Q' := by
  cases f with
  | on s => exact hp s h
  | raised s => exact hq s h
  | stuck r => trivial

theorem Flow.Ends.andThen {P P' Q : State → Prop} {f : Flow} {k : State → Flow} (h : f.Ends P Q)
    (hk : ∀ s, P s → (k s).Ends P' Q) : (f.andThen k).Ends P' Q := by
  cases f with
  | on s => exact hk s h
  | raised s => exact h
  | stuck r => trivial

theorem Flow.Ends.and {P P' Q Q' : State → Prop} {f : Flow} (h : f.Ends P Q) (h' : f.Ends P' Q') :
    f.Ends (fun s => P s ∧ P' s) (fun s => Q s ∧ Q' s) := by
  cases f with
  | on s => exact ⟨h, h'⟩
  | raised s => exact ⟨h, h'⟩
  | stuck r => trivial

/-- A value that was read: what holds for every value that can be read holds at the end. -/
theorem Flow.Ends.withValue {α : Type} {P Q : State → Prop} {r : Except Fault α} {k : α → Flow}
    (h : ∀ a, r = .ok a → (k a).Ends P Q) : (withValue r k).Ends P Q := by
  cases r with
  | ok a => exact h a rfl
  | error f => trivial

theorem Flow.Ends.of_eq_on {P Q : State → Prop} {f : Flow} (h : f.Ends P Q) {s : State} (e : f = .on s) : P s := by
  subst e; exact h

theorem Flow.Ends.of_eq_raised {P Q : State → Prop} {f : Flow} (h : f.Ends P Q) {s : State} (e : f = .raised s) :
    Q s := by
  subst e; exact h

/-- A next state is the end of the flow or the state at its `raise`. -/
theorem Flow.outcome_eq_next {f : Flow} {t : State} : f.outcome = .next t ↔ f = .on t ∨ f = .raised t := by
  cases f <;> simp [Flow.outcome]

theorem Flow.Ends.of_outcome {P : State → Prop} {f : Flow} {t : State} (h : f.Ends P P) (e : f.outcome = .next t) :
    P t := by
  rcases Flow.outcome_eq_next.1 e with rfl | rfl <;> exact h

/-! ### The inputs of a command -/

/-- The constants of the instance, the source, its size, the host's coming moves and the two fetch slots agree. -/
structure SameInputs (s t : State) : Prop where
  params : t.params = s.params
  srcSize : t.srcSize = s.srcSize
  src : t.src = s.src
  host : t.host = s.host
  issue : t.issue = s.issue
  cmd : t.cmd = s.cmd

theorem SameInputs.rfl {s : State} : SameInputs s s := ⟨by rfl, by rfl, by rfl, by rfl, by rfl, by rfl⟩

theorem SameInputs.trans {s t u : State} (h : SameInputs s t) (h' : SameInputs t u) : SameInputs s u :=
  ⟨h'.1.trans h.1, h'.2.trans h.2, h'.3.trans h.3, h'.4.trans h.4, h'.5.trans h.5, h'.6.trans h.6⟩

/-! ### Reads of the source -/

theorem readByte_eq_ok {s : State} {a : Nat} {b : Byte} :
    readByte s a = .ok b ↔ a < s.srcSize.toNat ∧ s.src.read a = some b := by
  unfold readByte
  split
  · next h => cases hb : s.src.read a <;> simp_all
  · next h => simp [h]

theorem readByte_congr {s t : State} (h : SameInputs s t) (a : Nat) : readByte t a = readByte s a := by
  simp [readByte, h.src, h.srcSize]

theorem memRead_congr {s t : State} (h : SameInputs s t) (a n : Nat) : memRead t a n = memRead s a n := by
  induction n generalizing a with
  | zero => rfl
  | succ n ih => simp [memRead, readByte_congr h, ih]

/-- `MemRead` answers the bytes at its offsets, lowest first, exactly when all of them lie below `SRC_SIZE` and were
provided (R62). -/
theorem memRead_eq_ok {s : State} {a n : Nat} {bs : List Byte} :
    memRead s a n = .ok bs ↔
      bs.length = n ∧ ∀ k (h : k < bs.length), a + k < s.srcSize.toNat ∧ s.src.read (a + k) = some bs[k] := by
  induction n generalizing a bs with
  | zero =>
    simp only [memRead, Except.ok.injEq]
    constructor
    · rintro rfl; simp
    · rintro ⟨h, -⟩; exact (List.length_eq_zero_iff.1 h).symm
  | succ n ih =>
    constructor
    · intro h
      rw [memRead] at h
      split at h
      · cases h
      · next b hb =>
        split at h
        · cases h
        · next cs hc =>
          cases h
          rw [readByte_eq_ok] at hb
          rw [ih] at hc
          refine ⟨by simp [hc.1], fun k hk => ?_⟩
          cases k with
          | zero => exact hb
          | succ k =>
            have := hc.2 k (by simpa using hk)
            rw [show a + (k + 1) = a + 1 + k by omega]
            exact this
    · rintro ⟨hl, h⟩
      cases bs with
      | nil => simp at hl
      | cons b cs =>
        have hb : readByte s a = .ok b := readByte_eq_ok.2 (h 0 (by simp))
        have hc : memRead s (a + 1) n = .ok cs := by
          rw [ih]
          refine ⟨by simpa using hl, fun k hk => ?_⟩
          have := h (k + 1) (by simpa using hk)
          rw [show a + 1 + k = a + (k + 1) by omega]
          exact this
        simp [memRead, hb, hc]

/-- A provided source answers every byte below `SRC_SIZE`. -/
theorem readByte_provided {s : State} {a : Nat} (h : (s.src.read a).isSome = true) (ha : a < s.srcSize.toNat) :
    ∃ b, readByte s a = .ok b := by
  obtain ⟨b, hb⟩ := Option.isSome_iff_exists.1 h
  exact ⟨b, readByte_eq_ok.2 ⟨ha, hb⟩⟩

theorem memRead_provided {s : State} {a n : Nat} (h : ∀ c, c < s.srcSize.toNat → (s.src.read c).isSome = true)
    (ha : a + n ≤ s.srcSize.toNat) : ∃ bs, memRead s a n = .ok bs := by
  induction n generalizing a with
  | zero => exact ⟨[], rfl⟩
  | succ n ih =>
    obtain ⟨b, hb⟩ := readByte_provided (h a (by omega)) (by omega)
    obtain ⟨bs, hbs⟩ := ih (a := a + 1) (by omega)
    exact ⟨b :: bs, by simp [memRead, hb, hbs]⟩

/-! ### Writes to the sink -/

/-- The state `MemWrite` leaves (R63). -/
def written (addr : Nat) (bytes : List Byte) (s : State) : State :=
  match bytes with
  | [] => s
  | _ :: _ => putRun addr bytes s

theorem memWrite_eq (addr : Nat) (bytes : List Byte) (s : State) :
    memWrite addr bytes s =
      if bytes = [] ∨ addr + bytes.length < Config.spaceSize then .on (written addr bytes s)
      else .stuck .sinkOutOfSpace := by
  cases bytes <;> simp [memWrite, written]

theorem memWrite_on {addr : Nat} {bytes : List Byte} {s : State} (h : addr + bytes.length < Config.spaceSize) :
    memWrite addr bytes s = .on (written addr bytes s) := by
  rw [memWrite_eq, if_pos (Or.inr h)]

theorem written_nil (a : Nat) (s : State) : written a [] s = s := rfl

theorem written_eq (a : Nat) (bs : List Byte) (s : State) :
    written a bs s =
      { s with
        snk := s.snk.writeRun a bs
        snkSize := if bs = [] then s.snkSize else BitVec.ofNat 64 (max s.snkSize.toNat (a + bs.length))
        journal := s.journal ++ cellsFrom a bs } := by
  cases bs with
  | nil => simp [written, Memory.writeRun, cellsFrom]
  | cons b bs => simp [written, putRun]

@[simp] theorem written_params (a : Nat) (bs : List Byte) (s : State) : (written a bs s).params = s.params := by
  cases bs <;> rfl
@[simp] theorem written_cmd (a : Nat) (bs : List Byte) (s : State) : (written a bs s).cmd = s.cmd := by
  cases bs <;> rfl
@[simp] theorem written_status (a : Nat) (bs : List Byte) (s : State) : (written a bs s).status = s.status := by
  cases bs <;> rfl
@[simp] theorem written_err (a : Nat) (bs : List Byte) (s : State) : (written a bs s).err = s.err := by
  cases bs <;> rfl
@[simp] theorem written_srcSize (a : Nat) (bs : List Byte) (s : State) : (written a bs s).srcSize = s.srcSize := by
  cases bs <;> rfl
@[simp] theorem written_pad (a : Nat) (bs : List Byte) (s : State) : (written a bs s).pad = s.pad := by
  cases bs <;> rfl
@[simp] theorem written_tlen (a : Nat) (bs : List Byte) (s : State) : (written a bs s).tlen = s.tlen := by
  cases bs <;> rfl
@[simp] theorem written_hbits (a : Nat) (bs : List Byte) (s : State) : (written a bs s).hbits = s.hbits := by
  cases bs <;> rfl
@[simp] theorem written_payloadOff (a : Nat) (bs : List Byte) (s : State) : (written a bs s).payloadOff = s.payloadOff := by
  cases bs <;> rfl
@[simp] theorem written_srcPos (a : Nat) (bs : List Byte) (s : State) : (written a bs s).srcPos = s.srcPos := by
  cases bs <;> rfl
@[simp] theorem written_snkPos (a : Nat) (bs : List Byte) (s : State) : (written a bs s).snkPos = s.snkPos := by
  cases bs <;> rfl
@[simp] theorem written_nleaf (a : Nat) (bs : List Byte) (s : State) : (written a bs s).nleaf = s.nleaf := by
  cases bs <;> rfl
@[simp] theorem written_nnodes (a : Nat) (bs : List Byte) (s : State) : (written a bs s).nnodes = s.nnodes := by
  cases bs <;> rfl
@[simp] theorem written_root (a : Nat) (bs : List Byte) (s : State) : (written a bs s).root = s.root := by
  cases bs <;> rfl
@[simp] theorem written_bitbuf (a : Nat) (bs : List Byte) (s : State) : (written a bs s).bitbuf = s.bitbuf := by
  cases bs <;> rfl
@[simp] theorem written_cand (a : Nat) (bs : List Byte) (s : State) : (written a bs s).cand = s.cand := by
  cases bs <;> rfl
@[simp] theorem written_freq (a : Nat) (bs : List Byte) (s : State) : (written a bs s).freq = s.freq := by
  cases bs <;> rfl
@[simp] theorem written_node (a : Nat) (bs : List Byte) (s : State) : (written a bs s).node = s.node := by
  cases bs <;> rfl
@[simp] theorem written_pq (a : Nat) (bs : List Byte) (s : State) : (written a bs s).pq = s.pq := by
  cases bs <;> rfl
@[simp] theorem written_code (a : Nat) (bs : List Byte) (s : State) : (written a bs s).code = s.code := by
  cases bs <;> rfl
@[simp] theorem written_dec (a : Nat) (bs : List Byte) (s : State) : (written a bs s).dec = s.dec := by
  cases bs <;> rfl
@[simp] theorem written_src (a : Nat) (bs : List Byte) (s : State) : (written a bs s).src = s.src := by
  cases bs <;> rfl
@[simp] theorem written_host (a : Nat) (bs : List Byte) (s : State) : (written a bs s).host = s.host := by
  cases bs <;> rfl
@[simp] theorem written_issue (a : Nat) (bs : List Byte) (s : State) : (written a bs s).issue = s.issue := by
  cases bs <;> rfl
@[simp] theorem written_drained (a : Nat) (bs : List Byte) (s : State) : (written a bs s).drained = s.drained := by
  cases bs <;> rfl

theorem written_sameInputs (a : Nat) (bs : List Byte) (s : State) : SameInputs s (written a bs s) := by
  rw [written_eq]; exact ⟨rfl, rfl, rfl, rfl, rfl, rfl⟩

/-- `MemWrite` changes the sink, its size and the record of writes, and nothing else. -/
theorem memWrite_ends (a : Nat) (bs : List Byte) (s : State) :
    (memWrite a bs s).Ends (fun t => t = written a bs s ∧ (bs ≠ [] → a + bs.length < Config.spaceSize))
      (fun _ => False) := by
  rw [memWrite_eq]
  split
  · next h => exact ⟨rfl, fun hb => h.resolve_left hb⟩
  · trivial

theorem writeSeq_on {bytes : List Byte} {s : State} (h : s.snkPos.toNat + bytes.length < Config.spaceSize) :
    writeSeq bytes s = .on (advanceSink bytes.length (written s.snkPos.toNat bytes s)) := by
  simp [writeSeq, memWrite_on h]

/-- A write in sequence at the end of the sink makes it that much longer (R30, R63). -/
theorem writeSeq_ends (bs : List Byte) (s : State) :
    (writeSeq bs s).Ends
      (fun t => t = advanceSink bs.length (written s.snkPos.toNat bs s) ∧
        (bs ≠ [] → s.snkPos.toNat + bs.length < Config.spaceSize)) (fun _ => False) :=
  (memWrite_ends s.snkPos.toNat bs s).andThen fun t ht => ⟨by rw [ht.1], ht.2⟩

/-- `SNK_SIZE` after a write (R63). -/
theorem written_size (a : Nat) (bs : List Byte) (s : State)
    (h : bs ≠ [] → a + bs.length < 2 ^ 64) :
    (written a bs s).snkSize.toNat = if bs = [] then s.snkSize.toNat else max s.snkSize.toNat (a + bs.length) := by
  rw [written_eq]
  simp only
  split
  · rfl
  · next hb => have := s.snkSize.isLt; have := h hb; simp only [BitVec.toNat_ofNat]; omega

/-- The sink's size after a run of bytes written at its end. -/
theorem written_end_size {s : State} {bs : List Byte} (hp : s.snkPos = s.snkSize)
    (h : bs ≠ [] → s.snkPos.toNat + bs.length < Config.spaceSize) :
    (written s.snkPos.toNat bs s).snkSize = s.snkPos + BitVec.ofNat 64 bs.length ∧
      (s.snkPos + BitVec.ofNat 64 bs.length).toNat = s.snkPos.toNat + bs.length := by
  cases bs with
  | nil => simp [written, hp]
  | cons b bs =>
    have hl := h (by simp)
    simp only [Config.spaceSize] at hl
    have hn : (s.snkPos + BitVec.ofNat 64 (b :: bs).length).toNat = s.snkPos.toNat + (b :: bs).length := by
      rw [BitVec.toNat_add, BitVec.toNat_ofNat, Nat.add_mod_mod, Nat.mod_eq_of_lt hl]
    refine ⟨?_, hn⟩
    apply BitVec.eq_of_toNat_eq
    rw [hn]
    simp only [written, putRun_snkSize, BitVec.toNat_ofNat, ← hp]
    rw [Nat.max_eq_right (by omega), Nat.mod_eq_of_lt hl]

theorem written_wf {a : Nat} {bs : List Byte} {s : State} (hs : s.snk.wf = true)
    (h : bs ≠ [] → a + bs.length < Config.spaceSize) : (written a bs s).snk.wf = true := by
  cases bs with
  | nil => exact hs
  | cons b bs =>
    have := h (by simp)
    exact Memory.wf_writeRun _ _ _ hs (by omega)

/-- Outside its run `MemWrite` leaves every byte of the sink as it was. -/
theorem written_read_outside {a c : Nat} {bs : List Byte} {s : State} (h : c < a ∨ a + bs.length ≤ c) :
    (written a bs s).snk.read c = s.snk.read c := by
  rw [written_eq]
  show (s.snk.writeRun a bs).read c = _
  rw [Memory.read_writeRun]
  split
  · rw [if_neg (by omega)]
  · rfl

/-- Inside its run `MemWrite` leaves the bytes it was given. -/
theorem written_read_inside {a k : Nat} {bs : List Byte} {s : State} (h : k < bs.length) :
    (written a bs s).snk.read (a + k) = some bs[k] := by
  rw [written_eq]
  show (s.snk.writeRun a bs).read (a + k) = _
  rw [Memory.read_writeRun, if_pos (by omega), if_pos (by omega), Nat.add_sub_cancel_left]
  simp [h]

theorem written_read_isSome {a c : Nat} {bs : List Byte} {s : State} (h : (s.snk.read c).isSome = true) :
    ((written a bs s).snk.read c).isSome = true := by
  by_cases hc : c < a ∨ a + bs.length ≤ c
  · rw [written_read_outside hc]; exact h
  · obtain ⟨k, hk⟩ : ∃ k, c = a + k := ⟨c - a, by omega⟩
    subst hk
    rw [written_read_inside (k := k) (by omega)]
    rfl

/-- The state after bytes were written in sequence (R30). -/
def appended (bytes : List Byte) (s : State) : State := advanceSink bytes.length (written s.snkPos.toNat bytes s)

/-- A run of bytes in sequence has its place in the sink. -/
def Fits (bytes : List Byte) (s : State) : Prop := bytes ≠ [] → s.snkPos.toNat + bytes.length < Config.spaceSize

theorem appended_nil (s : State) : appended [] s = s := by simp [appended, written_nil, advanceSink]

@[simp] theorem appended_params (bs : List Byte) (s : State) : (appended bs s).params = s.params := by simp [appended]
@[simp] theorem appended_cmd (bs : List Byte) (s : State) : (appended bs s).cmd = s.cmd := by simp [appended]
@[simp] theorem appended_status (bs : List Byte) (s : State) : (appended bs s).status = s.status := by simp [appended]
@[simp] theorem appended_err (bs : List Byte) (s : State) : (appended bs s).err = s.err := by simp [appended]
@[simp] theorem appended_srcSize (bs : List Byte) (s : State) : (appended bs s).srcSize = s.srcSize := by simp [appended]
@[simp] theorem appended_pad (bs : List Byte) (s : State) : (appended bs s).pad = s.pad := by simp [appended]
@[simp] theorem appended_tlen (bs : List Byte) (s : State) : (appended bs s).tlen = s.tlen := by simp [appended]
@[simp] theorem appended_hbits (bs : List Byte) (s : State) : (appended bs s).hbits = s.hbits := by simp [appended]
@[simp] theorem appended_payloadOff (bs : List Byte) (s : State) : (appended bs s).payloadOff = s.payloadOff := by simp [appended]
@[simp] theorem appended_srcPos (bs : List Byte) (s : State) : (appended bs s).srcPos = s.srcPos := by simp [appended]
@[simp] theorem appended_nleaf (bs : List Byte) (s : State) : (appended bs s).nleaf = s.nleaf := by simp [appended]
@[simp] theorem appended_nnodes (bs : List Byte) (s : State) : (appended bs s).nnodes = s.nnodes := by simp [appended]
@[simp] theorem appended_root (bs : List Byte) (s : State) : (appended bs s).root = s.root := by simp [appended]
@[simp] theorem appended_bitbuf (bs : List Byte) (s : State) : (appended bs s).bitbuf = s.bitbuf := by simp [appended]
@[simp] theorem appended_cand (bs : List Byte) (s : State) : (appended bs s).cand = s.cand := by simp [appended]
@[simp] theorem appended_freq (bs : List Byte) (s : State) : (appended bs s).freq = s.freq := by simp [appended]
@[simp] theorem appended_node (bs : List Byte) (s : State) : (appended bs s).node = s.node := by simp [appended]
@[simp] theorem appended_pq (bs : List Byte) (s : State) : (appended bs s).pq = s.pq := by simp [appended]
@[simp] theorem appended_code (bs : List Byte) (s : State) : (appended bs s).code = s.code := by simp [appended]
@[simp] theorem appended_dec (bs : List Byte) (s : State) : (appended bs s).dec = s.dec := by simp [appended]
@[simp] theorem appended_src (bs : List Byte) (s : State) : (appended bs s).src = s.src := by simp [appended]
@[simp] theorem appended_host (bs : List Byte) (s : State) : (appended bs s).host = s.host := by simp [appended]
@[simp] theorem appended_issue (bs : List Byte) (s : State) : (appended bs s).issue = s.issue := by simp [appended]
@[simp] theorem appended_drained (bs : List Byte) (s : State) : (appended bs s).drained = s.drained := by simp [appended]

theorem Fits.nil (s : State) : Fits [] s := fun h => absurd rfl h

theorem Fits.snkPos {bytes : List Byte} {s : State} (h : Fits bytes s) :
    (appended bytes s).snkPos.toNat = s.snkPos.toNat + bytes.length := by
  cases bytes with
  | nil => simp [appended_nil]
  | cons b bs =>
    have := h (by simp)
    simp only [Config.spaceSize] at this
    simp only [appended, advanceSink_snkPos, written_snkPos, BitVec.toNat_add, BitVec.toNat_ofNat]
    omega

theorem writeRun_append (m : Memory) (a : Nat) (xs ys : List Byte) :
    (m.writeRun a xs).writeRun (a + xs.length) ys = m.writeRun a (xs ++ ys) := by
  induction xs generalizing m a with
  | nil => rfl
  | cons x xs ih =>
    rw [List.cons_append, Memory.writeRun, Memory.writeRun, ← ih, List.length_cons]
    congr 1; omega

theorem cellsFrom_append (a : Nat) (xs ys : List Byte) :
    cellsFrom a xs ++ cellsFrom (a + xs.length) ys = cellsFrom a (xs ++ ys) := by
  induction xs generalizing a with
  | nil => rfl
  | cons x xs ih =>
    rw [List.cons_append, cellsFrom, cellsFrom, ← ih, List.length_cons, List.cons_append]
    congr 3; omega

/-- Two runs written in sequence are one run (R68). -/
theorem appended_append {xs ys : List Byte} {s : State} (h : Fits (xs ++ ys) s) :
    appended ys (appended xs s) = appended (xs ++ ys) s := by
  cases hx : xs with
  | nil => rw [appended_nil, List.nil_append]
  | cons x xs' =>
    subst hx
    have hfit := h (by simp)
    have hlt := s.snkSize.isLt
    simp only [Config.spaceSize, List.length_append] at hfit
    have hpos : (appended (x :: xs') s).snkPos.toNat = s.snkPos.toNat + (x :: xs').length :=
      Fits.snkPos fun _ => by simp only [Config.spaceSize]; omega
    rw [appended, hpos]
    simp only [appended, written_eq, advanceSink, reduceCtorEq, if_false, List.cons_append]
    rw [State.mk.injEq]
    refine ⟨rfl, rfl, rfl, rfl, rfl, ?_, rfl, rfl, rfl, rfl, rfl, ?_, rfl, rfl, rfl, rfl, rfl, rfl, rfl, rfl, rfl, rfl, rfl,
      ?_, rfl, rfl, rfl, ?_⟩
    · split
      · next e => subst e; simp
      · apply BitVec.eq_of_toNat_eq
        simp only [BitVec.toNat_ofNat, List.length_cons, List.length_append] at *
        omega
    · rw [BitVec.add_assoc, ← BitVec.ofNat_add]
      simp only [List.length_cons, List.length_append]
      congr 2; omega
    · exact writeRun_append _ _ (x :: xs') ys
    · rw [List.append_assoc]
      congr 1
      exact cellsFrom_append _ (x :: xs') ys

theorem Fits.left {xs ys : List Byte} {s : State} (h : Fits (xs ++ ys) s) : Fits xs s := by
  intro hx
  have := h (by simp [hx])
  rw [List.length_append] at this
  omega

theorem Fits.append {xs ys : List Byte} {s : State} (h : Fits xs s) (h' : Fits ys (appended xs s)) :
    Fits (xs ++ ys) s := by
  intro hne
  rw [List.length_append]
  by_cases hy : ys = []
  · subst hy
    have := h (by simpa using hne)
    simpa using this
  · have := h' hy
    rw [h.snkPos] at this
    omega

theorem writeSeq_appended {bytes : List Byte} {s : State} (h : s.snkPos.toNat + bytes.length < Config.spaceSize) :
    writeSeq bytes s = .on (appended bytes s) := writeSeq_on h

theorem writeSeq_ends' (bytes : List Byte) (s : State) :
    (writeSeq bytes s).Ends (fun t => t = appended bytes s ∧ Fits bytes s) (fun _ => False) := writeSeq_ends bytes s

/-- What stays true of the end of the sink when bytes are written in sequence there (R30, R63). -/
theorem appended_end {bytes : List Byte} {s : State} (hp : s.snkPos = s.snkSize) (h : Fits bytes s) :
    (appended bytes s).snkPos = (appended bytes s).snkSize := by
  simp only [appended, advanceSink_snkPos, advanceSink_snkSize, written_snkPos]
  exact (written_end_size hp h).1.symm

theorem appended_contiguous {bytes : List Byte} {s : State} (hp : s.snkPos = s.snkSize) (h : Fits bytes s)
    (hc : ∀ a, a < s.snkSize.toNat → (s.snk.read a).isSome = true) :
    ∀ a, a < (appended bytes s).snkSize.toNat → ((appended bytes s).snk.read a).isSome = true := by
  intro a ha
  rw [← appended_end hp h, h.snkPos, hp] at ha
  simp only [appended, advanceSink_snk]
  by_cases hlt : a < s.snkSize.toNat
  · exact written_read_isSome (hc a hlt)
  · obtain ⟨k, rfl⟩ : ∃ k, a = s.snkPos.toNat + k := ⟨a - s.snkPos.toNat, by rw [hp]; omega⟩
    rw [written_read_inside (by rw [hp] at ha; omega)]
    rfl

/-! ### Errors, reset and the start of a command -/

/-- `raise` takes the error: its number, `FAIL` alone of the flags, the mode and the phase kept (R236). -/
theorem raise_takes (e : ErrorKind) (s : State) :
    (raise e s).err = e.number ∧ (raise e s).status.fail = true ∧ (raise e s).status.busy = false ∧
      (raise e s).status.done = false ∧ (raise e s).status.phase = s.status.phase ∧
      (raise e s).status.mode = s.status.mode := ⟨rfl, rfl, rfl, rfl, rfl, rfl⟩

theorem raise_sameInputs (e : ErrorKind) (s : State) : SameInputs s (raise e s) := ⟨rfl, rfl, rfl, rfl, rfl, rfl⟩

theorem resetEngine_reset : resetEngine State.reset = State.reset := rfl

end Sys2Proof.Machine
end

