-- ==== Sys2Proof/Laws/BitPacker.lean ====
section
/-! SUPPORT. The laws of `appendByte` and `drainBytes` (spec/40_bitpacker.md). -/

namespace Sys2Proof.Machine

theorem appendByte_eq (n : Nat) (s : State) :
    appendByte n s = { s with bitbuf := s.bitbuf ++ Bit.bits8 (BitVec.ofNat 8 n) } := rfl

theorem appendBytes_eq (bs : List Byte) (s : State) :
    appendBytes bs s = { s with bitbuf := s.bitbuf ++ Bit.unpack bs } := by
  induction bs generalizing s with
  | nil => simp [appendBytes]
  | cons b bs ih => simp [appendBytes, ih, appendByte_eq, List.append_assoc]

/-- The bits that do not form a whole byte (R122 `rest`). -/
theorem rest_length (buf : Bits) : (buf.drop (8 * (buf.length / 8))).length = buf.length % 8 := by
  rw [List.length_drop]; omega

@[simp] theorem drainedRest_true (buf : Bits) : drainedRest true buf = [] := rfl

theorem drainedRest_false (buf : Bits) : drainedRest false buf = buf.drop (8 * (buf.length / 8)) := rfl

/-- A non-flushing drain leaves fewer than eight bits (R123 (d)). -/
theorem drainedRest_length (buf : Bits) : (drainedRest false buf).length = buf.length % 8 := rest_length buf

theorem drainedBytes_false (buf : Bits) : drainedBytes false buf = Bit.packGroups (buf.length / 8) buf := by
  simp [drainedBytes]

theorem drainedBytes_false_length (buf : Bits) : (drainedBytes false buf).length = buf.length / 8 := by
  simp [drainedBytes_false]

@[simp] theorem drainedBytes_nil (flush : Bool) : drainedBytes flush [] = [] := by cases flush <;> rfl

/-- A flushing drain returns `ceil8(n)` bytes (R122). -/
theorem drainedBytes_true_length (buf : Bits) : (drainedBytes true buf).length = Bit.ceil8 buf.length := by
  have hr := rest_length buf
  simp only [drainedBytes, List.length_append, Bit.packGroups_length, Bool.true_and, Bit.ceil8]
  cases h : buf.drop (8 * (buf.length / 8)) with
  | nil => rw [h] at hr; simp at hr; simp; omega
  | cons b t => rw [h] at hr; simp at hr; simp; omega

/-- What a non-flushing drain returned and what it left spell the old buffer (R122, R123 (e)). -/
theorem unpack_drained_false (buf : Bits) :
    Bit.unpack (drainedBytes false buf) ++ drainedRest false buf = buf := by
  rw [drainedBytes_false, Bit.unpack_packGroups _ _ (by omega), drainedRest_false, List.take_append_drop]

/-- What a flushing drain returned spells the old buffer and the zero padding (R123 (b)). -/
theorem unpack_drained_true (buf : Bits) :
    Bit.unpack (drainedBytes true buf) = buf ++ Bit.zeros ((8 - buf.length % 8) % 8) := by
  have hr := rest_length buf
  have hp := Bit.unpack_packGroups (buf.length / 8) buf (by omega)
  simp only [drainedBytes, Bool.true_and, Bit.unpack_append, hp]
  cases h : buf.drop (8 * (buf.length / 8)) with
  | nil =>
    rw [h] at hr
    simp only [List.length_nil] at hr
    rw [← hr]
    have ht := List.take_append_drop (8 * (buf.length / 8)) buf
    rw [h, List.append_nil] at ht
    simp [ht, Bit.zeros]
  | cons b t =>
    have hl : (b :: t).length = buf.length % 8 := by rw [← h]; exact hr
    have h8 : (b :: t ++ Bit.zeros (8 - (b :: t).length)).length = 8 := by
      rw [List.length_append, Bit.zeros_length]; omega
    have hpos : 0 < (b :: t).length := by simp
    simp only [List.isEmpty_cons, Bool.not_false, if_true, Bit.unpack_cons, Bit.unpack_nil, List.append_nil]
    rw [Bit.bits8_byteOf _ h8, ← List.append_assoc, ← h, List.take_append_drop, hr]
    rw [Nat.mod_eq_of_lt (show 8 - buf.length % 8 < 8 by omega)]

theorem zeros_append (m n : Nat) : Bit.zeros m ++ Bit.zeros n = Bit.zeros (m + n) := by
  simp [Bit.zeros, List.replicate_append_replicate]

/-- Whole bytes in front of a buffer come out first, as they are. -/
theorem drainedBytes_unpack_append (flush : Bool) (bs : List Byte) (s : Bits) :
    drainedBytes flush (Bit.unpack bs ++ s) = bs ++ drainedBytes flush s := by
  have hl : (Bit.unpack bs ++ s).length = 8 * bs.length + s.length := by simp
  have hq : (Bit.unpack bs ++ s).length / 8 = bs.length + s.length / 8 := by omega
  have hd : (Bit.unpack bs ++ s).drop (8 * (bs.length + s.length / 8)) = s.drop (8 * (s.length / 8)) := by
    rw [List.drop_append, Bit.unpack_length, List.drop_eq_nil_of_le (by rw [Bit.unpack_length]; omega), List.nil_append]
    congr 1; omega
  have hg : Bit.packGroups (bs.length + s.length / 8) (Bit.unpack bs ++ s) =
      bs ++ Bit.packGroups (s.length / 8) s := by
    rw [Bit.packGroups_add, Bit.packGroups_unpack, List.drop_append, Bit.unpack_length,
      List.drop_eq_nil_of_le (by simp), List.nil_append, Nat.sub_self, List.drop_zero]
  simp only [drainedBytes, hq, hd, hg, List.append_assoc]

theorem drainedRest_unpack_append (flush : Bool) (bs : List Byte) (s : Bits) :
    drainedRest flush (Bit.unpack bs ++ s) = drainedRest flush s := by
  cases flush with
  | true => rfl
  | false =>
    have hl : (Bit.unpack bs ++ s).length = 8 * bs.length + s.length := by simp
    have hq : (Bit.unpack bs ++ s).length / 8 = bs.length + s.length / 8 := by omega
    rw [drainedRest_false, drainedRest_false, hq, List.drop_append, Bit.unpack_length,
      List.drop_eq_nil_of_le (by rw [Bit.unpack_length]; omega), List.nil_append]
    congr 1; omega

/-- Where a drain happens does not matter (R123 (c)): what a non-flushing drain returns, followed by any drain of what
it left and the bits behind, is that drain of all the bits. -/
theorem drained_split (flush : Bool) (s t : Bits) :
    drainedBytes false s ++ drainedBytes flush (drainedRest false s ++ t) = drainedBytes flush (s ++ t) := by
  conv => rhs; rw [← unpack_drained_false s, List.append_assoc]
  rw [drainedBytes_unpack_append]

theorem drainedRest_split (flush : Bool) (s t : Bits) :
    drainedRest flush (drainedRest false s ++ t) = drainedRest flush (s ++ t) := by
  conv => rhs; rw [← unpack_drained_false s, List.append_assoc]
  rw [drainedRest_unpack_append]

/-- Draining the bits of whole bytes returns the bytes (R123 (a)). -/
theorem drainedBytes_unpack (flush : Bool) (bs : List Byte) : drainedBytes flush (Bit.unpack bs) = bs := by
  simpa using drainedBytes_unpack_append flush bs []

theorem drainedRest_unpack (flush : Bool) (bs : List Byte) : drainedRest flush (Bit.unpack bs) = [] := by
  have := drainedRest_unpack_append flush bs []
  rw [List.append_nil] at this
  rw [this]; cases flush <;> rfl

end Sys2Proof.Machine
end

