-- ==== Sys2Proof/Laws/Container.lean ====
section
/-! SUPPORT. The laws of `writeHeader` and `readHeader` (spec/42_container.md): what each leaves, and how the table's
bits are laid down and read back. -/

namespace Sys2Proof.Machine

/-! ### The bits of entries -/

theorem entriesBits_cons (b : Symbol) (c : Bits) (es : List (Symbol × Bits)) :
    entriesBits ((b, c) :: es) = Bit.bits8 b ++ Bit.bits8 (BitVec.ofNat 8 c.length) ++ c ++ entriesBits es := rfl

theorem entriesBits_append (es fs : List (Symbol × Bits)) :
    entriesBits (es ++ fs) = entriesBits es ++ entriesBits fs := by
  induction es with
  | nil => rfl
  | cons e es ih => obtain ⟨b, c⟩ := e; simp [entriesBits_cons, ih, List.append_assoc]

/-- `T = sum over entries of (16 + L)` (R94, R97). -/
theorem entriesBits_length (es : List (Symbol × Bits)) :
    (entriesBits es).length = (es.map fun e => 16 + e.2.length).sum := by
  induction es with
  | nil => rfl
  | cons e es ih => obtain ⟨b, c⟩ := e; simp [entriesBits_cons, ih]; omega

theorem entriesBits_length_le {es : List (Symbol × Bits)} (h : ∀ e ∈ es, e.2.length ≤ 255) :
    (entriesBits es).length ≤ 271 * es.length := by
  induction es with
  | nil => simp [entriesBits]
  | cons e es ih =>
    obtain ⟨b, c⟩ := e
    have h1 := h (b, c) (by simp)
    have h2 := ih fun e he => h e (by simp [he])
    simp only [entriesBits_cons, List.length_append, Bit.bits8_length, List.length_cons] at *
    omega

theorem entries_length_le (es : List (Symbol × Bits)) : es.length ≤ (entriesBits es).length := by
  induction es with
  | nil => simp
  | cons e es ih => obtain ⟨b, c⟩ := e; simp [entriesBits_cons]; omega

theorem codeEntries_length_le (cs : List (Option Bits)) (k : Nat) : (codeEntries cs k).length ≤ cs.length := by
  induction cs generalizing k with
  | nil => simp [codeEntries]
  | cons c cs ih =>
    have := ih (k + 1)
    cases c <;> simp [codeEntries] <;> omega

/-- The entries of a code table are its symbols with their codes. -/
theorem mem_codeEntries {cs : List (Option Bits)} {k : Nat} {b : Symbol} {c : Bits} :
    (b, c) ∈ codeEntries cs k ↔ ∃ i, ∃ h : i < cs.length, cs[i] = some c ∧ b = BitVec.ofNat 8 (k + i) := by
  induction cs generalizing k with
  | nil => simp [codeEntries]
  | cons d cs ih =>
    constructor
    · intro h
      cases d with
      | none =>
        obtain ⟨i, hi, h1, h2⟩ := ih.1 h
        exact ⟨i + 1, by simpa using hi, by simpa using h1, by rw [h2]; congr 1; omega⟩
      | some d =>
        simp only [codeEntries, List.mem_cons, Prod.mk.injEq] at h
        rcases h with ⟨rfl, rfl⟩ | h
        · exact ⟨0, by simp, rfl, rfl⟩
        · obtain ⟨i, hi, h1, h2⟩ := ih.1 h
          exact ⟨i + 1, by simpa using hi, by simpa using h1, by rw [h2]; congr 1; omega⟩
    · rintro ⟨i, hi, h1, h2⟩
      cases i with
      | zero => subst h2; simp at h1; subst h1; simp [codeEntries]
      | succ i =>
        have : (b, c) ∈ codeEntries cs (k + 1) :=
          ih.2 ⟨i, by simpa using hi, by simpa using h1, by rw [h2]; congr 1; omega⟩
        cases d <;> simp [codeEntries, this]

/-- The entries of the code table are exactly the symbols that have a code (R96). -/
theorem mem_codeEntries_cells (code : RegFile 256 (Option Bits)) (b : Symbol) (c : Bits) :
    (b, c) ∈ codeEntries code.cells 0 ↔ code.get (symIndex b) = some c := by
  rw [mem_codeEntries]
  constructor
  · rintro ⟨i, hi, h1, h2⟩
    have hi' : i < 256 := by rw [← code.size_eq]; exact hi
    rw [RegFile.cells_getElem] at h1
    have : symIndex b = ⟨i, hi'⟩ := by
      apply Fin.ext
      simp only [h2, symIndex, Nat.zero_add, BitVec.toNat_ofNat]
      omega
    rw [this]; exact h1
  · intro h
    refine ⟨b.toNat, by rw [code.size_eq]; exact b.isLt, ?_, by simp⟩
    rw [RegFile.cells_getElem]; exact h

theorem tableBits_length_le {code : RegFile 256 (Option Bits)} (h : ∀ b c, code.get (symIndex b) = some c → c.length ≤ 255) :
    (tableBits code).length ≤ 69376 := by
  have h1 := entriesBits_length_le (es := codeEntries code.cells 0) fun e he =>
    h e.1 e.2 ((mem_codeEntries_cells code e.1 e.2).1 he)
  have h2 := codeEntries_length_le code.cells 0
  rw [code.size_eq] at h2
  unfold tableBits
  omega

/-! ### writeHeader -/

theorem writeEntry_eq (k : Nat) (c : Bits) (s : State) :
    writeEntry k c s =
      { s with
        bitbuf := s.bitbuf ++ entriesBits [(BitVec.ofNat 8 k, c)]
        hbits := s.hbits + BitVec.ofNat 32 (16 + c.length) } := by
  simp [writeEntry, countBits, appendBits, appendByte_eq, entriesBits, List.append_assoc]

/-- `writeHeader` step 2 lays down the entries in ascending symbol order and counts their bits (R153). -/
theorem writeEntries_eq (cs : List (Option Bits)) (k : Nat) (s : State) :
    writeEntries cs k s =
      { s with
        bitbuf := s.bitbuf ++ entriesBits (codeEntries cs k)
        hbits := s.hbits + BitVec.ofNat 32 (entriesBits (codeEntries cs k)).length } := by
  induction cs generalizing k s with
  | nil => simp [writeEntries, codeEntries, entriesBits]
  | cons c cs ih =>
    cases c with
    | none => simp [writeEntries, codeEntries, ih]
    | some c =>
      simp only [writeEntries, codeEntries, ih, writeEntry_eq, State.mk.injEq, and_true, true_and]
      refine ⟨?_, ?_⟩
      · rw [BitVec.add_assoc, ← BitVec.ofNat_add]
        congr 2
        simp [entriesBits_cons]; omega
      · rw [List.append_assoc, ← entriesBits_append]; rfl

theorem serialiseTable_eq (s : State) :
    serialiseTable s =
      { s with
        bitbuf := s.bitbuf ++ tableBits s.code
        hbits := BitVec.ofNat 32 (tableBits s.code).length } := by
  simp [serialiseTable, writeEntries_eq, tableOperand, tableBits]

/-- The state `writeHeader` leaves when the buffer is empty and the sink new, as ENCODE runs it (R151). -/
def headerWritten (s : State) : State :=
  let table := tableBits s.code
  let tb := packBits table
  { s with
    bitbuf := []
    hbits := BitVec.ofNat 32 table.length
    tlen := BitVec.ofNat 32 table.length
    payloadOff := BitVec.ofNat 64 (5 + tb.length)
    snkPos := BitVec.ofNat 64 (5 + tb.length)
    snkSize := BitVec.ofNat 64 (5 + tb.length)
    snk := ((s.snk.writeRun 0 [0, 0, 0, 0, 0]).writeRun 5 tb).writeRun 1 (Bit.le32 (BitVec.ofNat 32 table.length))
    journal := s.journal ++ cellsFrom 0 [0, 0, 0, 0, 0] ++ cellsFrom 5 tb ++
      cellsFrom 1 (Bit.le32 (BitVec.ofNat 32 table.length)) }

theorem header_size_arith {n : Nat} (h : n + 5 < 2 ^ 64) (e : Prop) [Decidable e] (he : e → n = 0) :
    BitVec.ofNat 64
      (max
        (if e then BitVec.ofNat 64 (max (0#64).toNat (0 + 5))
          else BitVec.ofNat 64 (max (BitVec.ofNat 64 (max (0#64).toNat (0 + 5))).toNat (5 + n))).toNat
        (1 + 4)) = BitVec.ofNat 64 (5 + n) := by
  have h0 : (BitVec.ofNat 64 (max (0#64).toNat (0 + 5))).toNat = 5 := by decide
  split
  · next h1 => rw [h0, he h1]; decide
  · rw [h0, BitVec.toNat_ofNat, Nat.max_eq_right (show 5 ≤ 5 + n by omega), Nat.mod_eq_of_lt (by omega),
      Nat.max_eq_left (by omega)]

/-- `writeHeader` as ENCODE runs it: the buffer empty and the sink new (R151 to R155). -/
theorem writeHeader_on {s : State} (hb : s.bitbuf = []) (hs : s.snkSize = 0)
    (hl : (packBits (tableBits s.code)).length + 5 < Config.spaceSize) : writeHeader s = .on (headerWritten s) := by
  have h5 : (0 : Nat) + [(0x00 : Byte), 0x00, 0x00, 0x00, 0x00].length < Config.spaceSize := by decide
  have hle : ∀ v : BitVec 32, 1 + (Bit.le32 v).length < Config.spaceSize := by intro v; simp [Config.spaceSize]
  simp only [writeHeader, reserveHeader, memWrite_on h5, Flow.andThen_on, serialiseTable_eq, packTable]
  rw [memWrite_on]
  · simp only [Flow.andThen_on, patchTableLength]
    rw [memWrite_on (hle _)]
    simp only [Flow.andThen_on, headerWritten, Flow.on.injEq]
    simp only [written_eq, bufferOperand, packBits, hb, List.nil_append] at *
    simp only [drainBuffer, drainedRest_true, State.mk.injEq, hs, and_true, true_and, List.append_assoc]
    generalize htb : drainedBytes true (tableBits s.code) = tb at *
    refine ⟨?_, ?_, ?_⟩
    · have hne : (Bit.le32 (BitVec.ofNat 32 (tableBits s.code).length) = []) = False := by simp [Bit.le32]
      simp only [hne, if_false, reduceCtorEq, Bit.le32_length]
      exact header_size_arith hl (tb = []) fun h => by simp [h]
    · rw [BitVec.ofNat_add]; rfl
    · rw [BitVec.ofNat_add]; rfl
  · simp only [bufferOperand, written_eq, hb, List.nil_append]
    simp only [packBits] at hl
    omega

/-! ### readHeader -/

theorem entrySymbol_bits (b : Symbol) (l c rest : Bits) : entrySymbol (Bit.bits8 b ++ l ++ c ++ rest) = b := by
  rw [entrySymbol, List.append_assoc, List.append_assoc, List.take_append_of_le_length (by simp),
    List.take_of_length_le (by simp), Bit.byteOf_bits8]

theorem entryLength_bits {c : Bits} (b : Symbol) (rest : Bits) (h : c.length ≤ 255) :
    entryLength (Bit.bits8 b ++ Bit.bits8 (BitVec.ofNat 8 c.length) ++ c ++ rest) = c.length := by
  have : (Bit.bits8 b ++ Bit.bits8 (BitVec.ofNat 8 c.length) ++ c ++ rest).drop 8 =
      Bit.bits8 (BitVec.ofNat 8 c.length) ++ (c ++ rest) := by
    rw [List.append_assoc, List.append_assoc, List.drop_append, List.drop_of_length_le (by simp)]; simp
  rw [entryLength, this, List.take_append_of_le_length (by simp), List.take_of_length_le (by simp), Bit.val_bits8,
    BitVec.toNat_ofNat]
  omega

theorem entryCode_bits {c : Bits} (b : Symbol) (rest : Bits) (h : c.length ≤ 255) :
    entryCode (Bit.bits8 b ++ Bit.bits8 (BitVec.ofNat 8 c.length) ++ c ++ rest) = c := by
  have : (Bit.bits8 b ++ Bit.bits8 (BitVec.ofNat 8 c.length) ++ c ++ rest).drop 16 = c ++ rest := by
    rw [List.append_assoc, List.drop_append, List.drop_of_length_le (by simp)]; simp
  rw [entryCode, this, entryLength_bits b rest h]
  simp

/-- The entry loop on the bits of a list of entries inserts each in order and ends with `HBITS = T` (R158, R159). -/
theorem readEntries_entries (es : List (Symbol × Bits)) (front : Bits) (fuel : Nat) (s : State)
    (hc : ∀ e ∈ es, e.2.length ≤ 255) (hh : s.hbits.toNat = front.length)
    (ht : s.tlen.toNat = front.length + (entriesBits es).length) (hf : es.length ≤ fuel) :
    readEntries (front ++ entriesBits es) fuel s = .on { s with hbits := s.tlen, dec := entriesTable es s.dec } := by
  induction es generalizing front fuel s with
  | nil =>
    have : s.hbits = s.tlen := BitVec.eq_of_toNat_eq (by simpa [entriesBits] using hh.trans ht.symm)
    have hs : { s with hbits := s.tlen, dec := entriesTable [] s.dec } = s :=
      (congrArg (fun h => { s with hbits := h }) this.symm : { s with hbits := s.tlen } = { s with hbits := s.hbits })
    rw [hs]
    cases fuel <;> simp [readEntries, this]
  | cons e es ih =>
    obtain ⟨b, c⟩ := e
    obtain ⟨fuel, rfl⟩ : ∃ n, fuel = n + 1 := ⟨fuel - 1, by simp at hf; omega⟩
    have hcl : c.length ≤ 255 := hc (b, c) (by simp)
    have hlen : (entriesBits ((b, c) :: es)).length = 16 + c.length + (entriesBits es).length := by
      simp [entriesBits_cons]; omega
    have htl := s.tlen.isLt
    have hdrop : (front ++ entriesBits ((b, c) :: es)).drop s.hbits.toNat =
        Bit.bits8 b ++ Bit.bits8 (BitVec.ofNat 8 c.length) ++ c ++ entriesBits es := by
      rw [hh, List.drop_left, entriesBits_cons]
    have hstep : readEntry (front ++ entriesBits ((b, c) :: es)) s =
        .on { s with dec := s.dec.insert c b, hbits := s.hbits + BitVec.ofNat 32 (16 + c.length) } := by
      simp only [readEntry, hdrop, entrySymbol_bits, entryLength_bits b _ hcl, entryCode_bits b _ hcl, takeEntry]
      rw [if_neg (by omega), if_neg (by omega)]
    have hsum : (s.hbits + BitVec.ofNat 32 (16 + c.length)).toNat = front.length + 16 + c.length := by
      rw [BitVec.toNat_add, BitVec.toNat_ofNat, Nat.add_mod_mod, Nat.mod_eq_of_lt (by omega)]; omega
    rw [readEntries, if_pos (by omega), hstep, Flow.andThen_on]
    have hfront : front ++ entriesBits ((b, c) :: es) =
        (front ++ (Bit.bits8 b ++ Bit.bits8 (BitVec.ofNat 8 c.length) ++ c)) ++ entriesBits es := by
      rw [entriesBits_cons, List.append_assoc, List.append_assoc, List.append_assoc, List.append_assoc,
        List.append_assoc]
    rw [hfront, ih]
    · rfl
    · exact fun e he => hc e (by simp [he])
    · simp [hsum]; omega
    · simp [ht, hlen]; omega
    · simp at hf; omega

/-- `readHeader` on a source that begins with the header of a list of entries, whatever fill bits follow them, runs to
its end with those entries in the table (R156 to R159). -/
theorem readHeader_on {s : State} {pad : Byte} {es : List (Symbol × Bits)} {tb : List Byte}
    (hc : ∀ e ∈ es, e.2.length ≤ 255) (hT : (entriesBits es).length < 2 ^ 32)
    (htl : tb.length = Bit.ceil8 (entriesBits es).length)
    (hbits : (Bit.unpack tb).take (entriesBits es).length = entriesBits es)
    (hsz : 5 + tb.length ≤ s.srcSize.toNat)
    (hsrc : ∀ k (h : k < (pad :: Bit.le32 (BitVec.ofNat 32 (entriesBits es).length) ++ tb).length),
      s.src.read k = some (pad :: Bit.le32 (BitVec.ofNat 32 (entriesBits es).length) ++ tb)[k]) :
    readHeader s =
      .on { s with
        pad := pad
        tlen := BitVec.ofNat 32 (entriesBits es).length
        hbits := BitVec.ofNat 32 (entriesBits es).length
        payloadOff := BitVec.ofNat 64 (5 + tb.length)
        srcPos := BitVec.ofNat 64 (5 + tb.length)
        bitbuf := []
        dec := entriesTable es [] } := by
  generalize hTv : (BitVec.ofNat 32 (entriesBits es).length) = T at *
  have hTn : T.toNat = (entriesBits es).length := by rw [← hTv, BitVec.toNat_ofNat, Nat.mod_eq_of_lt hT]
  have hr0 : readByte s 0 = .ok pad := readByte_eq_ok.2 ⟨by omega, by simpa using hsrc 0 (by simp)⟩
  have hr1 : memRead s 1 4 = .ok (Bit.le32 T) := memRead_eq_ok.2 ⟨rfl, fun k hk => by
    simp only [Bit.le32_length] at hk
    refine ⟨by omega, ?_⟩
    have := hsrc (1 + k) (by simp; omega)
    rw [this]
    simp only [Option.some.injEq]
    rw [List.getElem_append_left (by simp; omega)]
    simp only [Nat.add_comm 1 k, List.getElem_cons_succ]
    rfl⟩
  have hfix : readFixed s = .on (loadFixed pad T s) := by
    rw [readFixed, if_neg (by simp only [Config.hdrFixed]; omega), hr0, withValue_ok, hr1, withValue_ok, Bit.unle32_le32]
  have hH : tableBytesOf T = tb.length := by rw [tableBytesOf, hTn, htl]
  have hr2 : memRead (loadFixed pad T s) Config.hdrFixed tb.length = .ok tb := memRead_eq_ok.2 ⟨rfl, fun k hk => by
    simp only [Config.hdrFixed, loadFixed_srcSize, loadFixed_src]
    refine ⟨by omega, ?_⟩
    have := hsrc (5 + k) (by simp; omega)
    rw [this]
    simp only [Option.some.injEq]
    rw [List.getElem_append_right (by simp)]
    simp⟩
  have hcount := entries_length_le es
  have hloop := readEntries_entries es [] T.toNat
    (startTable (clearBuffer (appendBytes tb (clearBuffer (loadFixed pad T s))))) hc rfl
    (by simp [appendBytes_eq, hTn]) (by omega)
  have htab : readTableBytes tb (loadFixed pad T s) = .on { startTable (clearBuffer (loadFixed pad T s)) with
      hbits := T, dec := entriesTable es [] } := by
    simp only [readTableBytes, loadFixed_tlen, appendBytes_eq, clearBuffer_bitbuf, List.nil_append] at *
    rw [hTn] at *
    rw [hbits, hloop]
    rfl
  rw [readHeader, hfix, Flow.andThen_on, readTable, loadFixed_tlen, hH, readTableOf,
    if_neg (by simp only [Config.hdrFixed, loadFixed_srcSize]; omega), hr2, withValue_ok, htab]
  rfl

theorem takeEntry_ends (b : Symbol) (n : Nat) (c : Bits) (s : State) :
    (takeEntry b n c s).Ends
      (fun t => t = { s with dec := s.dec.insert c b, hbits := s.hbits + BitVec.ofNat 32 (16 + n) })
      (fun t => t = raise .malformedHeader s) := by
  unfold takeEntry
  split <;> exact rfl

/-- What the entry loop can change: `HBITS` and `DEC`, and at the `raise` the error's registers (R42, R158). -/
theorem readEntries_ends (tbl : Bits) (fuel : Nat) (s : State) (hs : s.dec.wf = true) :
    (readEntries tbl fuel s).Ends
      (fun t => ∃ h d, d.wf = true ∧ t = { s with hbits := h, dec := d })
      (fun t => ∃ h d, d.wf = true ∧ t = raise .malformedHeader { s with hbits := h, dec := d }) := by
  induction fuel generalizing s with
  | zero => exact ⟨s.hbits, s.dec, hs, rfl⟩
  | succ n ih =>
    rw [readEntries]
    split
    · have hone : (readEntry tbl s).Ends
          (fun t => ∃ h d, d.wf = true ∧ t = { s with hbits := h, dec := d })
          (fun t => ∃ h d, d.wf = true ∧ t = raise .malformedHeader { s with hbits := h, dec := d }) := by
        unfold readEntry
        split
        · exact ⟨s.hbits, s.dec, hs, rfl⟩
        · exact (takeEntry_ends _ _ _ s).weaken (fun t ht => ⟨_, _, DecTable.wf_insert _ _ _ hs, ht⟩)
            fun t ht => ⟨s.hbits, s.dec, hs, ht⟩
      refine hone.andThen fun t ht => ?_
      obtain ⟨h, d, hd, rfl⟩ := ht
      exact (ih _ hd).weaken (fun u ⟨h', d', hw, hu⟩ => ⟨h', d', hw, hu⟩) fun u ⟨h', d', hw, hu⟩ => ⟨h', d', hw, hu⟩
    · exact ⟨s.hbits, s.dec, hs, rfl⟩

/-- What `readHeader` can change and when it runs to its end (R42, R156 to R159, R202). -/
theorem readHeader_ends (s : State) (hs : s.dec.wf = true) :
    (readHeader s).Ends
      (fun t => ∃ p T h d, d.wf = true ∧ 5 + tableBytesOf T ≤ s.srcSize.toNat ∧
        t = { s with
          pad := p
          tlen := T
          bitbuf := []
          hbits := h
          dec := d
          payloadOff := BitVec.ofNat 64 (5 + tableBytesOf T)
          srcPos := BitVec.ofNat 64 (5 + tableBytesOf T) })
      (fun t => ∃ p T h d b, d.wf = true ∧
        t = raise .malformedHeader { s with pad := p, tlen := T, bitbuf := b, hbits := h, dec := d }) := by
  have hfix : (readFixed s).Ends (fun t => ∃ p T, t = loadFixed p T s) (fun t => t = raise .malformedHeader s) := by
    unfold readFixed
    split
    · exact rfl
    · exact Flow.Ends.withValue fun p _ => Flow.Ends.withValue fun q _ => ⟨_, _, rfl⟩
  refine (hfix.weaken (fun t ht => ht) fun t ht => ⟨s.pad, s.tlen, s.hbits, s.dec, s.bitbuf, hs, ht⟩).andThen ?_
  rintro t ⟨p, T, rfl⟩
  rw [readTable, loadFixed_tlen, readTableOf]
  split
  · exact ⟨p, T, s.hbits, s.dec, s.bitbuf, hs, rfl⟩
  · next hle =>
    refine Flow.Ends.withValue fun bs _ => ?_
    refine ((readEntries_ends _ _ _ (by rfl)).weaken (fun t ht => ht) ?_).andThen ?_
    · rintro t ⟨h, d, hd, rfl⟩
      exact ⟨p, T, h, d, [], hd, by rw [appendBytes_eq]; rfl⟩
    · rintro t ⟨h, d, hd, rfl⟩
      exact ⟨p, T, h, d, hd, by simpa using hle, by rw [appendBytes_eq]; rfl⟩

end Sys2Proof.Machine
end

