-- ==== Sys2Proof/Laws/Decoder.lean ====
section
/-! SUPPORT. The laws of DECODE (spec/44_decoder.md): the walk over the bit buffer, the chunks, and what each transition
leaves. -/

namespace Sys2Proof.Machine

/-! ### The walk -/

/-- `walk` on its own: the symbols matched and how the bits end, from a candidate (R211, R212). -/
def scan (dec : DecTable) : Bits → Bits → List Symbol × ParseEnd
  | cand, [] => ([], .done cand)
  | cand, b :: bits =>
    match dec.lookup (cand ++ [b]) with
    | some y => ParseEnd.cons y (scan dec [] bits)
    | none => if (cand ++ [b]).length > Config.maxLen then ([], .invalid) else scan dec (cand ++ [b]) bits

/-- Where the bits are cut does not matter: the candidate carries over (R207, R211). -/
theorem scan_append (dec : DecTable) (cand x y : Bits) :
    scan dec cand (x ++ y) =
      match (scan dec cand x).2 with
      | .done rest => ((scan dec cand x).1 ++ (scan dec rest y).1, (scan dec rest y).2)
      | .invalid => scan dec cand x := by
  induction x generalizing cand with
  | nil => simp [scan]
  | cons b x ih =>
    rw [List.cons_append, scan, scan]
    split
    · next v _ =>
      rw [ih]
      simp only [ParseEnd.cons]
      split <;> simp_all
    · split
      · rfl
      · exact ih _

theorem scan_length_le (dec : DecTable) (cand bits : Bits) : (scan dec cand bits).1.length ≤ bits.length := by
  induction bits generalizing cand with
  | nil => simp [scan]
  | cons b bits ih =>
    rw [scan, List.length_cons]
    split
    · have := ih []
      simp only [ParseEnd.cons, List.length_cons]
      omega
    · split
      · simp
      · have := ih (cand ++ [b])
        omega

/-- The state after `walk` matched the symbols `out` and left `rest` in the buffer and `c` in the candidate. -/
def walked (out : List Symbol) (rest c : Bits) (s : State) : State :=
  appended out { s with bitbuf := rest, cand := c }

theorem walked_with (xs : List Symbol) (r c r' c' : Bits) (s : State) :
    { walked xs r c s with bitbuf := r', cand := c' } = walked xs r' c' s := by
  cases xs <;> rfl

theorem walked_walked {xs ys : List Symbol} {r c r' c' : Bits} {s : State} (h : Fits (xs ++ ys) s) :
    walked ys r' c' (walked xs r c s) = walked (xs ++ ys) r' c' s := by
  have hs : Fits (xs ++ ys) { s with bitbuf := r', cand := c' } := h
  have := appended_append hs
  rw [walked, walked_with, walked, walked, ← this]

/-- One bit of the walk (R211, R212). -/
theorem walkBit_eq (b : Bool) (s : State) :
    walkBit b s =
      match s.dec.lookup (s.cand ++ [b]) with
      | some y => (writeSeq [y] { s with cand := s.cand ++ [b] }).andThen fun t => .on { t with cand := [] }
      | none =>
        if (s.cand ++ [b]).length > Config.maxLen then
          .raised (raise .invalidCode { s with cand := s.cand ++ [b] })
        else .on { s with cand := s.cand ++ [b] } := rfl

theorem walkBit_match {b : Bool} {s : State} {y : Symbol} (h : s.dec.lookup (s.cand ++ [b]) = some y)
    (hf : s.snkPos.toNat + 1 < Config.spaceSize) : walkBit b s = .on (walked [y] s.bitbuf [] s) := by
  rw [walkBit_eq, h]
  simp only
  rw [writeSeq_appended (by simpa using hf), Flow.andThen_on]
  rfl

theorem walkBit_more {b : Bool} {s : State} (h : s.dec.lookup (s.cand ++ [b]) = none)
    (hl : (s.cand ++ [b]).length ≤ 255) : walkBit b s = .on { s with cand := s.cand ++ [b] } := by
  rw [walkBit_eq, h]
  simp only
  rw [if_neg (by simp only [Config.maxLen]; omega)]

theorem walkBit_invalid {b : Bool} {s : State} (h : s.dec.lookup (s.cand ++ [b]) = none)
    (hl : 255 < (s.cand ++ [b]).length) :
    walkBit b s = .raised (raise .invalidCode { s with cand := s.cand ++ [b] }) := by
  rw [walkBit_eq, h]
  simp only
  rw [if_pos hl]

/-- The walk over a buffer is `scan` of its bits (R211 to R213). -/
theorem walkBits_scan (bits : Bits) (s : State) (hb : s.bitbuf = bits)
    (hf : s.snkPos.toNat + bits.length < Config.spaceSize) :
    match scan s.dec s.cand bits with
    | (out, .done rest) => walkBits bits s = .on (walked out [] rest s)
    | (out, .invalid) => ∃ left c, walkBits bits s = .raised (raise .invalidCode (walked out left c s)) ∧
        255 < c.length ∧ (s.cand.length ≤ 255 → c.length = 256) := by
  induction bits generalizing s with
  | nil =>
    have : walked [] [] s.cand s = s := by rw [walked, appended_nil, ← hb]
    simp [scan, walkBits, this]
  | cons b bits ih =>
    rw [List.length_cons] at hf
    rw [scan, walkBits]
    cases hlook : s.dec.lookup (s.cand ++ [b]) with
    | some y =>
      have hm := walkBit_match (b := b) (s := { s with bitbuf := bits }) hlook (by simp only; omega)
      have hwb : walked [y] ({ s with bitbuf := bits } : State).bitbuf [] { s with bitbuf := bits } =
          walked [y] bits [] s := rfl
      rw [hm, Flow.andThen_on, hwb]
      have hfit : Fits [y] { s with bitbuf := bits, cand := [] } := fun _ => by simp only [List.length_singleton]; omega
      have hpos : (walked [y] bits [] s).snkPos.toNat = s.snkPos.toNat + 1 := hfit.snkPos
      have hr := ih (walked [y] bits [] s) (by simp [walked]) (by omega)
      have hd : (walked [y] bits [] s).dec = s.dec := by simp [walked]
      have hc : (walked [y] bits [] s).cand = [] := by simp [walked]
      rw [hd, hc] at hr
      have hfits : ∀ out : List Symbol, out.length ≤ bits.length → Fits ([y] ++ out) s := fun out ho _ => by
        rw [List.length_append, List.length_singleton]; omega
      have hsl := scan_length_le s.dec [] bits
      simp only [ParseEnd.cons]
      generalize scan s.dec [] bits = r at *
      obtain ⟨out, e⟩ := r
      cases e with
      | done rest =>
        simp only at hr hsl ⊢
        rw [hr, walked_walked (hfits out hsl)]
        rfl
      | invalid =>
        simp only at hr hsl ⊢
        obtain ⟨left, c, hr, hcl, hc256⟩ := hr
        exact ⟨left, c, by rw [hr, walked_walked (hfits out hsl)]; rfl, hcl, fun _ => hc256 (Nat.zero_le _)⟩
    | none =>
      simp only
      by_cases hl : (s.cand ++ [b]).length > Config.maxLen
      · rw [if_pos hl, walkBit_invalid (s := { s with bitbuf := bits }) hlook hl]
        refine ⟨bits, s.cand ++ [b], by rw [walked, appended_nil]; rfl, hl, fun h => ?_⟩
        rw [List.length_append, List.length_singleton]
        simp only [List.length_append, List.length_singleton, Config.maxLen] at hl
        omega
      · rw [if_neg hl, walkBit_more (s := { s with bitbuf := bits }) hlook (by simp only [Config.maxLen] at hl; exact Nat.le_of_not_lt hl),
          Flow.andThen_on]
        have hr := ih { s with bitbuf := bits, cand := s.cand ++ [b] } rfl (by simp only; omega)
        simp only at hr
        generalize scan s.dec (s.cand ++ [b]) bits = r at *
        obtain ⟨out, e⟩ := r
        cases e with
        | done rest => exact hr
        | invalid =>
          obtain ⟨left, c, hr, hcl, hc256⟩ := hr
          exact ⟨left, c, hr, hcl, fun _ => hc256 (Nat.le_of_not_lt hl)⟩

/-- What the walk can change (R42, R211): the buffer, the candidate and the end of the sink. -/
theorem walkBits_ends (bits : Bits) (s : State) (hb : s.bitbuf = bits) :
    (walkBits bits s).Ends (fun t => ∃ out c, Fits out s ∧ out.length ≤ bits.length ∧ t = walked out [] c s)
      (fun t => ∃ out rest c, Fits out s ∧ out.length ≤ bits.length ∧ t = raise .invalidCode (walked out rest c s)) := by
  induction bits generalizing s with
  | nil =>
    refine ⟨[], s.cand, Fits.nil s, Nat.le_refl _, ?_⟩
    rw [walked, appended_nil, ← hb]
  | cons b bits ih =>
    have hone : (walkBit b { s with bitbuf := bits }).Ends
        (fun t => ∃ out c, Fits out s ∧ out.length ≤ 1 ∧ t = walked out bits c s)
        (fun t => ∃ out rest c, Fits out s ∧ out.length ≤ bits.length + 1 ∧
          t = raise .invalidCode (walked out rest c s)) := by
      rw [walkBit_eq]
      split
      · next y _ =>
        refine (writeSeq_ends' [y] _).weaken (fun t ht => ht) (fun _ h => h.elim) |>.andThen ?_
        rintro t ⟨rfl, hf⟩
        exact ⟨[y], [], hf, Nat.le_refl _, rfl⟩
      · split
        · exact ⟨[], bits, s.cand ++ [b], Fits.nil s, Nat.zero_le _, by rw [walked, appended_nil]⟩
        · exact ⟨[], s.cand ++ [b], Fits.nil s, Nat.zero_le _, by rw [walked, appended_nil]⟩
    rw [walkBits]
    refine hone.andThen ?_
    rintro t ⟨out, c, hf, hl, rfl⟩
    have hf' : Fits out { s with bitbuf := bits, cand := c } := hf
    have hlift : ∀ out', Fits out' (walked out bits c s) → Fits (out ++ out') s := fun out' h' =>
      Fits.append (s := { s with bitbuf := bits, cand := c }) hf' h'
    refine (ih (walked out bits c s) (by simp [walked])).weaken ?_ ?_
    · rintro u ⟨out', c', hfu, hlu, rfl⟩
      exact ⟨out ++ out', c', hlift out' hfu, by simp only [List.length_append, List.length_cons]; omega,
        walked_walked (hlift out' hfu)⟩
    · rintro u ⟨out', r', c', hfu, hlu, rfl⟩
      exact ⟨out ++ out', r', c', hlift out' hfu, by rw [List.length_append]; omega,
        by rw [walked_walked (hlift out' hfu)]⟩

/-! ### `parse` of R214 is the walk -/

/-- The walk from a candidate that is no key, nor any of its extensions so far, looks for the shortest key that extends
it. -/
theorem scan_eq_shortest (dec : DecTable) (hk : ∀ k y, dec.lookup k = some y → k.length ≤ 255) (fuel : Nat)
    (cand bits : Bits) (hc : cand.length + fuel = 255) :
    scan dec cand bits =
      match shortestKey dec (cand ++ bits) (cand.length + 1) fuel with
      | some (n, y) => ParseEnd.cons y (scan dec [] ((cand ++ bits).drop n))
      | none => if 256 ≤ (cand ++ bits).length then ([], .invalid) else ([], .done (cand ++ bits)) := by
  have h255 : Config.maxLen = 255 := rfl
  induction fuel generalizing cand bits with
  | zero =>
    simp only [shortestKey]
    cases bits with
    | nil =>
      rw [scan, List.append_nil, if_neg (by omega)]
    | cons b bits =>
      have hlen : (cand ++ [b]).length = 256 := by rw [List.length_append, List.length_singleton]; omega
      have hlook : dec.lookup (cand ++ [b]) = none := by
        cases hy : dec.lookup (cand ++ [b]) with
        | none => rfl
        | some y => have := hk _ _ hy; omega
      rw [scan, hlook]
      simp only
      rw [if_pos (by omega), if_pos (by simp only [List.length_append, List.length_cons]; omega)]
  | succ fuel ih =>
    cases bits with
    | nil =>
      rw [scan, List.append_nil, shortestKey, if_neg (by omega)]
      simp only
      rw [if_neg (by omega)]
    | cons b bits =>
      have happ : cand ++ b :: bits = (cand ++ [b]) ++ bits := by simp
      have hlen : (cand ++ [b]).length = cand.length + 1 := by rw [List.length_append, List.length_singleton]
      have htake : (cand ++ b :: bits).take (cand.length + 1) = cand ++ [b] := by
        rw [happ, List.take_append_of_le_length (by omega)]
        exact List.take_of_length_le (by omega)
      have hdrop : (cand ++ b :: bits).drop (cand.length + 1) = bits := by
        rw [happ, List.drop_append_of_le_length (by omega), List.drop_eq_nil_of_le (by omega), List.nil_append]
      have hcond : cand.length + 1 ≤ (cand ++ b :: bits).length ∧ cand.length + 1 ≤ 255 := by
        rw [List.length_append, List.length_cons]; omega
      rw [scan, shortestKey, if_pos hcond, htake]
      cases hlook : dec.lookup (cand ++ [b]) with
      | some y => simp only [hdrop]
      | none =>
        simp only
        rw [if_neg (show ¬ (cand ++ [b]).length > Config.maxLen by omega), ih (cand ++ [b]) bits (by omega), ← happ, hlen]

/-- `parse` is the walk from the empty candidate (R214). -/
theorem scan_eq_parse (dec : DecTable) (hk : ∀ k y, dec.lookup k = some y → k.length ≤ 255) (fuel : Nat) (bits : Bits)
    (hf : bits.length ≤ fuel) : scan dec [] bits = parseBits dec fuel bits := by
  induction fuel generalizing bits with
  | zero =>
    have : bits = [] := List.length_eq_zero_iff.1 (by omega)
    subst this; rfl
  | succ fuel ih =>
    rw [parseBits, scan_eq_shortest dec hk 255 [] bits rfl]
    have hpos : ∀ n y f m, shortestKey dec bits m f = some (n, y) → m ≤ n ∧ n ≤ bits.length := by
      intro n y f
      induction f with
      | zero => intro m h; simp [shortestKey] at h
      | succ f ihf =>
        intro m h
        rw [shortestKey] at h
        split at h
        · next hm =>
          split at h
          · cases h; exact ⟨Nat.le_refl _, hm.1⟩
          · have := ihf _ h; exact ⟨by omega, this.2⟩
        · cases h
    rw [List.nil_append, List.length_nil]
    cases hs : shortestKey dec bits (0 + 1) 255 with
    | none => rfl
    | some p =>
      obtain ⟨n, y⟩ := p
      have := hpos n y 255 1 hs
      simp only
      rw [ih _ (by rw [List.length_drop]; omega)]

/-! ### The chunks -/

/-- The bits a chunk puts before the walk: what the buffer held, the chunk's bytes, and on the final chunk without the
padding (R204, R208, R209). -/
def chunkBuffer (s : State) (bytes : List Byte) : Bits :=
  if s.srcPos.toNat + chunkBytes s = s.srcSize.toNat then
    (s.bitbuf ++ Bit.unpack bytes).take
      ((s.bitbuf ++ Bit.unpack bytes).length - min s.pad.toNat (s.bitbuf ++ Bit.unpack bytes).length)
  else s.bitbuf ++ Bit.unpack bytes

theorem decodeChunk_eq (s : State) :
    decodeChunk s = withValue (memRead s s.srcPos.toNat (chunkBytes s)) fun bytes =>
      walkBits (chunkBuffer s bytes)
        { s with bitbuf := chunkBuffer s bytes, srcPos := s.srcPos + BitVec.ofNat 64 (chunkBytes s) } := by
  simp only [decodeChunk, fillBuffer]
  cases memRead s s.srcPos.toNat (chunkBytes s) with
  | error f => rfl
  | ok bytes =>
    simp only [withValue_ok, Flow.andThen_on, appendBytes_eq, advanceSource, chunkBuffer, dropPadding, walk]
    split <;> rfl

/-- What a chunk step can change (R42, R204). -/
theorem decodeChunk_ends (s : State) :
    (decodeChunk s).Ends
      (fun t => ∃ out c, Fits out s ∧ out.length ≤ s.bitbuf.length + 8 * chunkBytes s ∧
        t = walked out [] c { s with srcPos := s.srcPos + BitVec.ofNat 64 (chunkBytes s) })
      (fun t => ∃ out rest c, Fits out s ∧ out.length ≤ s.bitbuf.length + 8 * chunkBytes s ∧
        t = raise .invalidCode
          (walked out rest c { s with srcPos := s.srcPos + BitVec.ofNat 64 (chunkBytes s) })) := by
  rw [decodeChunk_eq]
  refine Flow.Ends.withValue fun bytes hbytes => ?_
  have hl : (chunkBuffer s bytes).length ≤ s.bitbuf.length + 8 * chunkBytes s := by
    have := (memRead_eq_ok.1 hbytes).1
    unfold chunkBuffer
    split
    · rw [List.length_take, List.length_append, Bit.unpack_length]; omega
    · rw [List.length_append, Bit.unpack_length]; omega
  refine (walkBits_ends (chunkBuffer s bytes) { s with
    bitbuf := chunkBuffer s bytes, srcPos := s.srcPos + BitVec.ofNat 64 (chunkBytes s) } rfl).weaken ?_ ?_
  · rintro t ⟨out, c, hf, ho, rfl⟩
    exact ⟨out, c, hf, by omega, rfl⟩
  · rintro t ⟨out, r, c, hf, ho, rfl⟩
    exact ⟨out, r, c, hf, by omega, rfl⟩

/-- The final chunk's size is that of what is left, whichever chunk comes next (R205). -/
theorem finalChunk_step {c b : Nat} (hc : 1 ≤ c) (h : c < b) : finalChunk c (b - c) = finalChunk c b := by
  have h1 : b - 1 = (b - c - 1) + c := by omega
  have h2 : (b - 1) / c = (b - c - 1) / c + 1 := by
    rw [h1, Nat.add_div_right _ hc]
  unfold finalChunk
  rw [h2, Nat.mul_add, Nat.mul_one]
  omega

theorem finalChunk_last {c b : Nat} (h : b ≤ c) : finalChunk c b = b := by
  unfold finalChunk
  by_cases hb : b = 0
  · subst hb; simp
  · rw [Nat.div_eq_of_lt (by omega)]; omega

theorem finalChunk_le (c b : Nat) : finalChunk c b ≤ b := Nat.sub_le _ _

theorem payloadBits_last {c : Nat} (pad : Byte) {payload : List Byte} (h : payload.length ≤ c) :
    payloadBits c pad payload =
      (Bit.unpack payload).take ((Bit.unpack payload).length - min pad.toNat (Bit.unpack payload).length) := by
  rw [payloadBits, finalChunk_last h, Bit.unpack_length]

theorem unpack_take_drop (n : Nat) (bytes : List Byte) :
    Bit.unpack (bytes.take n) ++ Bit.unpack (bytes.drop n) = Bit.unpack bytes := by
  rw [← Bit.unpack_append, List.take_append_drop]

theorem payloadBits_step {c : Nat} (pad : Byte) {payload : List Byte} (hc : 1 ≤ c) (h : c < payload.length) :
    payloadBits c pad payload = Bit.unpack (payload.take c) ++ payloadBits c pad (payload.drop c) := by
  have hl : (payload.drop c).length = payload.length - c := List.length_drop
  have hfl := finalChunk_le c (payload.length - c)
  rw [payloadBits, payloadBits, hl, finalChunk_step hc h, ← unpack_take_drop c payload, List.take_append,
    Bit.unpack_length]
  rw [finalChunk_step hc h] at hfl
  have ht : (payload.take c).length = c := by rw [List.length_take]; omega
  rw [List.take_of_length_le (by rw [Bit.unpack_length, ht]; omega), ht]
  congr 2; omega

/-- A chunk step on bytes that are there (R204 to R211). -/
theorem decodeChunk_on {s : State} {payload : List Byte} (hb : s.bitbuf = [])
    (hl : s.srcPos.toNat + payload.length = s.srcSize.toNat)
    (hsrc : ∀ k (h : k < payload.length), s.src.read (s.srcPos.toNat + k) = some payload[k]) :
    decodeChunk s =
      walkBits (chunkBuffer s (payload.take s.params.chunkSize))
        { s with
          bitbuf := chunkBuffer s (payload.take s.params.chunkSize)
          srcPos := s.srcPos + BitVec.ofNat 64 (payload.take s.params.chunkSize).length } ∧
    chunkBuffer s (payload.take s.params.chunkSize) =
      (if payload.length ≤ s.params.chunkSize then payloadBits s.params.chunkSize s.pad payload
        else Bit.unpack (payload.take s.params.chunkSize)) := by
  have hn : chunkBytes s = (payload.take s.params.chunkSize).length := by
    rw [chunkBytes, List.length_take]; omega
  have hread : memRead s s.srcPos.toNat (chunkBytes s) = .ok (payload.take s.params.chunkSize) := by
    refine memRead_eq_ok.2 ⟨hn.symm, fun k hk => ?_⟩
    have hk' : k < payload.length := by rw [List.length_take] at hk; omega
    refine ⟨by omega, ?_⟩
    rw [hsrc k hk', List.getElem_take]
  refine ⟨by rw [decodeChunk_eq, hread, withValue_ok, hn], ?_⟩
  rw [chunkBuffer, hb, List.nil_append, hn, List.length_take]
  by_cases h : payload.length ≤ s.params.chunkSize
  · rw [if_pos h, if_pos (by omega), List.take_of_length_le h, payloadBits_last _ h]
  · rw [if_neg h, if_neg (by omega)]

end Sys2Proof.Machine
end

