-- ==== Sys2Proof/Laws/CodeTree.lean ====
section
/-! SUPPORT. The laws of `buildTree` and `generateCodes` (spec/41_codetree.md): the leaves, the forest the combining
loop keeps, the tree it ends with, and the codes read off it. -/

namespace Sys2Proof.Machine

/-! ### The priority queue -/

theorem pqMin_eq_none {nodes : RegFile 511 Node} {q : List NodeId} : pqMin nodes q = none ↔ q = [] := by
  cases q with
  | nil => simp [pqMin]
  | cons i q =>
    simp only [pqMin]
    split
    · simp
    · split <;> simp

theorem pqMin_mem {nodes : RegFile 511 Node} {q : List NodeId} {a : NodeId} (h : pqMin nodes q = some a) : a ∈ q := by
  induction q generalizing a with
  | nil => simp [pqMin] at h
  | cons i q ih =>
    simp only [pqMin] at h
    split at h
    · simp_all
    · next j hj =>
      have := ih hj
      split at h <;> simp_all

/-- `nodeBefore` is the strict order of weight, then id (R34). -/
theorem nodeBefore_iff {nodes : RegFile 511 Node} {a b : NodeId} :
    nodeBefore nodes a b = true ↔
      (nodes.get a).weight.toNat < (nodes.get b).weight.toNat ∨
        (nodes.get a).weight.toNat = (nodes.get b).weight.toNat ∧ a < b := by
  simp [nodeBefore, BitVec.toNat_inj]

theorem nodeBefore_trans {nodes : RegFile 511 Node} {a b c : NodeId} (h : nodeBefore nodes a b = true)
    (h' : nodeBefore nodes b c = true) : nodeBefore nodes a c = true := by
  rw [nodeBefore_iff] at *
  rcases h with h | ⟨h, hl⟩ <;> rcases h' with h' | ⟨h', hl'⟩
  · left; omega
  · left; omega
  · left; omega
  · right; exact ⟨by omega, Fin.lt_trans hl hl'⟩

theorem nodeBefore_total {nodes : RegFile 511 Node} {a b : NodeId} (h : a ≠ b) :
    nodeBefore nodes a b = true ∨ nodeBefore nodes b a = true := by
  rw [nodeBefore_iff, nodeBefore_iff]
  have : a.val ≠ b.val := fun e => h (Fin.ext e)
  simp only [Fin.lt_def]
  omega

/-- `min(PQ)` is an element of `PQ`, and comes before every other one (R34, R132). -/
theorem pqMin_least {nodes : RegFile 511 Node} {q : List NodeId} {a : NodeId} (h : pqMin nodes q = some a) :
    ∀ j ∈ q, j ≠ a → nodeBefore nodes a j = true := by
  induction q generalizing a with
  | nil => simp
  | cons i q ih =>
    simp only [pqMin] at h
    split at h
    · next hn =>
      rw [pqMin_eq_none] at hn
      subst hn
      cases h
      intro j hj hne
      simp at hj
      exact absurd hj hne
    · next k hk =>
      split at h
      · next hb =>
        cases h
        intro j hj hne
        rcases List.mem_cons.1 hj with rfl | hj
        · exact hb
        · exact ih hk j hj hne
      · next hb =>
        simp only [Option.some.injEq] at h
        subst h
        intro j hj hne
        rcases List.mem_cons.1 hj with rfl | hq
        · exact absurd rfl hne
        · by_cases hki : k = i
          · subst hki; exact ih hk j hq hne
          · have hak : nodeBefore nodes i k = true := by
              rcases nodeBefore_total (nodes := nodes) hki with h | h
              · exact absurd h hb
              · exact h
            by_cases hjk : j = k
            · subst hjk; exact hak
            · exact nodeBefore_trans hak (ih hk j hq hjk)

theorem mem_pqAdd {i j : NodeId} {q : List NodeId} : j ∈ pqAdd i q ↔ j = i ∨ j ∈ q := by
  induction q with
  | nil => simp [pqAdd]
  | cons k q ih =>
    simp only [pqAdd]
    split
    · simp
    · split
      · next h => subst h; simp
      · simp only [List.mem_cons, ih]
        constructor <;> rintro (h | h | h) <;> simp [h]

/-- `PQ` is a set: the ids stay strictly rising. -/
theorem pqAdd_rising {i : NodeId} {q : List NodeId} (h : q.Pairwise (· < ·)) : (pqAdd i q).Pairwise (· < ·) := by
  induction q with
  | nil => simp [pqAdd]
  | cons k q ih =>
    rw [List.pairwise_cons] at h
    simp only [pqAdd]
    split
    · next hik =>
      rw [List.pairwise_cons]
      refine ⟨fun j hj => ?_, List.pairwise_cons.2 h⟩
      rcases List.mem_cons.1 hj with rfl | hj
      · exact hik
      · exact Fin.lt_trans hik (h.1 j hj)
    · split
      · exact List.pairwise_cons.2 h
      · next h1 h2 =>
        rw [List.pairwise_cons]
        refine ⟨fun j hj => ?_, ih h.2⟩
        rcases mem_pqAdd.1 hj with rfl | hj
        · have : k.val ≠ j.val := fun e => h2 (Fin.ext e.symm)
          simp only [Fin.lt_def] at *
          omega
        · exact h.1 j hj

theorem pqAdd_length {i : NodeId} {q : List NodeId} (h : i ∉ q) : (pqAdd i q).length = q.length + 1 := by
  induction q with
  | nil => rfl
  | cons k q ih =>
    simp only [List.mem_cons, not_or] at h
    simp only [pqAdd]
    split
    · rfl
    · rw [if_neg h.1, List.length_cons, ih h.2, List.length_cons]

theorem rising_nodup {q : List NodeId} (h : q.Pairwise (· < ·)) : q.Nodup :=
  h.imp fun {a b} hab e => by subst e; exact absurd hab (Nat.lt_irrefl _)

/-! ### The forest the combining loop keeps -/

/-- The leaf of a symbol (R131). -/
def leafNode (w : BitVec 64) (b : Symbol) : Node :=
  { weight := w, sym := some b, parent := none, left := none, right := none }

/-- `m` nodes have been created, the first `n` of them leaves, and `q` holds the roots (R33, R131, R132). -/
structure Forest (n m : Nat) (nodes : RegFile 511 Node) (q : List NodeId) : Prop where
  count : m + q.length = 2 * n
  leaves_le : n ≤ m
  fits : n ≤ 256
  rising : q.Pairwise (· < ·)
  roots : ∀ i : NodeId, i ∈ q ↔ i.val < m ∧ (nodes.get i).parent = none
  parents : ∀ i p : NodeId, i.val < m → (nodes.get i).parent = some p →
    i < p ∧ p.val < m ∧ n ≤ p.val ∧ ((nodes.get p).left = some i ∨ (nodes.get p).right = some i)
  leaves : ∀ i : NodeId, i.val < n →
    (nodes.get i).sym.isSome = true ∧ (nodes.get i).left = none ∧ (nodes.get i).right = none
  inner : ∀ i : NodeId, n ≤ i.val → i.val < m → (nodes.get i).sym = none ∧
    ∃ a b : NodeId, a ≠ b ∧ (nodes.get i).left = some a ∧ (nodes.get i).right = some b ∧ a < i ∧ b < i ∧
      (nodes.get a).parent = some i ∧ (nodes.get b).parent = some i ∧
      (nodes.get i).weight = (nodes.get a).weight + (nodes.get b).weight

/-- The arena after two nodes were combined (R132): the new node, the two parent links, all else as it was. -/
theorem combined_get {nodes : RegFile 511 Node} {a b i : NodeId} {inner : Node} (hab : a ≠ b) (hai : a ≠ i)
    (hbi : b ≠ i) (j : NodeId) :
    (setParent i b (setParent i a (nodes.set i inner))).get j =
      if j = i then inner else if j = a ∨ j = b then { nodes.get j with parent := some i } else nodes.get j := by
  simp only [setParent]
  rw [RegFile.get_set]
  split
  · next h =>
    subst h
    rw [if_neg hbi, if_pos (Or.inr rfl), RegFile.get_set_ne _ _ hab, RegFile.get_set_ne _ _ hbi.symm]
  · next h =>
    rw [RegFile.get_set]
    split
    · next h' =>
      subst h'
      rw [if_neg hai, if_pos (Or.inl rfl), RegFile.get_set_ne _ _ hai.symm]
    · next h' =>
      rw [RegFile.get_set]
      split
      · next h'' => subst h''; simp
      · next h'' =>
        rw [if_neg (Ne.symm h''), if_neg fun e => e.elim (fun e => h' e.symm) fun e => h e.symm]

/-- Combining two roots keeps the forest (R132). -/
theorem Forest.combine {n m : Nat} {nodes : RegFile 511 Node} {q : List NodeId} {a b i : NodeId}
    (h : Forest n m nodes q) (ha : a ∈ q) (hb : b ∈ q.erase a) (hi : i.val = m) :
    Forest n (m + 1)
      (setParent i b (setParent i a (nodes.set i
        { weight := (nodes.get a).weight + (nodes.get b).weight, sym := none, parent := none, left := some a,
          right := some b })))
      (pqAdd i ((q.erase a).erase b)) := by
  have hnd : q.Nodup := rising_nodup h.rising
  have hb' : b ≠ a ∧ b ∈ q := by rwa [hnd.mem_erase_iff] at hb
  have hra := (h.roots a).1 ha
  have hrb := (h.roots b).1 hb'.2
  have hab : a ≠ b := fun e => hb'.1 e.symm
  have hai : a ≠ i := fun e => by subst e; omega
  have hbi : b ≠ i := fun e => by subst e; omega
  have hget := combined_get (nodes := nodes) (inner :=
    { weight := (nodes.get a).weight + (nodes.get b).weight, sym := none, parent := none, left := some a,
      right := some b }) hab hai hbi
  have hlen1 : (q.erase a).length = q.length - 1 := List.length_erase_of_mem ha
  have hlen2 : ((q.erase a).erase b).length = q.length - 1 - 1 := by rw [List.length_erase_of_mem hb, hlen1]
  have hpos : 0 < (q.erase a).length := List.length_pos_of_mem hb
  have hnd1 : (q.erase a).Nodup := hnd.erase a
  have hmem : ∀ j, j ∈ (q.erase a).erase b ↔ j ≠ b ∧ j ≠ a ∧ j ∈ q := by
    intro j; rw [hnd1.mem_erase_iff, hnd.mem_erase_iff]
  have hiq : i ∉ (q.erase a).erase b := by
    rw [hmem]; intro hh; have := ((h.roots i).1 hh.2.2).1; omega
  generalize setParent i b (setParent i a (nodes.set i
        { weight := (nodes.get a).weight + (nodes.get b).weight, sym := none, parent := none, left := some a,
          right := some b })) = nodes' at hget
  have hi511 := i.isLt
  refine ⟨?_, ?_, h.fits, ?_, ?_, ?_, ?_, ?_⟩
  · rw [pqAdd_length hiq, hlen2]; have := h.count; omega
  · have := h.leaves_le; omega
  · exact pqAdd_rising ((h.rising.sublist List.erase_sublist).sublist List.erase_sublist)
  · intro j
    rw [mem_pqAdd, hmem, hget]
    constructor
    · rintro (rfl | ⟨hjb, hja, hj⟩)
      · simp; omega
      · have := (h.roots j).1 hj
        have hji : j ≠ i := fun e => by subst e; omega
        rw [if_neg hji, if_neg (by simp [hja, hjb])]
        exact ⟨by omega, this.2⟩
    · rintro ⟨hlt, hp⟩
      split at hp
      · next e => exact Or.inl e
      · next hji =>
        split at hp
        · simp at hp
        · next hn =>
          simp only [not_or] at hn
          have : j.val ≠ i.val := fun e => hji (Fin.ext e)
          exact Or.inr ⟨hn.2, hn.1, (h.roots j).2 ⟨by omega, hp⟩⟩
  · intro j p hj hp
    rw [hget] at hp
    split at hp
    · simp at hp
    · next hji =>
      have hjm : j.val < m := by have : j.val ≠ i.val := fun e => hji (Fin.ext e); omega
      split at hp
      · next hjab =>
        cases hp
        refine ⟨by rw [Fin.lt_def]; omega, by omega, by have := h.leaves_le; omega, ?_⟩
        rw [hget, if_pos rfl]
        rcases hjab with rfl | rfl
        · exact Or.inl rfl
        · exact Or.inr rfl
      · obtain ⟨h1, h2, h3, h4⟩ := h.parents j p hjm hp
        have hpi : p ≠ i := fun e => by subst e; omega
        refine ⟨h1, by omega, h3, ?_⟩
        rw [hget, if_neg hpi]
        split <;> exact h4
  · intro j hj
    have hji : j ≠ i := fun e => by subst e; have := h.leaves_le; omega
    rw [hget, if_neg hji]
    split <;> exact h.leaves j hj
  · intro j hj hjm
    by_cases hji : j = i
    · subst hji
      refine ⟨by rw [hget, if_pos rfl], a, b, hab, ?_, ?_, ?_, ?_, ?_, ?_, ?_⟩
      · rw [hget, if_pos rfl]
      · rw [hget, if_pos rfl]
      · rw [Fin.lt_def]; omega
      · rw [Fin.lt_def]; omega
      · rw [hget, if_neg hai, if_pos (Or.inl rfl)]
      · rw [hget, if_neg hbi, if_pos (Or.inr rfl)]
      · rw [hget, if_pos rfl, hget, if_neg hai, if_pos (Or.inl rfl), hget, if_neg hbi, if_pos (Or.inr rfl)]
    · have hjm' : j.val < m := by have : j.val ≠ i.val := fun e => hji (Fin.ext e); omega
      obtain ⟨hs, c, d, hcd, hl, hr, hcl, hdl, hpc, hpd, hw⟩ := h.inner j hj hjm'
      have hci : c ≠ i := fun e => by subst e; rw [Fin.lt_def] at hcl; omega
      have hdi : d ≠ i := fun e => by subst e; rw [Fin.lt_def] at hdl; omega
      have hcab : ¬ (c = a ∨ c = b) := by
        rintro (e | e) <;> subst e <;> simp_all
      have hdab : ¬ (d = a ∨ d = b) := by
        rintro (e | e) <;> subst e <;> simp_all
      have hj' : ∀ x : Node, (if j = a ∨ j = b then { nodes.get j with parent := some i } else nodes.get j) = x →
          x.sym = (nodes.get j).sym ∧ x.left = (nodes.get j).left ∧ x.right = (nodes.get j).right ∧
            x.weight = (nodes.get j).weight := by
        intro x hx; subst hx; split <;> exact ⟨rfl, rfl, rfl, rfl⟩
      obtain ⟨e1, e2, e3, e4⟩ := hj' _ rfl
      have hgj := hget j
      rw [if_neg hji] at hgj
      have hgc : nodes'.get c = nodes.get c := by rw [hget c, if_neg hci, if_neg hcab]
      have hgd : nodes'.get d = nodes.get d := by rw [hget d, if_neg hdi, if_neg hdab]
      rw [hgj, e1, e2, e3, e4]
      exact ⟨hs, c, d, hcd, hl, hr, hcl, hdl, by rw [hgc, hpc], by rw [hgd, hpd], by rw [hgc, hgd, hw]⟩

/-! ### The leaves -/

/-- The symbols whose counters, from symbol `k` on, are not 0, in ascending order, with their counters (R131). -/
def presentFrom : List (BitVec 64) → Nat → List (Symbol × BitVec 64)
  | [], _ => []
  | w :: ws, k => if 1 ≤ w.toNat then (BitVec.ofNat 8 k, w) :: presentFrom ws (k + 1) else presentFrom ws (k + 1)

/-- The symbols that occur, in ascending order, with their counts (R32, R131). -/
def present (freq : RegFile 256 (BitVec 64)) : List (Symbol × BitVec 64) := presentFrom freq.cells 0

theorem presentFrom_length_le (ws : List (BitVec 64)) (k : Nat) : (presentFrom ws k).length ≤ ws.length := by
  induction ws generalizing k with
  | nil => simp [presentFrom]
  | cons w ws ih =>
    have := ih (k + 1)
    simp only [presentFrom]
    split <;> simp <;> omega

theorem present_length_le (freq : RegFile 256 (BitVec 64)) : (present freq).length ≤ 256 := by
  have := presentFrom_length_le freq.cells 0
  rw [freq.size_eq] at this
  exact this

theorem mem_presentFrom {ws : List (BitVec 64)} {k : Nat} {b : Symbol} {w : BitVec 64} :
    (b, w) ∈ presentFrom ws k ↔ 1 ≤ w.toNat ∧ ∃ i, ∃ h : i < ws.length, ws[i] = w ∧ b = BitVec.ofNat 8 (k + i) := by
  induction ws generalizing k with
  | nil => simp [presentFrom]
  | cons v ws ih =>
    constructor
    · intro h
      simp only [presentFrom] at h
      have go : (b, w) ∈ presentFrom ws (k + 1) → 1 ≤ w.toNat ∧ ∃ i, ∃ h : i < (v :: ws).length,
          (v :: ws)[i] = w ∧ b = BitVec.ofNat 8 (k + i) := by
        intro h
        obtain ⟨hw, i, hi, h1, h2⟩ := ih.1 h
        exact ⟨hw, i + 1, by simpa using hi, by simpa using h1, by rw [h2]; congr 1; omega⟩
      split at h
      · next hv =>
        rcases List.mem_cons.1 h with h | h
        · cases h
          exact ⟨hv, 0, by simp, rfl, rfl⟩
        · exact go h
      · exact go h
    · rintro ⟨hw, i, hi, h1, h2⟩
      simp only [presentFrom]
      cases i with
      | zero =>
        simp only [List.getElem_cons_zero] at h1
        subst h1 h2
        rw [if_pos hw]
        exact List.mem_cons_self
      | succ i =>
        have : (b, w) ∈ presentFrom ws (k + 1) :=
          ih.2 ⟨hw, i, by simpa using hi, by simpa using h1, by rw [h2]; congr 1; omega⟩
        split
        · exact List.mem_cons_of_mem _ this
        · exact this

/-- A symbol is present exactly with its counter, when that is at least 1 (R32). -/
theorem mem_present {freq : RegFile 256 (BitVec 64)} {b : Symbol} {w : BitVec 64} :
    (b, w) ∈ present freq ↔ 1 ≤ w.toNat ∧ freq.get (symIndex b) = w := by
  rw [present, mem_presentFrom]
  constructor
  · rintro ⟨hw, i, hi, h1, h2⟩
    refine ⟨hw, ?_⟩
    have hi' : i < 256 := by rw [← freq.size_eq]; exact hi
    have : symIndex b = ⟨i, hi'⟩ := by
      apply Fin.ext
      simp only [h2, symIndex, Nat.zero_add, BitVec.toNat_ofNat]
      omega
    rw [this]; exact h1
  · rintro ⟨hw, h⟩
    refine ⟨hw, b.toNat, by rw [freq.size_eq]; exact b.isLt, ?_, by simp⟩
    rw [RegFile.cells_getElem]; exact h

/-- The present symbols rise strictly. -/
theorem presentFrom_rising (ws : List (BitVec 64)) (k : Nat) (h : k + ws.length ≤ 256) :
    (presentFrom ws k).Pairwise (fun x y => x.1.toNat < y.1.toNat) := by
  induction ws generalizing k with
  | nil => exact List.Pairwise.nil
  | cons w ws ih =>
    rw [List.length_cons] at h
    have := ih (k + 1) (by omega)
    simp only [presentFrom]
    split
    · rw [List.pairwise_cons]
      refine ⟨fun e he => ?_, this⟩
      obtain ⟨b, v⟩ := e
      obtain ⟨-, i, hi, -, rfl⟩ := mem_presentFrom.1 he
      simp only [BitVec.toNat_ofNat]
      omega
    · exact this

theorem present_rising (freq : RegFile 256 (BitVec 64)) :
    (present freq).Pairwise (fun x y => x.1.toNat < y.1.toNat) :=
  presentFrom_rising _ _ (by have := freq.size_eq; omega)

theorem present_inj {freq : RegFile 256 (BitVec 64)} {i j : Nat} (hi : i < (present freq).length)
    (hj : j < (present freq).length) (h : (present freq)[i].1 = (present freq)[j].1) : i = j := by
  have hp := List.pairwise_iff_getElem.1 (present_rising freq)
  rcases Nat.lt_trichotomy i j with hlt | heq | hgt
  · have := hp i j hi hj hlt; rw [h] at this; omega
  · exact heq
  · have := hp j i hj hi hgt; rw [h] at this; omega

/-- Part 1 adds the present symbols as leaves with the next ids, in order (R131). -/
theorem addLeaves_spec (ws : List (BitVec 64)) (k : Nat) (s : State) (n : Nat) (hn : s.nnodes.toNat = n)
    (hlen : n + ws.length ≤ 256) (hpq : s.pq = (List.range n).map (Fin.ofNat 511)) :
    ∃ nodes, addLeaves ws k s = { s with
        node := nodes
        nnodes := BitVec.ofNat 10 (n + (presentFrom ws k).length)
        pq := (List.range (n + (presentFrom ws k).length)).map (Fin.ofNat 511) } ∧
      (∀ i : NodeId, i.val < n → nodes.get i = s.node.get i) ∧
      (∀ j (hj : j < (presentFrom ws k).length) (i : NodeId), i.val = n + j →
        nodes.get i = leafNode (presentFrom ws k)[j].2 (presentFrom ws k)[j].1) := by
  induction ws generalizing k s n with
  | nil =>
    refine ⟨s.node, ?_, fun _ _ => rfl, fun j hj => absurd hj (by simp [presentFrom])⟩
    have h1 : BitVec.ofNat 10 n = s.nnodes := by rw [← hn]; simp
    simp [addLeaves, presentFrom, h1, ← hpq]
  | cons w ws ih =>
    rw [List.length_cons] at hlen
    rw [addLeaves]
    by_cases hw : 1 ≤ w.toNat
    · rw [if_pos hw]
      have hid : (nextId s).val = n := by
        simp only [nextId, hn, Fin.ofNat]
        omega
      have hpq' : pqAdd (nextId s) s.pq = (List.range (n + 1)).map (Fin.ofNat 511) := by
        have hne : nextId s = Fin.ofNat 511 n := by rw [nextId, hn]
        rw [hne, hpq, List.range_succ, List.map_append]
        have key : ∀ l : List Nat, (∀ x ∈ l, x < n) → pqAdd (Fin.ofNat 511 n) (l.map (Fin.ofNat 511)) =
            l.map (Fin.ofNat 511) ++ [Fin.ofNat 511 n] := by
          intro l hl
          induction l with
          | nil => rfl
          | cons x l ihl =>
            have hx := hl x (by simp)
            have h1 : ¬ (Fin.ofNat 511 n : NodeId) < Fin.ofNat 511 x := by
              rw [Fin.lt_def]; simp only [Fin.ofNat]; omega
            have h2 : ¬ (Fin.ofNat 511 n : NodeId) = Fin.ofNat 511 x := by
              intro e
              have := congrArg Fin.val e
              simp only [Fin.ofNat] at this
              omega
            simp only [List.map_cons, pqAdd, h1, h2, if_false, List.cons_append]
            rw [ihl fun y hy => hl y (by simp [hy])]
        exact key _ fun x hx => by simpa using hx
      have hn' : (addLeaf (BitVec.ofNat 8 k) w s).nnodes.toNat = n + 1 := by
        simp only [addLeaf, BitVec.toNat_add, hn]
        simp
        omega
      obtain ⟨nodes, he, hold, hnew⟩ := ih (k + 1) (addLeaf (BitVec.ofNat 8 k) w s) (n + 1) hn' (by omega) hpq'
      have hp : presentFrom (w :: ws) k = (BitVec.ofNat 8 k, w) :: presentFrom ws (k + 1) := by
        simp [presentFrom, hw]
      refine ⟨nodes, ?_, ?_, ?_⟩
      · rw [he, hp, List.length_cons, show n + ((presentFrom ws (k + 1)).length + 1) =
          n + 1 + (presentFrom ws (k + 1)).length by omega]
        rfl
      · intro i hi
        rw [hold i (by omega)]
        exact RegFile.get_set_ne _ _ fun e => by rw [← e] at hi; omega
      · intro j hj i hi
        cases j with
        | zero =>
          rw [hold i (by omega)]
          have : i = nextId s := Fin.ext (by omega)
          subst this
          simp only [hp, List.getElem_cons_zero]
          exact RegFile.get_set_same _ _ _
        | succ j =>
          simp only [hp, List.getElem_cons_succ]
          exact hnew j (by rw [hp] at hj; simpa using hj) i (by omega)
    · rw [if_neg hw]
      have hp : presentFrom (w :: ws) k = presentFrom ws (k + 1) := by simp [presentFrom, hw]
      rw [hp]
      exact ih (k + 1) s n hn (by omega) hpq

/-- Part 1 of `buildTree` (R131): leaf `j` is the `j`-th symbol that occurs. -/
theorem buildLeaves_spec (s : State) :
    ∃ nodes, buildLeaves s = { s with
        node := nodes
        nnodes := BitVec.ofNat 10 (present s.freq).length
        nleaf := BitVec.ofNat 9 (present s.freq).length
        pq := (List.range (present s.freq).length).map (Fin.ofNat 511) } ∧
      ∀ j (hj : j < (present s.freq).length) (i : NodeId), i.val = j →
        nodes.get i = leafNode (present s.freq)[j].2 (present s.freq)[j].1 := by
  obtain ⟨nodes, he, -, hnew⟩ := addLeaves_spec s.freq.cells 0 { s with nnodes := 0, pq := [] } 0 rfl
    (by have := s.freq.size_eq; omega) rfl
  refine ⟨nodes, ?_, fun j hj i hi => hnew j hj i (by omega)⟩
  rw [buildLeaves, he]
  have := present_length_le s.freq
  simp only [countLeaves, present, Nat.zero_add, State.mk.injEq, and_true, true_and] at *
  apply BitVec.eq_of_toNat_eq
  simp only [BitVec.toNat_setWidth, BitVec.toNat_ofNat]
  omega

/-- The leaves are a forest of single nodes (R131). -/
theorem leaves_forest {freq : RegFile 256 (BitVec 64)} {nodes : RegFile 511 Node}
    (h : ∀ j (hj : j < (present freq).length) (i : NodeId), i.val = j →
      nodes.get i = leafNode (present freq)[j].2 (present freq)[j].1) :
    Forest (present freq).length (present freq).length nodes
      ((List.range (present freq).length).map (Fin.ofNat 511)) := by
  have hle := present_length_le freq
  refine ⟨by simp; omega, Nat.le_refl _, hle, ?_, ?_, ?_, ?_, ?_⟩
  · rw [List.pairwise_map]
    refine List.pairwise_lt_range.imp_of_mem fun {a b} ha hb hab => ?_
    simp only [List.mem_range] at ha hb
    rw [Fin.lt_def]
    simp only [Fin.ofNat]
    omega
  · intro i
    simp only [List.mem_map, List.mem_range]
    constructor
    · rintro ⟨j, hj, rfl⟩
      have hv : (Fin.ofNat 511 j : NodeId).val = j := by simp only [Fin.ofNat]; omega
      exact ⟨by omega, by rw [h j hj _ hv]; rfl⟩
    · rintro ⟨hi, -⟩
      exact ⟨i.val, hi, Fin.ext (by simp only [Fin.ofNat]; have := i.isLt; omega)⟩
  · intro i p hi hp
    rw [h i.val hi i rfl] at hp
    simp [leafNode] at hp
  · intro i hi
    rw [h i.val hi i rfl]
    exact ⟨rfl, rfl, rfl⟩
  · intro i h1 h2
    omega

/-! ### The tree -/

/-- A leaf's own fields are not touched by combining. -/
def SameLeaves (n : Nat) (nodes nodes' : RegFile 511 Node) : Prop :=
  ∀ i : NodeId, i.val < n → { nodes'.get i with parent := none } = { nodes.get i with parent := none }

/-- The combining loop ends with one root and the leaves as they were made (R132, R133). -/
theorem combineLoop_spec (fuel n m : Nat) (s : State) (hm : s.nnodes.toNat = m) (hf : Forest n m s.node s.pq)
    (hfuel : s.pq.length ≤ fuel) :
    ∃ nodes q m', combineLoop fuel s = { s with node := nodes, pq := q, nnodes := BitVec.ofNat 10 m' } ∧
      Forest n m' nodes q ∧ q.length ≤ 1 ∧ SameLeaves n s.node nodes := by
  induction fuel generalizing m s with
  | zero =>
    refine ⟨s.node, s.pq, m, ?_, hf, by omega, fun i _ => rfl⟩
    have : BitVec.ofNat 10 m = s.nnodes := by rw [← hm]; simp
    rw [this]; rfl
  | succ fuel ih =>
    have hstop : s.pq.length ≤ 1 → ∃ nodes q m',
        s = { s with node := nodes, pq := q, nnodes := BitVec.ofNat 10 m' } ∧
        Forest n m' nodes q ∧ q.length ≤ 1 ∧ SameLeaves n s.node nodes := by
      intro hl
      refine ⟨s.node, s.pq, m, ?_, hf, hl, fun i _ => rfl⟩
      have : BitVec.ofNat 10 m = s.nnodes := by rw [← hm]; simp
      rw [this]
    rw [combineLoop]
    split
    · next hnone =>
      rw [pqMin_eq_none] at hnone
      exact hstop (by simp [hnone])
    · next a ha =>
      have hamem := pqMin_mem ha
      have hlen := List.length_erase_of_mem hamem
      split
      · next hnone =>
        rw [pqMin_eq_none] at hnone
        rw [hnone] at hlen
        simp at hlen
        exact hstop (by omega)
      · next b hb =>
        have hbmem := pqMin_mem hb
        have hpos := List.length_pos_of_mem hbmem
        have hc := hf.count
        have hfit := hf.fits
        have hid : (nextId s).val = m := by simp only [nextId, hm, Fin.ofNat]; omega
        have hforest := hf.combine hamem hbmem hid
        have hm' : (s.nnodes + 1).toNat = m + 1 := by
          rw [BitVec.toNat_add, hm]; simp; omega
        have hleaf : SameLeaves n s.node (combine a b { s with pq := (s.pq.erase a).erase b }).node := by
          intro i hi
          have hab : a ≠ b := fun e => by
            subst e; exact absurd hbmem ((rising_nodup hf.rising).not_mem_erase)
          have hai : a ≠ nextId s := fun e => by
            have := ((hf.roots a).1 hamem).1; rw [e] at this; omega
          have hbi : b ≠ nextId s := fun e => by
            have := ((hf.roots b).1 (List.mem_of_mem_erase hbmem)).1; rw [e] at this; omega
          have hii : i ≠ nextId s := fun e => by
            have := hf.leaves_le; rw [e] at hi; omega
          have : (combine a b { s with pq := (s.pq.erase a).erase b }).node.get i =
              if i = a ∨ i = b then { s.node.get i with parent := some (nextId s) } else s.node.get i := by
            have hg := combined_get (nodes := s.node) (inner :=
              { weight := (s.node.get a).weight + (s.node.get b).weight, sym := none, parent := none,
                left := some a, right := some b }) hab hai hbi i
            rw [if_neg hii] at hg
            exact hg
          rw [this]
          split <;> rfl
        obtain ⟨nodes, q, m', he, hF, hq, hl⟩ :=
          ih (m + 1) (combine a b { s with pq := (s.pq.erase a).erase b }) hm' hforest
            (by
              have hlen2 := List.length_erase_of_mem hbmem
              have hnot : nextId s ∉ (s.pq.erase a).erase b := fun hmem => by
                have := ((hf.roots _).1 (List.mem_of_mem_erase (List.mem_of_mem_erase hmem))).1
                omega
              show (pqAdd (nextId s) ((s.pq.erase a).erase b)).length ≤ fuel
              rw [pqAdd_length hnot]
              omega)
        exact ⟨nodes, q, m', by rw [he]; rfl, hF, hq, fun i hi => (hl i hi).trans (hleaf i hi)⟩

/-- The tree `buildTree` leaves (R131 to R134): what every field it writes holds. -/
structure Built (freq : RegFile 256 (BitVec 64)) (nodes : RegFile 511 Node) (m : Nat) (root : Option NodeId) : Prop where
  forest : ∃ q, Forest (present freq).length m nodes q ∧ q.length ≤ 1 ∧ root = q.head?
  leaf : ∀ j (hj : j < (present freq).length) (i : NodeId), i.val = j →
    (nodes.get i).weight = (present freq)[j].2 ∧ (nodes.get i).sym = some (present freq)[j].1 ∧
      (nodes.get i).left = none ∧ (nodes.get i).right = none

/-- `buildTree` writes the tree of `FREQ` and nothing else (R42, R131, R132). -/
theorem buildTree_spec (s : State) :
    ∃ nodes m root, buildTree s = { s with
        node := nodes
        nnodes := BitVec.ofNat 10 m
        nleaf := BitVec.ofNat 9 (present s.freq).length
        root := root
        pq := [] } ∧
      Built s.freq nodes m root := by
  obtain ⟨nodes0, he, hleaf⟩ := buildLeaves_spec s
  have hle := present_length_le s.freq
  obtain ⟨nodes, q, m, he', hF, hq, hsame⟩ :=
    combineLoop_spec (buildLeaves s).pq.length (present s.freq).length (present s.freq).length (buildLeaves s)
      (by rw [he]; simp; omega) (by rw [he]; exact leaves_forest hleaf) (Nat.le_refl _)
  refine ⟨nodes, m, q.head?, ?_, ⟨q, hF, hq, rfl⟩, ?_⟩
  · rw [buildTree, he', takeRoot, he]
  · intro j hj i hi
    have h1 := hsame i (by omega)
    rw [he] at h1
    have h2 := hleaf j hj i hi
    simp only [h2, leafNode, Node.mk.injEq, true_and] at h1
    exact h1

end Sys2Proof.Machine
end

