-- ==== Sys2Proof/Laws/Codes.lean ====
section
/-! SUPPORT. The laws of `generateCodes` (spec/41_codetree.md rules R134 to R140): the walk up the parent links spells
the way down from the root, so the codes of different leaves are different and none is a prefix of another. -/

namespace Sys2Proof.Machine

/-! ### The way down and the walk up -/

theorem follow_append {nodes : RegFile 511 Node} {j k : NodeId} {c d : Bits} (h : follow nodes j c = some k) :
    follow nodes j (c ++ d) = follow nodes k d := by
  induction c generalizing j with
  | nil => cases h; rfl
  | cons b c ih =>
    simp only [follow, List.cons_append] at *
    split at h
    · exact ih h
    · cases h

/-- The walk up from a node of a forest ends at a root, within as many steps as there are nodes above it, and the bits
it spells lead back down (R135, R138). -/
theorem climb_spec {n m : Nat} {nodes : RegFile 511 Node} {q : List NodeId} (h : Forest n m nodes q) (fuel : Nat)
    (j : NodeId) (c : Bits) (hj : j.val < m) (hf : m ≤ fuel + 1 + j.val) :
    ∃ path, climb nodes fuel j c = .ok (path ++ c) ∧ path.length + max j.val (n - 1) ≤ m - 1 ∧
      (path = [] ↔ j ∈ q) ∧ ∃ r ∈ q, follow nodes r path = some j := by
  have hle := h.leaves_le
  induction fuel generalizing j c with
  | zero =>
    have hroot : (nodes.get j).parent = none := by
      cases hp : (nodes.get j).parent with
      | none => rfl
      | some p => have := h.parents j p hj hp; simp only [Fin.lt_def] at this; omega
    refine ⟨[], by simp [climb, hroot], by simp; omega, by simp [h.roots, hj, hroot], j, ?_, rfl⟩
    exact (h.roots j).2 ⟨hj, hroot⟩
  | succ fuel ih =>
    cases hp : (nodes.get j).parent with
    | none =>
      refine ⟨[], by simp [climb, hp], by simp; omega, by simp [h.roots, hj, hp], j, ?_, rfl⟩
      exact (h.roots j).2 ⟨hj, hp⟩
    | some p =>
      obtain ⟨h1, h2, h3, h4⟩ := h.parents j p hj hp
      rw [Fin.lt_def] at h1
      obtain ⟨path, he, hl, -, r, hr, hfol⟩ := ih p ((if (nodes.get p).left = some j then false else true) :: c) h2
        (by omega)
      refine ⟨path ++ [if (nodes.get p).left = some j then false else true], ?_, ?_, ?_, r, hr, ?_⟩
      · rw [climb, hp]
        simp only [he, List.append_assoc, List.singleton_append]
      · rw [List.length_append, List.length_singleton]; omega
      · simp [h.roots, hp]
      · rw [follow_append hfol, follow]
        by_cases hl : (nodes.get p).left = some j
        · simp [hl, follow]
        · simp [hl, h4.resolve_left hl, follow]

/-- The bits the walk up from leaf `j` spells. -/
def pathOf (nodes : RegFile 511 Node) (j : Nat) : Bits :=
  match climb nodes Config.maxNodes (Fin.ofNat 511 j) [] with
  | .ok c => c
  | .error _ => []

theorem val_ofNat {j : Nat} (h : j < 511) : (Fin.ofNat 511 j : NodeId).val = j := by
  simp only [Fin.ofNat]; omega

/-- The node created last has no parent. -/
theorem Forest.last_root {n m : Nat} {nodes : RegFile 511 Node} {q : List NodeId} (h : Forest n m nodes q)
    (hm : 1 ≤ m) : ∃ r ∈ q, r.val = min (m - 1) 510 := by
  refine ⟨⟨min (m - 1) 510, by omega⟩, (h.roots _).2 ⟨by simp only; omega, ?_⟩, rfl⟩
  cases hp : (nodes.get ⟨min (m - 1) 510, by omega⟩).parent with
  | none => rfl
  | some p =>
    have := h.parents _ p (by simp only; omega) hp
    have hp511 := p.isLt
    simp only [Fin.lt_def] at this
    omega

/-- What is known of the tree `buildTree` leaves for `N >= 1` symbols. -/
theorem Built.tree {freq : RegFile 256 (BitVec 64)} {nodes : RegFile 511 Node} {m : Nat} {root : Option NodeId}
    (h : Built freq nodes m root) (hN : 1 ≤ (present freq).length) :
    ∃ r : NodeId, root = some r ∧ m = 2 * (present freq).length - 1 ∧ r.val = m - 1 ∧
      Forest (present freq).length m nodes [r] := by
  obtain ⟨⟨q, hF, hq, rfl⟩, -⟩ := h
  have hc := hF.count
  have hle := hF.leaves_le
  have hfit := hF.fits
  obtain ⟨r, hr, hrv⟩ := hF.last_root (by omega)
  have hql : q = [r] := by
    match q, hq, hr with
    | [x], _, hr => rw [List.mem_singleton] at hr; rw [hr]
  subst hql
  simp only [List.length_singleton] at hc
  exact ⟨r, rfl, by omega, by omega, hF⟩

theorem Built.empty {freq : RegFile 256 (BitVec 64)} {nodes : RegFile 511 Node} {m : Nat} {root : Option NodeId}
    (h : Built freq nodes m root) (hN : (present freq).length = 0) : root = none ∧ m = 0 := by
  obtain ⟨⟨q, hF, hq, rfl⟩, -⟩ := h
  have hc := hF.count
  rw [hN] at hc
  have : q = [] := List.length_eq_zero_iff.1 (by omega)
  subst this
  exact ⟨rfl, by simp at hc; omega⟩

/-- The walk from a leaf: it ends, its length is at least 1 and at most `N - 1` for `N >= 2`, and it leads down from the
root to the leaf (R135, R138). -/
theorem Built.path {freq : RegFile 256 (BitVec 64)} {nodes : RegFile 511 Node} {m : Nat} {root : Option NodeId}
    (h : Built freq nodes m root) {j : Nat} (hj : j < (present freq).length) :
    climb nodes Config.maxNodes (Fin.ofNat 511 j) [] = .ok (pathOf nodes j) ∧
      (pathOf nodes j).length ≤ (present freq).length - 1 ∧
      (2 ≤ (present freq).length → 1 ≤ (pathOf nodes j).length) ∧
      ∃ r, root = some r ∧ follow nodes r (pathOf nodes j) = some (Fin.ofNat 511 j) := by
  obtain ⟨r, hr, hm, hrv, hF⟩ := h.tree (by omega)
  have hfit := hF.fits
  have hv : (Fin.ofNat 511 j : NodeId).val = j := val_ofNat (by omega)
  obtain ⟨path, he, hl, hnil, r', hr', hfol⟩ := climb_spec hF Config.maxNodes (Fin.ofNat 511 j) [] (by omega)
    (by simp only [Config.maxNodes]; omega)
  rw [List.append_nil] at he
  have hpath : pathOf nodes j = path := by rw [pathOf, he]
  rw [hpath]
  simp only [List.mem_singleton] at hr' hnil
  subst hr'
  refine ⟨he, by omega, fun h2 => ?_, r', hr, hfol⟩
  rcases Nat.eq_zero_or_pos path.length with h0 | h0
  · have := hnil.1 (List.length_eq_zero_iff.1 h0)
    have := congrArg Fin.val this
    omega
  · exact h0

/-- No leaf's way is a prefix of another's (R137 (b)): a leaf has no way on. -/
theorem Built.path_prefix {freq : RegFile 256 (BitVec 64)} {nodes : RegFile 511 Node} {m : Nat} {root : Option NodeId}
    (h : Built freq nodes m root) {i j : Nat} (hi : i < (present freq).length) (hj : j < (present freq).length)
    (hp : pathOf nodes i <+: pathOf nodes j) : i = j := by
  obtain ⟨-, -, -, r, hr, hfi⟩ := h.path hi
  obtain ⟨-, -, -, r', hr', hfj⟩ := h.path hj
  rw [hr] at hr'
  cases hr'
  have hle := present_length_le freq
  obtain ⟨t, ht⟩ := hp
  rw [← ht, follow_append hfi] at hfj
  have hlf := h.leaf i hi (Fin.ofNat 511 i) (val_ofNat (by omega))
  cases t with
  | nil =>
    simp only [follow, Option.some.injEq] at hfj
    have := congrArg Fin.val hfj
    rw [val_ofNat (by omega), val_ofNat (by omega)] at this
    exact this
  | cons b t =>
    rw [follow, hlf.2.2.1, hlf.2.2.2] at hfj
    cases b <;> simp at hfj

/-! ### The code table -/

/-- What the code table of the counters `freq` is (R134, R135, R137, R138). -/
structure Coded (freq : RegFile 256 (BitVec 64)) (code : RegFile 256 (Option Bits)) : Prop where
  /-- R35: a code for each symbol that occurs, and for no other. -/
  present_iff : ∀ b, (code.get (symIndex b)).isSome = true ↔ 1 ≤ (freq.get (symIndex b)).toNat
  /-- R138. -/
  length_pos : ∀ b c, code.get (symIndex b) = some c → 1 ≤ c.length
  /-- R138. -/
  length_le : ∀ b c, code.get (symIndex b) = some c → c.length ≤ max 1 ((present freq).length - 1)
  /-- R137 (b), (c). -/
  prefix_free : ∀ b b' c c', code.get (symIndex b) = some c → code.get (symIndex b') = some c' → c <+: c' → b = b'
  /-- R134. -/
  single : (present freq).length = 1 → ∀ b c, code.get (symIndex b) = some c → c = [false]

theorem Coded.length_le_255 {freq : RegFile 256 (BitVec 64)} {code : RegFile 256 (Option Bits)} (h : Coded freq code)
    {b : Symbol} {c : Bits} (hc : code.get (symIndex b) = some c) : c.length ≤ 255 := by
  have := h.length_le b c hc
  have := present_length_le freq
  omega

/-- A symbol occurs exactly when it is one of the present ones. -/
theorem present_index {freq : RegFile 256 (BitVec 64)} {b : Symbol} :
    1 ≤ (freq.get (symIndex b)).toNat ↔ ∃ j, ∃ h : j < (present freq).length, (present freq)[j].1 = b := by
  constructor
  · intro h
    have hm : (b, freq.get (symIndex b)) ∈ present freq := mem_present.2 ⟨h, rfl⟩
    obtain ⟨j, hj, he⟩ := List.getElem_of_mem hm
    exact ⟨j, hj, by rw [he]⟩
  · rintro ⟨j, hj, rfl⟩
    have hm : ((present freq)[j].1, (present freq)[j].2) ∈ present freq := List.getElem_mem hj
    obtain ⟨h1, h2⟩ := mem_present.1 hm
    rw [h2]; exact h1

/-- The leaves from `i` on get their codes, every other element of `CODE` stays as it was (R135). -/
theorem codeLeaves_spec {freq : RegFile 256 (BitVec 64)} {nodes : RegFile 511 Node} {m : Nat} {root : Option NodeId}
    (h : Built freq nodes m root) (k i : Nat) (s : State) (hs : s.node = nodes) (hk : i + k = (present freq).length) :
    ∃ code, codeLeaves k i s = .on { s with code := code } ∧
      (∀ j (hj : j < (present freq).length), i ≤ j →
        code.get (symIndex (present freq)[j].1) = some (pathOf nodes j)) ∧
      (∀ b, (∀ j (hj : j < (present freq).length), i ≤ j → (present freq)[j].1 ≠ b) →
        code.get (symIndex b) = s.code.get (symIndex b)) := by
  induction k generalizing i s with
  | zero => exact ⟨s.code, rfl, fun j hj hij => by omega, fun _ _ => rfl⟩
  | succ k ih =>
    have hi : i < (present freq).length := by omega
    have hle := present_length_le freq
    have hsym := (h.leaf i hi (Fin.ofNat 511 i) (val_ofNat (by omega))).2.1
    have hset : setCode (Fin.ofNat 511 i) (pathOf nodes i) s =
        .on { s with code := s.code.set (symIndex (present freq)[i].1) (some (pathOf nodes i)) } := by
      simp only [setCode, nodeAt, hs, hsym]
    obtain ⟨code, he, hnew, hold⟩ := ih (i + 1)
      { s with code := s.code.set (symIndex (present freq)[i].1) (some (pathOf nodes i)) } hs (by omega)
    refine ⟨code, ?_, ?_, ?_⟩
    · subst hs
      rw [codeLeaves, (h.path hi).1, withValue_ok, hset, Flow.andThen_on]
      exact he
    · intro j hj hij
      by_cases hji : j = i
      · subst hji
        rw [hold]
        · exact RegFile.get_set_same _ _ _
        · intro j' hj' hlt heq
          have := present_inj hj' hj heq
          omega
      · exact hnew j hj (by omega)
    · intro b hb
      rw [hold b fun j hj hij => hb j hj (by omega)]
      exact RegFile.get_set_ne _ _ fun e => hb i hi (Nat.le_refl i) (symIndex_inj.1 e)

/-- `generateCodes` on the tree of `FREQ` writes the code table and nothing else (R42, R134, R135). -/
theorem generateCodes_spec {freq : RegFile 256 (BitVec 64)} {m : Nat} (s : State)
    (h : Built freq s.node m s.root) (hn : s.nleaf = BitVec.ofNat 9 (present freq).length) :
    ∃ code, generateCodes s = .on { s with code := code } ∧ Coded freq code ∧
      ∀ j (hj : j < (present freq).length),
        code.get (symIndex (present freq)[j].1) =
          some (if (present freq).length = 1 then [false] else pathOf s.node j) := by
  have hle := present_length_le freq
  have hnl : s.nleaf.toNat = (present freq).length := by
    rw [hn, BitVec.toNat_ofNat, Nat.mod_eq_of_lt (by omega)]
  by_cases h1 : (present freq).length = 1
  · have hsym := (h.leaf 0 (by omega) 0 rfl).2.1
    have hN : ∀ j (hj : j < (present freq).length), (present freq)[j].1 = (present freq)[0].1 := by
      intro j hj
      have : j = 0 := by omega
      subst this; rfl
    have hget : ∀ b, ((RegFile.fill 256 (none : Option Bits)).set (symIndex (present freq)[0].1) (some [false])).get
        (symIndex b) = if (present freq)[0].1 = b then some [false] else none := by
      intro b
      rw [RegFile.get_set]
      simp only [symIndex_inj, RegFile.get_fill]
    refine ⟨(RegFile.fill 256 none).set (symIndex (present freq)[0].1) (some [false]), ?_, ⟨?_, ?_, ?_, ?_, ?_⟩, ?_⟩
    · rw [generateCodes, if_pos (by omega), setCode]
      simp only [nodeAt, clearCodes, hsym]
    · intro b
      rw [hget, present_index]
      constructor
      · intro hs
        split at hs
        · next e => exact ⟨0, by omega, e⟩
        · cases hs
      · rintro ⟨j, hj, rfl⟩
        rw [hN j hj]; simp
    · intro b c hc
      rw [hget] at hc
      split at hc <;> cases hc
      simp
    · intro b c hc
      rw [hget] at hc
      split at hc <;> cases hc
      simp only [List.length_cons, List.length_nil]; omega
    · intro b b' c c' hc hc' hp
      rw [hget] at hc hc'
      split at hc
      · next e =>
        split at hc'
        · next e' => exact e.symm.trans e'
        · cases hc'
      · cases hc
    · intro _ b c hc
      rw [hget] at hc
      split at hc <;> cases hc
      rfl
    · intro j hj
      rw [hget, if_pos (hN j hj).symm, if_pos h1]
  · obtain ⟨code, he, hnew, hold⟩ := codeLeaves_spec h (present freq).length 0 (clearCodes s) rfl (by omega)
    have hcase : ∀ b c, code.get (symIndex b) = some c →
        ∃ j, ∃ hj : j < (present freq).length, (present freq)[j].1 = b ∧ c = pathOf s.node j := by
      intro b c hc
      by_cases hb : ∃ j, ∃ hj : j < (present freq).length, (present freq)[j].1 = b
      · obtain ⟨j, hj, rfl⟩ := hb
        rw [hnew j hj (by omega)] at hc
        exact ⟨j, hj, rfl, (Option.some.inj hc).symm⟩
      · rw [hold b fun j hj _ e => hb ⟨j, hj, e⟩] at hc
        simp [clearCodes, RegFile.get_fill] at hc
    refine ⟨code, ?_, ⟨?_, ?_, ?_, ?_, fun e => absurd e h1⟩, ?_⟩
    · rw [generateCodes, if_neg (by omega), hnl, he]; rfl
    · intro b
      rw [present_index]
      constructor
      · intro hs
        obtain ⟨c, hc⟩ := Option.isSome_iff_exists.1 hs
        obtain ⟨j, hj, e, -⟩ := hcase b c hc
        exact ⟨j, hj, e⟩
      · rintro ⟨j, hj, rfl⟩
        rw [hnew j hj (by omega)]; rfl
    · intro b c hc
      obtain ⟨j, hj, -, rfl⟩ := hcase b c hc
      exact (h.path hj).2.2.1 (by omega)
    · intro b c hc
      obtain ⟨j, hj, -, rfl⟩ := hcase b c hc
      have := (h.path hj).2.1
      omega
    · intro b b' c c' hc hc' hp
      obtain ⟨j, hj, rfl, rfl⟩ := hcase b c hc
      obtain ⟨j', hj', rfl, rfl⟩ := hcase b' c' hc'
      have := h.path_prefix hj hj' hp
      subst this; rfl
    · intro j hj
      rw [if_neg h1]
      exact hnew j hj (by omega)

/-! ### The codes are a function of the counters (R140) -/

/-- Two arenas agree on the nodes created so far. -/
def AgreeBelow (m : Nat) (x y : RegFile 511 Node) : Prop := ∀ i : NodeId, i.val < m → x.get i = y.get i

theorem pqMin_congr {x y : RegFile 511 Node} {q : List NodeId} (h : ∀ i ∈ q, x.get i = y.get i) :
    pqMin x q = pqMin y q := by
  induction q with
  | nil => rfl
  | cons i q ih =>
    have hq : ∀ k ∈ q, x.get k = y.get k := fun k hk => h k (by simp [hk])
    have hi := h i (by simp)
    rw [pqMin, pqMin, ih hq]
    cases hk : pqMin y q with
    | none => rfl
    | some j =>
      have hj := hq j (pqMin_mem hk)
      have hb : nodeBefore x j i = nodeBefore y j i := by rw [nodeBefore, nodeBefore, hi, hj]
      simp only [hb]

/-- The combining loop sees only the nodes created so far. -/
theorem combineLoop_congr (fuel n m : Nat) (s t : State) (hm : s.nnodes.toNat = m) (hf : Forest n m s.node s.pq)
    (hn : t.nnodes = s.nnodes) (hq : t.pq = s.pq) (ha : AgreeBelow m s.node t.node) :
    (combineLoop fuel t).pq = (combineLoop fuel s).pq ∧ (combineLoop fuel t).nnodes = (combineLoop fuel s).nnodes ∧
      AgreeBelow (combineLoop fuel s).nnodes.toNat (combineLoop fuel s).node (combineLoop fuel t).node := by
  induction fuel generalizing m s t with
  | zero => exact ⟨hq, hn, by rw [combineLoop, combineLoop, hm]; exact ha⟩
  | succ fuel ih =>
    have hroots : ∀ i ∈ s.pq, i.val < m := fun i hi => ((hf.roots i).1 hi).1
    have h1 : pqMin t.node t.pq = pqMin s.node s.pq := by
      rw [hq]; exact (pqMin_congr fun i hi => ha i (hroots i hi)).symm
    have h2 : ∀ a, pqMin t.node (t.pq.erase a) = pqMin s.node (s.pq.erase a) := fun a => by
      rw [hq]; exact (pqMin_congr fun i hi => ha i (hroots i (List.mem_of_mem_erase hi))).symm
    have hstop : t.pq = s.pq ∧ t.nnodes = s.nnodes ∧ AgreeBelow s.nnodes.toNat s.node t.node :=
      ⟨hq, hn, by rw [hm]; exact ha⟩
    rw [combineLoop, combineLoop, h1]
    cases ha1 : pqMin s.node s.pq with
    | none => exact hstop
    | some a =>
      simp only [h2]
      cases hb1 : pqMin s.node (s.pq.erase a) with
      | none => exact hstop
      | some b =>
        have hamem := pqMin_mem ha1
        have hbmem := pqMin_mem hb1
        have hpos := List.length_pos_of_mem hbmem
        have hlen := List.length_erase_of_mem hamem
        have hc := hf.count
        have hfit := hf.fits
        have hid : (nextId s).val = m := by simp only [nextId, hm, Fin.ofNat]; omega
        have hidt : nextId t = nextId s := by rw [nextId, nextId, hn]
        have hab : a ≠ b := fun e => by subst e; exact absurd hbmem ((rising_nodup hf.rising).not_mem_erase)
        have hai : a ≠ nextId s := fun e => by have := hroots a hamem; rw [e] at this; omega
        have hbi : b ≠ nextId s := fun e => by
          have := hroots b (List.mem_of_mem_erase hbmem); rw [e] at this; omega
        have hA := ha a (hroots a hamem)
        have hB := ha b (hroots b (List.mem_of_mem_erase hbmem))
        refine ih (m + 1) (combine a b { s with pq := (s.pq.erase a).erase b })
          (combine a b { t with pq := (t.pq.erase a).erase b }) ?_ (hf.combine hamem hbmem hid) ?_ ?_ ?_
        · show (s.nnodes + 1).toNat = m + 1
          rw [BitVec.toNat_add, hm]; simp; omega
        · show t.nnodes + 1 = s.nnodes + 1
          rw [hn]
        · show pqAdd (nextId t) ((t.pq.erase a).erase b) = pqAdd (nextId s) ((s.pq.erase a).erase b)
          rw [hidt, hq]
        · intro i hi
          have hgs := combined_get (nodes := s.node) (inner :=
            { weight := (s.node.get a).weight + (s.node.get b).weight, sym := none, parent := none, left := some a,
              right := some b }) hab hai hbi i
          have hgt := combined_get (nodes := t.node) (inner :=
            { weight := (t.node.get a).weight + (t.node.get b).weight, sym := none, parent := none, left := some a,
              right := some b }) hab hai hbi i
          show (setParent (nextId s) b (setParent (nextId s) a (s.node.set (nextId s) _))).get i =
            (setParent (nextId t) b (setParent (nextId t) a (t.node.set (nextId t) _))).get i
          rw [hidt]
          refine hgs.trans (Eq.trans ?_ hgt.symm)
          rw [hA, hB]
          split
          · rfl
          · next hne =>
            have : i.val ≠ (nextId s).val := fun e => hne (Fin.ext e)
            rw [ha i (by omega)]

/-- `buildTree` is a function of the counters (R140). -/
theorem buildTree_congr {s t : State} (h : t.freq = s.freq) :
    (buildTree t).nleaf = (buildTree s).nleaf ∧ (buildTree t).nnodes = (buildTree s).nnodes ∧
      (buildTree t).root = (buildTree s).root ∧
      AgreeBelow (buildTree s).nnodes.toNat (buildTree s).node (buildTree t).node := by
  obtain ⟨xs, hes, hls⟩ := buildLeaves_spec s
  obtain ⟨xt, het, hlt⟩ := buildLeaves_spec t
  have hle := present_length_le s.freq
  rw [h] at het hlt
  have hq : (buildLeaves t).pq = (buildLeaves s).pq := by rw [hes, het]
  obtain ⟨h1, h2, h3⟩ := combineLoop_congr (buildLeaves s).pq.length (present s.freq).length
    (present s.freq).length (buildLeaves s) (buildLeaves t) (by rw [hes]; simp; omega)
    (by rw [hes]; exact leaves_forest hls) (by rw [hes, het]) hq (by
      intro i hi
      rw [hes, het]
      exact (hls i.val hi i rfl).trans (hlt i.val hi i rfl).symm)
  have hnl : ∀ (fuel : Nat) (u : State), (combineLoop fuel u).nleaf = u.nleaf := by
    intro fuel
    induction fuel with
    | zero => intro u; rfl
    | succ fuel ih =>
      intro u
      rw [combineLoop]
      split
      · rfl
      · split
        · rfl
        · rw [ih]; rfl
  refine ⟨?_, ?_, ?_, ?_⟩
  · simp only [buildTree, takeRoot, hnl]; rw [hes, het]
  · simp only [buildTree, takeRoot, hq]; exact h2
  · simp only [buildTree, takeRoot, hq]; rw [h1]
  · simp only [buildTree, takeRoot, hq]; exact h3

theorem climb_congr {n m : Nat} {x y : RegFile 511 Node} {q : List NodeId} (h : Forest n m x q)
    (ha : AgreeBelow m x y) (fuel : Nat) (j : NodeId) (c : Bits) (hj : j.val < m) :
    climb y fuel j c = climb x fuel j c := by
  induction fuel generalizing j c with
  | zero => rw [climb, climb, ha j hj]
  | succ fuel ih =>
    rw [climb, climb, ← ha j hj]
    cases hp : (x.get j).parent with
    | none => rfl
    | some p =>
      have hpm := (h.parents j p hj hp).2.1
      simp only
      rw [ih p _ hpm, ha p hpm]

/-- The two operations together: `CODE` is a function of the counters (R42, R131 to R135, R140, R174). -/
theorem makeCodes_spec (s : State) :
    generateCodes (buildTree s) = .on { buildTree s with code := codesOf s.freq } ∧ Coded s.freq (codesOf s.freq) := by
  have run : ∀ u : State, u.freq = s.freq → ∃ code, generateCodes (buildTree u) = .on { buildTree u with code := code } ∧
      Coded s.freq code ∧ ∀ j (hj : j < (present s.freq).length),
        code.get (symIndex (present s.freq)[j].1) =
          some (if (present s.freq).length = 1 then [false] else pathOf (buildTree u).node j) := by
    intro u hu
    obtain ⟨nodes, m, root, he, hB⟩ := buildTree_spec u
    rw [hu] at hB he
    exact generateCodes_spec (freq := s.freq) (m := m) (buildTree u) (by rw [he]; exact hB) (by rw [he])
  obtain ⟨code, hg, hC, hcode⟩ := run s rfl
  obtain ⟨code', hg', hC', hcode'⟩ := run { State.reset with freq := s.freq } rfl
  have hdef : codesOf s.freq = code' := by rw [codesOf, hg']
  have hpath : ∀ j, j < (present s.freq).length →
      pathOf (buildTree { State.reset with freq := s.freq }).node j = pathOf (buildTree s).node j := by
    intro j hj
    obtain ⟨nodes, m, root, he, hB⟩ := buildTree_spec s
    obtain ⟨r, -, hm, -, hF⟩ := hB.tree (by omega)
    have hfit := hF.fits
    have hc := (buildTree_congr (s := s) (t := { State.reset with freq := s.freq }) rfl).2.2.2
    have hnn : (buildTree s).nnodes.toNat = m := by rw [he]; simp; omega
    rw [hnn] at hc
    have hv : (Fin.ofNat 511 j : NodeId).val = j := val_ofNat (by omega)
    have hFs : Forest (present s.freq).length m (buildTree s).node [r] := by rw [he]; exact hF
    rw [pathOf, pathOf, climb_congr hFs hc _ _ _ (by have := hF.leaves_le; omega)]
  have hEq : code' = code := by
    refine RegFile.ext_get fun i => ?_
    have hi : symIndex (BitVec.ofNat 8 i.val) = i := by
      apply Fin.ext
      simp only [symIndex, BitVec.toNat_ofNat]
      omega
    rw [← hi]
    by_cases hp : 1 ≤ (s.freq.get (symIndex (BitVec.ofNat 8 i.val))).toNat
    · obtain ⟨j, hj, e⟩ := present_index.1 hp
      rw [← e, hcode j hj, hcode' j hj, hpath j hj]
    · have h1 := fun e => hp ((hC.present_iff (BitVec.ofNat 8 i.val)).1 e)
      have h2 := fun e => hp ((hC'.present_iff (BitVec.ofNat 8 i.val)).1 e)
      simp only [Option.isSome_iff_ne_none, ne_eq, imp_false, Decidable.not_not] at h1 h2
      rw [h1, h2]
  rw [hdef, hEq]
  exact ⟨hg, hC⟩

end Sys2Proof.Machine
end

