-- ==== Sys2Proof/Laws/Encoder.lean ====
section
/-! SUPPORT. The laws of ENCODE (spec/43_encoder.md): what each transition leaves. -/

namespace Sys2Proof.Machine

/-! ### Pass 1 -/

/-- One count more for a byte (R172). -/
def countOne (f : RegFile 256 (BitVec 64)) (b : Symbol) : RegFile 256 (BitVec 64) :=
  f.set (symIndex b) (f.get (symIndex b) + 1)

theorem countsOf_eq (source : List Byte) : countsOf source = source.foldl countOne (RegFile.fill 256 0) := rfl

/-- Pass 1 over a run of bytes that are there (R172). -/
theorem countBytes_on (bytes : List Byte) (s : State) (pos : Nat) (hpos : s.srcPos.toNat = pos)
    (hsrc : ∀ k (h : k < bytes.length), pos + k < s.srcSize.toNat ∧ s.src.read (pos + k) = some bytes[k]) :
    countBytes bytes.length s =
      .on { s with freq := bytes.foldl countOne s.freq, srcPos := s.srcPos + BitVec.ofNat 64 bytes.length } := by
  induction bytes generalizing s pos with
  | nil => simp [countBytes]
  | cons b bs ih =>
    have h0 := hsrc 0 (by simp)
    have hsz := s.srcSize.isLt
    have hb : readByte s s.srcPos.toNat = .ok b := readByte_eq_ok.2 (by rw [hpos]; simpa using h0)
    rw [List.length_cons, countBytes, hb, withValue_ok, ih (countByte b s) (pos + 1)]
    · simp only [countByte, freqOf, List.foldl_cons, Flow.on.injEq, State.mk.injEq, true_and, and_true]
      refine ⟨?_, rfl⟩
      rw [BitVec.add_assoc, Nat.add_comm bs.length 1, BitVec.ofNat_add]; rfl
    · simp only [countByte, BitVec.toNat_add, hpos]
      simp only [Nat.add_zero] at h0
      simp
      omega
    · intro k hk
      have := hsrc (k + 1) (by simpa using hk)
      simp only [List.getElem_cons_succ] at this
      rw [show pos + 1 + k = pos + (k + 1) by omega]
      exact this

/-- `Idle → FrequencyCounted` on a source whose bytes are `bytes` (R172, R173). -/
theorem countFrequencies_on {bytes : List Byte} {s : State} (h : SourceIs s bytes) :
    countFrequencies s =
      .on { s with
        freq := bytes.foldl countOne s.freq
        srcPos := s.srcSize
        status := { s.status with phase := Phase.frequencyCounted } } := by
  have hlen := h.1
  have hrun := countBytes_on bytes { s with srcPos := 0 } 0 rfl fun k hk => ⟨by simp only; omega, by simpa using h.2 k hk⟩
  rw [countFrequencies, hlen, hrun, Flow.andThen_on]
  have : (0#64 : BitVec 64) + BitVec.ofNat 64 bytes.length = s.srcSize := by
    apply BitVec.eq_of_toNat_eq
    have := s.srcSize.isLt
    simp
    omega
  simp only [setPhase, Flow.on.injEq, State.mk.injEq, true_and, and_true]
  exact this

/-- What pass 1 can change (R42, R172). -/
theorem countBytes_ends (n : Nat) (s : State) :
    (countBytes n s).Ends (fun t => ∃ f, t = { s with freq := f, srcPos := s.srcPos + BitVec.ofNat 64 n })
      (fun _ => False) := by
  induction n generalizing s with
  | zero => exact ⟨s.freq, by simp⟩
  | succ n ih =>
    rw [countBytes]
    refine Flow.Ends.withValue fun b _ => ?_
    refine (ih (countByte b s)).weaken ?_ fun _ h => h
    rintro t ⟨f, rfl⟩
    refine ⟨f, ?_⟩
    simp only [countByte, State.mk.injEq, true_and, and_true]
    rw [BitVec.add_assoc, Nat.add_comm n 1, BitVec.ofNat_add]; rfl

theorem countFrequencies_ends (s : State) :
    (countFrequencies s).Ends
      (fun t => ∃ f, t = { s with
        freq := f
        srcPos := s.srcSize
        status := { s.status with phase := Phase.frequencyCounted } }) (fun _ => False) := by
  refine (countBytes_ends s.srcSize.toNat { s with srcPos := 0 }).andThen ?_
  rintro t ⟨f, rfl⟩
  exact ⟨f, by simp [setPhase]⟩

theorem foldl_countOne_ne {bs : List Byte} {f : RegFile 256 (BitVec 64)} {b : Symbol} (h : b ∉ bs) :
    (bs.foldl countOne f).get (symIndex b) = f.get (symIndex b) := by
  induction bs generalizing f with
  | nil => rfl
  | cons c bs ih =>
    rw [List.foldl_cons, ih (fun hm => h (List.mem_cons_of_mem _ hm)), countOne, RegFile.get_set_ne]
    intro e
    exact h (by rw [symIndex_inj.1 e]; exact List.mem_cons_self)

theorem foldl_countOne_get (bs : List Byte) (f : RegFile 256 (BitVec 64)) (b : Symbol) :
    (bs.foldl countOne f).get (symIndex b) = f.get (symIndex b) + BitVec.ofNat 64 (bs.count b) := by
  induction bs generalizing f with
  | nil => simp
  | cons c bs ih =>
    rw [List.foldl_cons, ih, countOne, RegFile.get_set, List.count_cons]
    by_cases h : c = b
    · subst h
      simp only [if_true, beq_self_eq_true]
      rw [BitVec.add_assoc, Nat.add_comm (bs.count c) 1, BitVec.ofNat_add]; rfl
    · have : ¬ symIndex c = symIndex b := fun e => h (symIndex_inj.1 e)
      have hb : (c == b) = false := by simpa using h
      simp [this, hb]

/-- `FREQ[b]` is the number of times `b` occurs (R32, R173). -/
theorem countsOf_get {source : List Byte} (h : source.length < 2 ^ 64) (b : Symbol) :
    ((countsOf source).get (symIndex b)).toNat = source.count b := by
  rw [countsOf_eq, foldl_countOne_get, RegFile.get_fill]
  have := List.count_le_length (a := b) (l := source)
  simp
  omega

/-! ### The tree and the header -/

/-- `FrequencyCounted → TreeBuilt` (R174): the codes of the counters, and the tree. -/
theorem makeTree_on (s : State) :
    ∃ nodes nleaf nnodes root, makeTree s =
      .on { s with
        node := nodes
        nleaf := nleaf
        nnodes := nnodes
        root := root
        pq := []
        code := codesOf s.freq
        status := { s.status with phase := Phase.treeBuilt } } := by
  obtain ⟨nodes, m, root, he, -⟩ := buildTree_spec s
  refine ⟨nodes, BitVec.ofNat 9 (present s.freq).length, BitVec.ofNat 10 m, root, ?_⟩
  rw [makeTree, (makeCodes_spec s).1, Flow.andThen_on, he]
  rfl

/-- `writeHeader` as ENCODE runs it: it ends as R151 to R155 say, or the table does not fit the sink's space. -/
theorem writeHeader_ends {s : State} (hb : s.bitbuf = []) (hs : s.snkSize = 0) :
    (writeHeader s).Ends
      (fun t => t = headerWritten s ∧ (packBits (tableBits s.code)).length + 5 < Config.spaceSize)
      (fun _ => False) := by
  by_cases hl : (packBits (tableBits s.code)).length + 5 < Config.spaceSize
  · rw [writeHeader_on hb hs hl]; exact ⟨rfl, hl⟩
  · have h5 : (0 : Nat) + [(0x00 : Byte), 0x00, 0x00, 0x00, 0x00].length < Config.spaceSize := by decide
    have hne : drainedBytes true (tableBits s.code) ≠ [] := by
      intro e
      simp only [packBits, e, List.length_nil, Config.spaceSize] at hl
      omega
    have : writeHeader s = .stuck .sinkOutOfSpace := by
      simp only [writeHeader, reserveHeader, memWrite_on h5, Flow.andThen_on, serialiseTable_eq, packTable]
      rw [memWrite_eq, if_neg]
      · rfl
      · simp only [bufferOperand, written_eq, hb, List.nil_append]
        simp only [packBits] at hl
        rintro (h | h)
        · exact hne h
        · omega
    rw [this]; trivial

/-- `TreeBuilt → HeaderWritten` (R40, R175). -/
theorem emitHeader_ends {s : State} (hb : s.bitbuf = []) (hs : s.snkSize = 0) :
    (emitHeader s).Ends
      (fun t => t = setPhase Phase.headerWritten (discardTree (headerWritten s)) ∧
        (packBits (tableBits s.code)).length + 5 < Config.spaceSize)
      (fun _ => False) := by
  refine (writeHeader_ends hb hs).andThen ?_
  rintro t ⟨rfl, hl⟩
  exact ⟨rfl, hl⟩

theorem emitHeader_on {s : State} (hb : s.bitbuf = []) (hs : s.snkSize = 0)
    (hl : (packBits (tableBits s.code)).length + 5 < Config.spaceSize) :
    emitHeader s = .on (setPhase Phase.headerWritten (discardTree (headerWritten s))) := by
  rw [emitHeader, writeHeader_on hb hs hl, Flow.andThen_on]

/-! ### Pass 2 -/

/-- The state `emit(c)` leaves (R179). -/
def emitted (c : Bits) (s : State) : State :=
  if (s.bitbuf ++ c).length > s.params.flushThreshold then
    advanceSink (drainedBytes false (s.bitbuf ++ c)).length
      (written s.snkPos.toNat (drainedBytes false (s.bitbuf ++ c))
        { s with bitbuf := drainedRest false (s.bitbuf ++ c) })
  else { s with bitbuf := s.bitbuf ++ c }

theorem emitCode_eq (c : Bits) (s : State) :
    emitCode c s =
      if (s.bitbuf ++ c).length > s.params.flushThreshold then
        writeSeq (drainedBytes false (s.bitbuf ++ c)) { s with bitbuf := drainedRest false (s.bitbuf ++ c) }
      else .on { s with bitbuf := s.bitbuf ++ c } := rfl

theorem emitCode_ends (c : Bits) (s : State) :
    (emitCode c s).Ends
      (fun t => t = emitted c s ∧ ((s.bitbuf ++ c).length > s.params.flushThreshold →
        drainedBytes false (s.bitbuf ++ c) ≠ [] →
        s.snkPos.toNat + (drainedBytes false (s.bitbuf ++ c)).length < Config.spaceSize))
      (fun _ => False) := by
  rw [emitCode_eq, emitted]
  by_cases h : (s.bitbuf ++ c).length > s.params.flushThreshold
  · rw [if_pos h, if_pos h]
    exact (writeSeq_ends _ _).weaken (fun t ht => ⟨ht.1, fun _ => ht.2⟩) fun _ h => h
  · rw [if_neg h, if_neg h]
    exact ⟨rfl, fun h' => absurd h' h⟩

theorem emitCode_on {c : Bits} {s : State} (h : s.snkPos.toNat + (s.bitbuf ++ c).length / 8 < Config.spaceSize) :
    emitCode c s = .on (emitted c s) := by
  rw [emitCode_eq, emitted]
  split
  · rw [writeSeq_on (by simpa [drainedBytes_false_length] using h)]
  · rfl

/-- The `Encoding` step (R177 to R179): the next byte's code is emitted, or there is none and the miss is taken. -/
theorem encodeStep_ends (s : State) :
    (encodeStep s).Ends
      (fun t => ∃ b c, readByte s s.srcPos.toNat = .ok b ∧ codeOf s b = some c ∧
        t = emitted c { s with srcPos := s.srcPos + 1 } ∧
        ((s.bitbuf ++ c).length > s.params.flushThreshold → drainedBytes false (s.bitbuf ++ c) ≠ [] →
          s.snkPos.toNat + (drainedBytes false (s.bitbuf ++ c)).length < Config.spaceSize))
      (fun t => ∃ b, readByte s s.srcPos.toNat = .ok b ∧ codeOf s b = none ∧
        t = raise .codingTableMiss { s with srcPos := s.srcPos + 1 }) := by
  refine Flow.Ends.withValue fun b hb => ?_
  unfold encodeByte
  have hco : codeOf { s with srcPos := s.srcPos + 1 } b = codeOf s b := rfl
  rw [hco]
  cases hc : codeOf s b with
  | none => exact ⟨b, hb, hc, rfl⟩
  | some c =>
    exact (emitCode_ends c _).weaken (fun t ht => ⟨b, c, hb, hc, ht.1, ht.2⟩) fun _ h => h.elim

/-- What `emit` leaves in the sink: whole bytes of the bits so far at its end, the rest in the buffer (R179, R180). -/
theorem emitted_spec (c : Bits) (s : State) :
    ∃ out rest, emitted c s = advanceSink out.length (written s.snkPos.toNat out { s with bitbuf := rest }) ∧
      Bit.unpack out ++ rest = s.bitbuf ++ c ∧
      (out = [] ∨ (s.bitbuf ++ c).length > s.params.flushThreshold ∧ out = drainedBytes false (s.bitbuf ++ c)) := by
  by_cases h : (s.bitbuf ++ c).length > s.params.flushThreshold
  · exact ⟨drainedBytes false (s.bitbuf ++ c), drainedRest false (s.bitbuf ++ c), by rw [emitted, if_pos h],
      unpack_drained_false _, Or.inr ⟨h, rfl⟩⟩
  · exact ⟨[], s.bitbuf ++ c, by rw [emitted, if_neg h]; simp [written_nil, advanceSink], rfl, Or.inl rfl⟩

/-- The state the last transition of ENCODE leaves (R181). -/
def flushedState (s : State) : State :=
  let out := drainedBytes true s.bitbuf
  let pad := BitVec.ofNat 8 (padCount (s.bitbuf.length % 8))
  finish Phase.flushed
    (written 0 [pad] { (advanceSink out.length (written s.snkPos.toNat out (drainBuffer true s))) with pad := pad })

theorem flushPayload_ends (s : State) :
    (flushPayload s).Ends
      (fun t => t = flushedState s ∧ (drainedBytes true s.bitbuf ≠ [] →
        s.snkPos.toNat + (drainedBytes true s.bitbuf).length < Config.spaceSize))
      (fun _ => False) := by
  refine (writeSeq_ends _ (drainBuffer true s)).andThen ?_
  rintro t ⟨rfl, h1⟩
  refine (memWrite_ends _ _ _).andThen ?_
  rintro u ⟨rfl, -⟩
  exact ⟨rfl, h1⟩

theorem flushPayload_on {s : State} (h : s.snkPos.toNat + Bit.ceil8 s.bitbuf.length < Config.spaceSize) :
    flushPayload s = .on (flushedState s) := by
  have h1 : (0 : Nat) + [BitVec.ofNat 8 (padCount (s.bitbuf.length % 8))].length < Config.spaceSize := by simp [Config.spaceSize]
  rw [flushPayload]
  rw [writeSeq_on (by simpa [drainedBytes_true_length, drainBuffer] using h), Flow.andThen_on, memWrite_on h1,
    Flow.andThen_on]
  rfl

end Sys2Proof.Machine
end

