-- ==== Sys2Proof/Laws/Engine.lean ====
section
/-! SUPPORT. The laws of the sequencer: what every transition leaves alone, how it writes the sink, and when one is
enabled (spec/20_memory.md rules R60, R72, R74, R78; spec/43_encoder.md rule R170; spec/44_decoder.md rule R200). -/

namespace Sys2Proof.Machine

/-- The byte writes of a piece of pseudocode: they are recorded in order and the sink is their replay (R75 (c)). -/
structure Logs (s t : State) : Prop where
  writes : ∃ ws : List Host.Cell, t.journal = s.journal ++ ws ∧ t.snk = s.snk.replay ws ∧
    ∀ c ∈ ws, c.1 < Config.spaceSize

theorem Logs.same {s t : State} (h : t.journal = s.journal) (h' : t.snk = s.snk) : Logs s t :=
  ⟨[], by rw [h, List.append_nil], h', fun _ hc => absurd hc List.not_mem_nil⟩

theorem Logs.trans {s t u : State} (h : Logs s t) (h' : Logs t u) : Logs s u := by
  obtain ⟨xs, h1, h2, h3⟩ := h.writes
  obtain ⟨ys, h4, h5, h6⟩ := h'.writes
  refine ⟨xs ++ ys, by rw [h4, h1, List.append_assoc], by rw [h5, h2, Memory.replay_append], fun c hc => ?_⟩
  rcases List.mem_append.1 hc with hc | hc
  · exact h3 c hc
  · exact h6 c hc

theorem Logs.written {a : Nat} {bs : List Byte} {s : State} (h : bs ≠ [] → a + bs.length < Config.spaceSize) :
    Logs s (written a bs s) := by
  refine ⟨cellsFrom a bs, by rw [written_eq], by rw [written_eq, Memory.replay_cellsFrom], fun c hc => ?_⟩
  have hb : bs ≠ [] := fun e => by subst e; simp [cellsFrom] at hc
  have := mem_cellsFrom hc
  have := h hb
  omega

theorem Logs.appended {bs : List Byte} {s : State} (h : Fits bs s) : Logs s (appended bs s) :=
  (Logs.written h).trans (Logs.same rfl rfl)

/-- What every transition of the engine does: the inputs stay as they are, and the sink is written as recorded. -/
structure Moves (s t : State) : Prop where
  inputs : SameInputs s t
  logs : Logs s t

theorem Moves.raise (e : ErrorKind) (s : State) : Moves s (raise e s) :=
  ⟨raise_sameInputs e s, Logs.same rfl rfl⟩

theorem Moves.trans {s t u : State} (h : Moves s t) (h' : Moves t u) : Moves s u :=
  ⟨h.1.trans h'.1, h.2.trans h'.2⟩

theorem Moves.appended {bs : List Byte} {s : State} (h : Fits bs s) : Moves s (appended bs s) :=
  ⟨⟨by simp, by simp, by simp, by simp, by simp, by simp⟩, Logs.appended h⟩

theorem Moves.same {s t : State} (h : SameInputs s t) (h1 : t.journal = s.journal) (h2 : t.snk = s.snk) : Moves s t :=
  ⟨h, Logs.same h1 h2⟩

theorem memWrite_moves (a : Nat) (bs : List Byte) (s : State) : (memWrite a bs s).Ends (Moves s) (Moves s) :=
  (memWrite_ends a bs s).weaken
    (fun t ht => by rw [ht.1]; exact ⟨written_sameInputs a bs s, Logs.written ht.2⟩) fun _ h => h.elim

/-- Composition of what every piece does. -/
theorem Flow.Ends.moves {s : State} {f : Flow} {k : State → Flow} (h : f.Ends (Moves s) (Moves s))
    (hk : ∀ t, (k t).Ends (Moves t) (Moves t)) : (f.andThen k).Ends (Moves s) (Moves s) :=
  h.andThen fun t ht => (hk t).weaken (fun _ hu => ht.trans hu) fun _ hu => ht.trans hu

theorem writeSeq_moves (bs : List Byte) (s : State) : (writeSeq bs s).Ends (Moves s) (Moves s) :=
  (memWrite_moves _ _ s).moves fun _ => Moves.same ⟨rfl, rfl, rfl, rfl, rfl, rfl⟩ rfl rfl

theorem Flow.Ends.moves_from {s s' : State} {f : Flow} (hs : Moves s s') (h : f.Ends (Moves s') (Moves s')) :
    f.Ends (Moves s) (Moves s) := h.weaken (fun _ ht => hs.trans ht) fun _ ht => hs.trans ht

theorem packTable_moves (s : State) : (packTable s).Ends (Moves s) (Moves s) := by
  unfold packTable
  refine Flow.Ends.moves ?_ fun _ => ?_
  · exact Flow.Ends.moves_from (s' := drainBuffer true s) (Moves.same ⟨rfl, rfl, rfl, rfl, rfl, rfl⟩ rfl rfl)
      (memWrite_moves _ _ _)
  · exact Moves.same ⟨rfl, rfl, rfl, rfl, rfl, rfl⟩ rfl rfl

theorem patchTableLength_moves (s : State) : (patchTableLength s).Ends (Moves s) (Moves s) := by
  unfold patchTableLength
  refine Flow.Ends.moves ?_ fun _ => ?_
  · exact Flow.Ends.moves_from (s' := { s with tlen := s.hbits }) (Moves.same ⟨rfl, rfl, rfl, rfl, rfl, rfl⟩ rfl rfl)
      (memWrite_moves _ _ _)
  · exact Moves.same ⟨rfl, rfl, rfl, rfl, rfl, rfl⟩ rfl rfl

theorem writeHeader_moves (s : State) : (writeHeader s).Ends (Moves s) (Moves s) := by
  refine Flow.Ends.moves ?_ fun t => Flow.Ends.moves ?_ patchTableLength_moves
  · exact (memWrite_moves _ _ s).moves fun _ => Moves.same ⟨rfl, rfl, rfl, rfl, rfl, rfl⟩ rfl rfl
  · refine Flow.Ends.moves_from (s' := serialiseTable t) ?_ (packTable_moves _)
    rw [serialiseTable_eq]
    exact Moves.same ⟨rfl, rfl, rfl, rfl, rfl, rfl⟩ rfl rfl

theorem emitHeader_moves (s : State) : (emitHeader s).Ends (Moves s) (Moves s) :=
  (writeHeader_moves s).moves fun _ => Moves.same ⟨rfl, rfl, rfl, rfl, rfl, rfl⟩ rfl rfl

theorem encodeStep_moves (s : State) : (encodeStep s).Ends (Moves s) (Moves s) := by
  refine (encodeStep_ends s).weaken ?_ ?_
  · rintro t ⟨b, c, -, -, rfl, hf⟩
    unfold emitted
    split
    · next h =>
      exact Moves.trans (t := { s with
          srcPos := s.srcPos + 1, bitbuf := drainedRest false (s.bitbuf ++ c) })
        (Moves.same ⟨rfl, rfl, rfl, rfl, rfl, rfl⟩ rfl rfl) (Moves.appended fun hne => hf h hne)
    · exact Moves.same ⟨rfl, rfl, rfl, rfl, rfl, rfl⟩ rfl rfl
  · rintro t ⟨b, -, -, rfl⟩
    exact Moves.trans (t := { s with srcPos := s.srcPos + 1 }) (Moves.same ⟨rfl, rfl, rfl, rfl, rfl, rfl⟩ rfl rfl)
      (Moves.raise _ _)

theorem flushPayload_moves (s : State) : (flushPayload s).Ends (Moves s) (Moves s) := by
  refine Flow.Ends.moves ?_ fun t => ?_
  · exact Flow.Ends.moves_from (s' := drainBuffer true s) (Moves.same ⟨rfl, rfl, rfl, rfl, rfl, rfl⟩ rfl rfl)
      (writeSeq_moves _ _)
  · refine Flow.Ends.moves ?_ fun u => Moves.same ⟨rfl, rfl, rfl, rfl, rfl, rfl⟩ rfl rfl
    exact Flow.Ends.moves_from (s' := { t with pad := BitVec.ofNat 8 (padCount (s.bitbuf.length % 8)) }) (Moves.same ⟨rfl, rfl, rfl, rfl, rfl, rfl⟩ rfl rfl)
      (memWrite_moves _ _ _)

theorem readHeader_moves (s : State) : (readHeader s).Ends (Moves s) (Moves s) := by
  have hloop : ∀ tbl n (u : State), (readEntries tbl n u).Ends (Moves u) (Moves u) := by
    intro tbl n
    induction n with
    | zero => intro u; exact Moves.same SameInputs.rfl rfl rfl
    | succ n ih =>
      intro u
      rw [readEntries]
      split
      · refine Flow.Ends.moves ?_ ih
        unfold readEntry
        split
        · exact Moves.raise _ _
        · exact (takeEntry_ends _ _ _ u).weaken
            (fun t ht => by subst ht; exact Moves.same ⟨rfl, rfl, rfl, rfl, rfl, rfl⟩ rfl rfl)
            fun t ht => by subst ht; exact Moves.raise _ _
      · exact Moves.same SameInputs.rfl rfl rfl
  refine Flow.Ends.moves ?_ fun t => ?_
  · unfold readFixed
    split
    · exact Moves.raise _ _
    · exact Flow.Ends.withValue fun p _ => Flow.Ends.withValue fun q _ =>
        Moves.same ⟨rfl, rfl, rfl, rfl, rfl, rfl⟩ rfl rfl
  · unfold readTable readTableOf
    split
    · exact Moves.raise _ _
    · refine Flow.Ends.withValue fun bytes _ => ?_
      refine Flow.Ends.moves ?_ fun u => Moves.same ⟨rfl, rfl, rfl, rfl, rfl, rfl⟩ rfl rfl
      unfold readTableBytes
      simp only [appendBytes_eq]
      exact Flow.Ends.moves_from (s' := startTable (clearBuffer t)) (Moves.same ⟨rfl, rfl, rfl, rfl, rfl, rfl⟩ rfl rfl)
        (hloop _ _ _)

theorem walked_moves {out : List Symbol} {r c : Bits} {s : State} (h : Fits out s) : Moves s (walked out r c s) :=
  Moves.trans (t := { s with bitbuf := r, cand := c }) (Moves.same ⟨rfl, rfl, rfl, rfl, rfl, rfl⟩ rfl rfl)
    (Moves.appended h)

theorem decodeChunk_moves (s : State) : (decodeChunk s).Ends (Moves s) (Moves s) := by
  have h0 : Moves s { s with srcPos := s.srcPos + BitVec.ofNat 64 (chunkBytes s) } :=
    Moves.same ⟨rfl, rfl, rfl, rfl, rfl, rfl⟩ rfl rfl
  refine (decodeChunk_ends s).weaken ?_ ?_
  · rintro t ⟨out, c, hf, -, rfl⟩
    exact h0.trans (walked_moves hf)
  · rintro t ⟨out, r, c, hf, -, rfl⟩
    exact (h0.trans (walked_moves hf)).trans (Moves.raise _ _)

theorem encoderTransition_moves (s : State) : (encoderTransition s).Ends (Moves s) (Moves s) := by
  unfold encoderTransition
  split
  · refine (countFrequencies_ends s).weaken ?_ fun _ h => h.elim
    rintro t ⟨f, rfl⟩
    exact Moves.same ⟨rfl, rfl, rfl, rfl, rfl, rfl⟩ rfl rfl
  split
  · obtain ⟨nodes, nl, nn, root, h⟩ := makeTree_on s
    rw [h]
    exact Moves.same ⟨rfl, rfl, rfl, rfl, rfl, rfl⟩ rfl rfl
  split
  · exact emitHeader_moves s
  split
  · exact Moves.same ⟨rfl, rfl, rfl, rfl, rfl, rfl⟩ rfl rfl
  split
  · split
    · exact encodeStep_moves s
    · split
      · exact flushPayload_moves s
      · trivial
  · trivial

theorem decoderTransition_moves (s : State) : (decoderTransition s).Ends (Moves s) (Moves s) := by
  unfold decoderTransition
  split
  · exact (readHeader_moves s).moves fun t => Moves.same ⟨rfl, rfl, rfl, rfl, rfl, rfl⟩ rfl rfl
  split
  · exact Moves.same ⟨rfl, rfl, rfl, rfl, rfl, rfl⟩ rfl rfl
  split
  · split
    · exact decodeChunk_moves s
    · split
      · exact Moves.same ⟨rfl, rfl, rfl, rfl, rfl, rfl⟩ rfl rfl
      · trivial
  · trivial

/-- Every transition of the engine leaves its inputs alone and records its writes (R60, R72, R74, R78). -/
theorem engineTransition_moves (s : State) : (engineTransition s).Ends (Moves s) (Moves s) := by
  unfold engineTransition
  split
  · exact decoderTransition_moves s
  · exact encoderTransition_moves s

theorem engineMove_moves {s t : State} (h : engineMove s = .next t) : Moves s t := by
  unfold engineMove at h
  split at h
  · exact (engineTransition_moves s).of_outcome h
  · cases h; exact Moves.same SameInputs.rfl rfl rfl

/-- The writes a reset can cut short are the recorded ones of the transition in progress (R262). -/
theorem pendingWrites_space (s : State) : ∀ c ∈ pendingWrites s, c.1 < Config.spaceSize := by
  intro c hc
  unfold pendingWrites at hc
  cases h : engineMove s with
  | next t =>
    obtain ⟨ws, h1, -, h3⟩ := (engineMove_moves h).logs.writes
    rw [h] at hc
    simp only [h1, List.drop_left] at hc
    exact h3 c hc
  | fault f => rw [h] at hc; exact absurd hc List.not_mem_nil
  | refused r => rw [h] at hc; exact absurd hc List.not_mem_nil

end Sys2Proof.Machine
end

