-- ==== Sys2Proof/Laws/Invariant.lean ====
section
/-! SUPPORT. The invariant of Safety.lean, transition by transition (spec/43_encoder.md, spec/44_decoder.md): what a
running command keeps. -/

namespace Sys2Proof.Machine

/-- The flags while a command runs (R22, R23, R24). -/
theorem Inv.flags {s : State} (h : Inv s) (hb : s.status.busy = true) :
    s.status.done = false ∧ s.status.fail = false ∧ s.err = 0 ∧
      s.status.phase.toNat < (finalPhase s.status.mode).toNat := by
  rcases h.status_legal with ⟨-, h1, h2, h3, h4⟩ | ⟨h1, -⟩ | ⟨h1, -⟩ | ⟨h1, -⟩
  · exact ⟨h1, h2, h3, h4⟩
  · rw [hb] at h1; cases h1
  · rw [hb] at h1; cases h1
  · rw [h1] at hb; cases hb

theorem Status.Legal.running {t : Status} {err : BitVec 8} (hb : t.busy = true) (hd : t.done = false)
    (hf : t.fail = false) (he : err = 0) (hp : t.phase.toNat < (finalPhase t.mode).toNat) : t.Legal err :=
  Or.inl ⟨hb, hd, hf, he, hp⟩

theorem Status.Legal.ended {t : Status} {err : BitVec 8} (hb : t.busy = false) (hd : t.done = true)
    (hf : t.fail = false) (he : err = 0) (hp : t.phase = finalPhase t.mode) : t.Legal err :=
  Or.inr (Or.inl ⟨hb, hd, hf, he, hp⟩)

theorem Status.Legal.failed {t : Status} {err : BitVec 8} (hb : t.busy = false) (hd : t.done = false)
    (hf : t.fail = true) (hp : t.ErrorPlace err) : t.Legal err :=
  Or.inr (Or.inr (Or.inl ⟨hb, hd, hf, hp⟩))

theorem fill_reset : EncoderRegistersReset State.reset := ⟨rfl, rfl, rfl, rfl, rfl, rfl⟩

/-- A command that starts keeps the invariant (R40, R170, R200). -/
theorem Inv.start {s : State} (h : Inv s) (mode : Bool) (hsz : s.srcSize.toNat < Config.sizeLimit)
    (hc : mode = true → 1 ≤ s.params.chunkSize) : Inv (startCommand mode s) where
  src_wf := h.src_wf
  snk_wf := h.snk_wf
  dec_wf := rfl
  issue_none := rfl
  status_legal := Status.Legal.running rfl rfl rfl rfl (by cases mode <;> simp [startCommand, Status.started,
      Status.reset, finalPhase, Phase.done, Phase.flushed])
  position_at_end := rfl
  decode_keeps := fun _ => ⟨fill_reset, rfl⟩
  encode_keeps := fun _ => ⟨rfl, rfl⟩
  discarded := fun _ _ => fill_reset
  queue_empty := rfl
  running := fun _ =>
    { size_limit := hsz
      chunk_pos := hc
      position_le := Nat.zero_le _
      contiguous := fun a ha => absurd ha (Nat.not_lt_zero a)
      empty_before := fun _ => rfl
      header_there := fun _ hp => absurd hp (by simp [startCommand, Status.started, Status.reset])
      payload_start := fun _ hp => absurd hp (by simp [startCommand, Status.started, Status.reset, Phase.headerParsed])
      buffer_empty := fun _ => rfl }

/-- Reset keeps the invariant, whatever of the sink's bytes stands (R260, R262). -/
theorem Inv.resetEngine {s : State} (h1 : s.src.wf = true) (h2 : s.snk.wf = true) : Inv (resetEngine s) where
  src_wf := h1
  snk_wf := h2
  dec_wf := rfl
  issue_none := rfl
  status_legal := Or.inr (Or.inr (Or.inr ⟨rfl, rfl⟩))
  position_at_end := rfl
  decode_keeps := fun _ => ⟨fill_reset, rfl⟩
  encode_keeps := fun _ => ⟨rfl, rfl⟩
  discarded := fun _ _ => fill_reset
  queue_empty := rfl
  running := fun hb => absurd hb (by simp [Machine.resetEngine, State.reset, Status.reset])

/-! ### ENCODE -/

theorem Inv.countFrequencies {s : State} (h : Inv s) (hb : s.status.busy = true) (hm : s.status.mode = false)
    (hp : s.status.phase = Phase.idle) : (countFrequencies s).Ends Inv Inv := by
  refine (countFrequencies_ends s).weaken ?_ fun _ hf => hf.elim
  rintro t ⟨f, rfl⟩
  obtain ⟨hd, hf, he, -⟩ := h.flags hb
  have hr := h.running hb
  exact {
    src_wf := h.src_wf
    snk_wf := h.snk_wf
    dec_wf := h.dec_wf
    issue_none := h.issue_none
    status_legal := Status.Legal.running hb hd hf he (by simp [hm, finalPhase, Phase.flushed, Phase.frequencyCounted])
    position_at_end := h.position_at_end
    decode_keeps := fun hm' => absurd (hm.symm.trans hm') (by decide)
    encode_keeps := fun _ => h.encode_keeps hm
    discarded := fun _ hp' => absurd hp' (by simp [Phase.frequencyCounted])
    queue_empty := h.queue_empty
    running := fun _ =>
      { size_limit := hr.size_limit
        chunk_pos := fun hm' => absurd (hm.symm.trans hm') (by decide)
        position_le := Nat.le_refl _
        contiguous := hr.contiguous
        empty_before := fun _ => hr.empty_before (by simp [hm, hp, Phase.idle])
        header_there := fun _ hp' => absurd hp' (by simp [Phase.frequencyCounted])
        payload_start := fun hm' => absurd (hm.symm.trans hm') (by decide)
        buffer_empty := fun _ => hr.buffer_empty (Or.inr (by simp [hp, Phase.idle])) } }

theorem Inv.makeTree {s : State} (h : Inv s) (hb : s.status.busy = true) (hm : s.status.mode = false)
    (hp : s.status.phase = Phase.frequencyCounted) : (makeTree s).Ends Inv Inv := by
  obtain ⟨nodes, nl, nn, root, hrun⟩ := makeTree_on s
  rw [hrun]
  obtain ⟨hd, hf, he, -⟩ := h.flags hb
  have hr := h.running hb
  exact {
    src_wf := h.src_wf
    snk_wf := h.snk_wf
    dec_wf := h.dec_wf
    issue_none := h.issue_none
    status_legal := Status.Legal.running hb hd hf he (by simp [hm, finalPhase, Phase.flushed, Phase.treeBuilt])
    position_at_end := h.position_at_end
    decode_keeps := fun hm' => absurd (hm.symm.trans hm') (by decide)
    encode_keeps := fun _ => h.encode_keeps hm
    discarded := fun _ hp' => absurd hp' (by simp [Phase.treeBuilt])
    queue_empty := rfl
    running := fun _ =>
      { size_limit := hr.size_limit
        chunk_pos := fun hm' => absurd (hm.symm.trans hm') (by decide)
        position_le := hr.position_le
        contiguous := hr.contiguous
        empty_before := fun _ => hr.empty_before (by simp [hm, hp, Phase.frequencyCounted])
        header_there := fun _ hp' => absurd hp' (by simp [Phase.treeBuilt])
        payload_start := fun hm' => absurd (hm.symm.trans hm') (by decide)
        buffer_empty := fun _ => hr.buffer_empty (Or.inr (by simp [hp, Phase.frequencyCounted])) } }

/-- The sink after the header is written: contiguous, in canonical form (R72, R175). -/
theorem headerWritten_sink {s : State} (hw : s.snk.wf = true)
    (hl : (packBits (tableBits s.code)).length + 5 < Config.spaceSize) :
    (headerWritten s).snk.wf = true ∧ SinkContiguous (headerWritten s) := by
  simp only [Config.spaceSize] at hl
  have h32 : ∀ v : BitVec 32, (Bit.le32 v).length = 4 := fun _ => rfl
  constructor
  · refine Memory.wf_writeRun _ _ _ (Memory.wf_writeRun _ _ _ (Memory.wf_writeRun _ _ _ hw ?_) ?_) ?_
    · simp [Config.spaceSize]
    · simp only [Config.spaceSize]; omega
    · rw [h32]; simp [Config.spaceSize]
  · intro a ha
    have ha' : a < 5 + (packBits (tableBits s.code)).length := by
      have : (headerWritten s).snkSize.toNat = 5 + (packBits (tableBits s.code)).length := by
        simp only [headerWritten, BitVec.toNat_ofNat]; omega
      omega
    simp only [headerWritten]
    rw [Memory.read_writeRun]
    split
    · split
      · next h1 h2 => rw [List.getElem?_eq_getElem (by omega)]; rfl
      · next h1 h2 =>
        rw [h32] at h2
        rw [Memory.read_writeRun, if_pos (by omega), if_pos (by omega)]
        rw [List.getElem?_eq_getElem (by omega)]; rfl
    · next h1 =>
      have : a = 0 := by omega
      subst this
      rw [Memory.read_writeRun, if_neg (by omega), Memory.read_writeRun, if_pos (by omega), if_pos (by simp)]
      rfl

theorem Inv.emitHeader {s : State} (h : Inv s) (hb : s.status.busy = true) (hm : s.status.mode = false)
    (hp : s.status.phase = Phase.treeBuilt) : (emitHeader s).Ends Inv Inv := by
  obtain ⟨hd, hf, he, -⟩ := h.flags hb
  have hr := h.running hb
  have hbuf := hr.buffer_empty (Or.inr (by simp [hp, Phase.treeBuilt]))
  have hsnk := hr.empty_before (by simp [hm, hp, Phase.treeBuilt])
  refine (emitHeader_ends hbuf hsnk).weaken ?_ fun _ hf => hf.elim
  rintro t ⟨rfl, hl⟩
  obtain ⟨hw, hcont⟩ := headerWritten_sink h.snk_wf hl
  exact {
    src_wf := h.src_wf
    snk_wf := hw
    dec_wf := h.dec_wf
    issue_none := h.issue_none
    status_legal := Status.Legal.running hb hd hf he (by
      show Phase.headerWritten.toNat < (finalPhase s.status.mode).toNat
      simp [hm, finalPhase, Phase.flushed, Phase.headerWritten])
    position_at_end := rfl
    decode_keeps := fun hm' => absurd (hm.symm.trans hm') (by decide)
    encode_keeps := fun _ => h.encode_keeps hm
    discarded := fun _ _ => ⟨rfl, rfl, rfl, rfl, rfl, rfl⟩
    queue_empty := rfl
    running := fun _ =>
      { size_limit := hr.size_limit
        chunk_pos := fun hm' => absurd (hm.symm.trans hm') (by decide)
        position_le := hr.position_le
        contiguous := hcont
        empty_before := fun hlt => absurd hlt (by
          show ¬ Phase.headerWritten.toNat < (if s.status.mode = true then 2 else 3)
          simp [hm, Phase.headerWritten])
        header_there := fun _ _ => by
          show 5 ≤ (BitVec.ofNat 64 (5 + (packBits (tableBits s.code)).length)).toNat
          simp only [Config.spaceSize] at hl
          rw [BitVec.toNat_ofNat]; omega
        payload_start := fun hm' => absurd (hm.symm.trans hm') (by decide)
        buffer_empty := fun _ => rfl } }

theorem Inv.seekSource {s : State} (h : Inv s) (hb : s.status.busy = true) (hm : s.status.mode = false)
    (hp : s.status.phase = Phase.headerWritten) : (seekSource s).Ends Inv Inv := by
  obtain ⟨hd, hf, he, -⟩ := h.flags hb
  have hr := h.running hb
  exact {
    src_wf := h.src_wf
    snk_wf := h.snk_wf
    dec_wf := h.dec_wf
    issue_none := h.issue_none
    status_legal := Status.Legal.running hb hd hf he (by
      show Phase.encoding.toNat < (finalPhase s.status.mode).toNat
      simp [hm, finalPhase, Phase.flushed, Phase.encoding])
    position_at_end := h.position_at_end
    decode_keeps := fun hm' => absurd (hm.symm.trans hm') (by decide)
    encode_keeps := fun _ => h.encode_keeps hm
    discarded := fun _ _ => h.discarded hm (by simp [hp, Phase.headerWritten])
    queue_empty := h.queue_empty
    running := fun _ =>
      { size_limit := hr.size_limit
        chunk_pos := fun hm' => absurd (hm.symm.trans hm') (by decide)
        position_le := Nat.zero_le _
        contiguous := hr.contiguous
        empty_before := fun hlt => absurd hlt (by
          show ¬ Phase.encoding.toNat < (if s.status.mode = true then 2 else 3)
          simp [hm, Phase.encoding])
        header_there := fun _ _ => hr.header_there hm (by simp [hp, Phase.headerWritten])
        payload_start := fun hm' => absurd (hm.symm.trans hm') (by decide)
        buffer_empty := fun hc => by
          rcases hc with hc | hc
          · exact absurd (hm.symm.trans hc) (by decide)
          · exact absurd hc (by show ¬ Phase.encoding.toNat < 4; decide) } }

/-- What the steps that write in sequence keep: a state that differs from one with the invariant by bytes at the end of
the sink, the buffer, the candidate and the source position. -/
theorem Inv.appended {s t : State} {bytes : List Byte} (h : Inv s) (hb : s.status.busy = true)
    (hsrc : t.src = s.src) (hsnk : t.snk = s.snk) (hdec : t.dec = s.dec) (hissue : t.issue = s.issue)
    (hstat : t.status = s.status) (herr : t.err = s.err) (hpos : t.snkPos = s.snkPos) (hsize : t.snkSize = s.snkSize)
    (hreg : EncoderRegistersReset s → EncoderRegistersReset t) (hcode : t.code = s.code) (hpq : t.pq = s.pq)
    (hsz : t.srcSize = s.srcSize) (hparams : t.params = s.params) (hle : t.srcPos.toNat ≤ t.srcSize.toNat)
    (hfit : Fits bytes t) (hcand : s.status.mode = false → t.cand = s.cand)
    (hphase : (if s.status.mode then 2 else 4) ≤ s.status.phase.toNat)
    (hbuf : s.status.mode = true → t.bitbuf = []) : Inv (appended bytes t) := by
  have hr := h.running hb
  have hend : t.snkPos = t.snkSize := by rw [hpos, hsize]; exact h.position_at_end
  have hsnkSize := appended_end hend hfit
  exact {
    src_wf := by rw [appended_src, hsrc]; exact h.src_wf
    snk_wf := by
      show (written t.snkPos.toNat bytes t).snk.wf = true
      exact written_wf (by rw [hsnk]; exact h.snk_wf) hfit
    dec_wf := by rw [appended_dec, hdec]; exact h.dec_wf
    issue_none := by rw [appended_issue, hissue]; exact h.issue_none
    status_legal := by rw [appended_status, appended_err, hstat, herr]; exact h.status_legal
    position_at_end := hsnkSize
    decode_keeps := fun hm => by
      rw [appended_status, hstat] at hm
      obtain ⟨h1, h2⟩ := h.decode_keeps hm
      refine ⟨?_, by rw [appended_code, hcode]; exact h2⟩
      have := hreg h1
      simpa [EncoderRegistersReset] using this
    encode_keeps := fun hm => by
      rw [appended_status, hstat] at hm
      rw [appended_dec, appended_cand, hdec, hcand hm]
      exact h.encode_keeps hm
    discarded := fun hm hp => by
      rw [appended_status, hstat] at hm hp
      have := hreg (h.discarded hm hp)
      simpa [EncoderRegistersReset] using this
    queue_empty := by rw [appended_pq, hpq]; exact h.queue_empty
    running := fun _ =>
      { size_limit := by rw [appended_srcSize, hsz]; exact hr.size_limit
        chunk_pos := fun hm => by
          rw [appended_status, hstat] at hm
          rw [appended_params, hparams]; exact hr.chunk_pos hm
        position_le := by rw [appended_srcPos, appended_srcSize]; exact hle
        contiguous := appended_contiguous hend hfit (by rw [hsize, hsnk]; exact hr.contiguous)
        empty_before := fun hlt => by
          rw [appended_status, hstat] at hlt
          exfalso
          cases hm : s.status.mode <;> simp only [hm] at hlt hphase <;> simp at hlt hphase <;> omega
        header_there := fun hm hp => by
          rw [appended_status, hstat] at hm hp
          have h5 := hr.header_there hm hp
          rw [← hsnkSize, hfit.snkPos, hpos, h.position_at_end]
          omega
        payload_start := fun hm hp => by
          rw [appended_status, hstat] at hm hp
          rw [hm, hp] at hphase
          exact absurd hphase (by decide)
        buffer_empty := fun hc => by
          rw [appended_status, hstat] at hc
          rw [appended_bitbuf]
          rcases hc with hc | hc
          · exact hbuf hc
          · cases hm : s.status.mode with
            | true => exact hbuf hm
            | false => rw [hm] at hphase; simp at hphase; omega } }

/-- An error keeps the invariant where the place is one of the three (R236, R238). -/
theorem Inv.raise {s : State} (e : ErrorKind) (h1 : s.src.wf = true) (h2 : s.snk.wf = true) (h3 : s.dec.wf = true)
    (h4 : s.issue = none) (h5 : s.snkPos = s.snkSize)
    (h6 : s.status.mode = true → EncoderRegistersReset s ∧ s.code = RegFile.fill 256 none)
    (h7 : s.status.mode = false → s.dec = [] ∧ s.cand = [])
    (h8 : s.status.mode = false → 3 ≤ s.status.phase.toNat → EncoderRegistersReset s) (h9 : s.pq = [])
    (hp : s.status.ErrorPlace e.number) : Inv (raise e s) where
  src_wf := h1
  snk_wf := h2
  dec_wf := h3
  issue_none := h4
  status_legal := Status.Legal.failed rfl rfl rfl hp
  position_at_end := h5
  decode_keeps := h6
  encode_keeps := h7
  discarded := h8
  queue_empty := h9
  running := fun hb => absurd hb (by simp [Machine.raise, Status.failed])

theorem Inv.encodeStep {s : State} (h : Inv s) (hb : s.status.busy = true) (hm : s.status.mode = false)
    (hp : s.status.phase = Phase.encoding) (hlt : s.srcPos.toNat < s.srcSize.toNat) :
    (encodeStep s).Ends Inv Inv := by
  have hr := h.running hb
  have hpos : (s.srcPos + 1).toNat = s.srcPos.toNat + 1 := by
    have := s.srcSize.isLt
    rw [BitVec.toNat_add]; simp; omega
  refine (encodeStep_ends s).weaken ?_ ?_
  · rintro t ⟨b, c, -, -, rfl, hf⟩
    have key : ∀ (buf : Bits) (bytes : List Byte), Fits bytes { s with bitbuf := buf, srcPos := s.srcPos + 1 } →
        Inv (Machine.appended bytes { s with bitbuf := buf, srcPos := s.srcPos + 1 }) := fun buf bytes hfit =>
      Inv.appended h hb rfl rfl rfl rfl rfl rfl rfl rfl (fun x => x) rfl rfl rfl rfl (by simp only [hpos]; omega) hfit
        (fun _ => rfl) (by simp [hm, hp, Phase.encoding]) fun hm' => absurd (hm.symm.trans hm') (by decide)
    unfold emitted
    split
    · next hlen => exact key (drainedRest false (s.bitbuf ++ c)) _ fun hne => hf hlen hne
    · have := key (s.bitbuf ++ c) [] (Fits.nil _)
      rwa [appended_nil] at this
  · rintro t ⟨b, -, -, rfl⟩
    exact Inv.raise _ h.src_wf h.snk_wf h.dec_wf h.issue_none h.position_at_end h.decode_keeps h.encode_keeps
      h.discarded h.queue_empty (Or.inr (Or.inr ⟨hm, hp, rfl⟩))

theorem Inv.flushPayload {s : State} (h : Inv s) (hb : s.status.busy = true) (hm : s.status.mode = false)
    (hp : s.status.phase = Phase.encoding) : (flushPayload s).Ends Inv Inv := by
  obtain ⟨hd, hf, he, -⟩ := h.flags hb
  have hr := h.running hb
  refine (flushPayload_ends s).weaken ?_ fun _ hf => hf.elim
  rintro t ⟨rfl, hfit⟩
  have h1 : Inv (Machine.appended (drainedBytes true s.bitbuf) (drainBuffer true s)) :=
    Inv.appended h hb rfl rfl rfl rfl rfl rfl rfl rfl (fun x => x) rfl rfl rfl rfl hr.position_le hfit (fun _ => rfl)
      (by simp [hm, hp, Phase.encoding]) fun _ => rfl
  have hstat : (Machine.appended (drainedBytes true s.bitbuf) (drainBuffer true s)).status = s.status := by
    rw [appended_status]; rfl
  generalize hu : Machine.appended (drainedBytes true s.bitbuf) (drainBuffer true s) = u at h1 hstat
  have hform : flushedState s = finish Phase.flushed
      (written 0 [BitVec.ofNat 8 (padCount (s.bitbuf.length % 8))]
        { u with pad := BitVec.ofNat 8 (padCount (s.bitbuf.length % 8)) }) := by
    rw [← hu]; rfl
  rw [hform]
  generalize BitVec.ofNat 8 (padCount (s.bitbuf.length % 8)) = pad
  have hbu : u.status.busy = true := by rw [hstat]; exact hb
  have hru := h1.running hbu
  have h5 := hru.header_there (by rw [hstat]; exact hm) (by rw [hstat, hp]; decide)
  have hsize : (written 0 [pad] { u with pad := pad }).snkSize = u.snkSize := by
    rw [written_eq]
    simp only [reduceCtorEq, if_false, List.length_singleton]
    rw [Nat.max_eq_left (by omega)]
    simp
  obtain ⟨hdu, hfu, heu, -⟩ := h1.flags hbu
  have hne : (written 0 [pad] { u with pad := pad }).status = u.status := by rw [written_status]
  exact {
    src_wf := by simp; exact h1.src_wf
    snk_wf := by
      rw [finish_snk]
      exact written_wf h1.snk_wf fun _ => by simp [Config.spaceSize]
    dec_wf := by simp; exact h1.dec_wf
    issue_none := by simp; exact h1.issue_none
    status_legal := by
      refine Status.Legal.ended rfl rfl ?_ ?_ ?_
      · show (written 0 [pad] { u with pad := pad }).status.fail = false
        rw [hne]; exact hfu
      · rw [finish_err, written_err]; exact heu
      · show Phase.flushed = finalPhase (written 0 [pad] { u with pad := pad }).status.mode
        rw [hne, hstat, hm]; rfl
    position_at_end := by rw [finish_snkPos, finish_snkSize, hsize, written_snkPos]; exact h1.position_at_end
    decode_keeps := fun hm' => by
      have : (written 0 [pad] { u with pad := pad }).status.mode = true := hm'
      rw [hne, hstat, hm] at this
      cases this
    encode_keeps := fun _ => by
      rw [finish_dec, finish_cand, written_dec, written_cand]
      exact h1.encode_keeps (by rw [hstat]; exact hm)
    discarded := fun _ _ => by
      have := h1.discarded (by rw [hstat]; exact hm) (by rw [hstat, hp]; decide)
      simpa [EncoderRegistersReset] using this
    queue_empty := by simp; exact h1.queue_empty
    running := fun hb' => absurd hb' (by simp [finish]) }

/-! ### DECODE -/

theorem Inv.parseHeader {s : State} (h : Inv s) (hb : s.status.busy = true) (hm : s.status.mode = true)
    (hp : s.status.phase = Phase.idle) : (parseHeader s).Ends Inv Inv := by
  obtain ⟨hd, hf, he, -⟩ := h.flags hb
  have hr := h.running hb
  refine ((readHeader_ends s h.dec_wf).weaken (fun t ht => ht) ?_).andThen ?_
  · rintro t ⟨p, T, hb', d, buf, hw, rfl⟩
    exact Inv.raise _ h.src_wf h.snk_wf hw h.issue_none h.position_at_end h.decode_keeps
      (fun hm' => absurd (hm.symm.trans hm') (by decide)) h.discarded h.queue_empty (Or.inl ⟨hm, hp, rfl⟩)
  · rintro t ⟨p, T, hb', d, hw, hle, rfl⟩
    have hsz := hr.size_limit
    simp only [Config.sizeLimit] at hsz
    exact {
      src_wf := h.src_wf
      snk_wf := h.snk_wf
      dec_wf := hw
      issue_none := h.issue_none
      status_legal := Status.Legal.running hb hd hf he (by
        show Phase.headerParsed.toNat < (finalPhase s.status.mode).toNat
        simp [hm, finalPhase, Phase.headerParsed, Phase.done])
      position_at_end := h.position_at_end
      decode_keeps := fun _ => h.decode_keeps hm
      encode_keeps := fun hm' => absurd (hm.symm.trans hm') (by decide)
      discarded := fun hm' => absurd (hm.symm.trans hm') (by decide)
      queue_empty := h.queue_empty
      running := fun _ =>
        { size_limit := hr.size_limit
          chunk_pos := fun _ => hr.chunk_pos hm
          position_le := by
            show (BitVec.ofNat 64 (5 + tableBytesOf T)).toNat ≤ s.srcSize.toNat
            rw [BitVec.toNat_ofNat, Nat.mod_eq_of_lt (by omega)]; exact hle
          contiguous := hr.contiguous
          empty_before := fun _ => hr.empty_before (by simp [hm, hp, Phase.idle])
          header_there := fun hm' => absurd (hm.symm.trans hm') (by decide)
          payload_start := fun _ _ => rfl
          buffer_empty := fun _ => rfl } }

theorem Inv.seekPayload {s : State} (h : Inv s) (hb : s.status.busy = true) (hm : s.status.mode = true)
    (hp : s.status.phase = Phase.headerParsed) : (seekPayload s).Ends Inv Inv := by
  obtain ⟨hd, hf, he, -⟩ := h.flags hb
  have hr := h.running hb
  have h0 := hr.empty_before (by simp [hm, hp, Phase.headerParsed])
  exact {
    src_wf := h.src_wf
    snk_wf := h.snk_wf
    dec_wf := h.dec_wf
    issue_none := h.issue_none
    status_legal := Status.Legal.running hb hd hf he (by
      show Phase.decoding.toNat < (finalPhase s.status.mode).toNat
      simp [hm, finalPhase, Phase.decoding, Phase.done])
    position_at_end := h0.symm
    decode_keeps := fun _ => h.decode_keeps hm
    encode_keeps := fun hm' => absurd (hm.symm.trans hm') (by decide)
    discarded := fun hm' => absurd (hm.symm.trans hm') (by decide)
    queue_empty := h.queue_empty
    running := fun _ =>
      { size_limit := hr.size_limit
        chunk_pos := fun _ => hr.chunk_pos hm
        position_le := by
          show s.payloadOff.toNat ≤ s.srcSize.toNat
          rw [← hr.payload_start hm hp]; exact hr.position_le
        contiguous := hr.contiguous
        empty_before := fun hlt => absurd hlt (by
          show ¬ Phase.decoding.toNat < (if s.status.mode = true then 2 else 3)
          simp [hm, Phase.decoding])
        header_there := fun hm' => absurd (hm.symm.trans hm') (by decide)
        payload_start := fun _ hp' => absurd hp' (by show ¬ Phase.decoding = Phase.headerParsed; decide)
        buffer_empty := fun _ => hr.buffer_empty (Or.inl hm) } }

theorem Inv.decodeChunk {s : State} (h : Inv s) (hb : s.status.busy = true) (hm : s.status.mode = true)
    (hp : s.status.phase = Phase.decoding) : (decodeChunk s).Ends Inv Inv := by
  have hr := h.running hb
  have hle := hr.position_le
  have hcb : chunkBytes s ≤ s.srcSize.toNat - s.srcPos.toNat := Nat.min_le_right _ _
  have hpos : (s.srcPos + BitVec.ofNat 64 (chunkBytes s)).toNat ≤ s.srcSize.toNat := by
    have := s.srcSize.isLt
    rw [BitVec.toNat_add, BitVec.toNat_ofNat, Nat.add_mod_mod, Nat.mod_eq_of_lt (by omega)]; omega
  have key : ∀ (out : List Symbol) (c : Bits), Fits out s →
      Inv (walked out [] c { s with srcPos := s.srcPos + BitVec.ofNat 64 (chunkBytes s) }) := fun out c hfit =>
    Inv.appended h hb rfl rfl rfl rfl rfl rfl rfl rfl (fun x => x) rfl rfl rfl rfl hpos hfit
      (fun hm' => absurd (hm.symm.trans hm') (by decide)) (by simp [hm, hp, Phase.decoding]) fun _ => rfl
  refine (decodeChunk_ends s).weaken ?_ ?_
  · rintro t ⟨out, c, hf, -, rfl⟩
    exact key out c hf
  · rintro t ⟨out, r, c, hf, -, rfl⟩
    have h1 := key out c hf
    have hst : (walked out r c { s with srcPos := s.srcPos + BitVec.ofNat 64 (chunkBytes s) }).status = s.status := by
      rw [walked, appended_status]
    refine Inv.raise _ ?_ ?_ ?_ ?_ ?_ ?_ ?_ ?_ ?_ ?_
    · simp only [walked, appended_src]; exact h.src_wf
    · exact written_wf h.snk_wf hf
    · simp only [walked, appended_dec]; exact h.dec_wf
    · simp only [walked, appended_issue]; exact h.issue_none
    · exact appended_end h.position_at_end hf
    · intro _
      have := h.decode_keeps hm
      simpa [walked, EncoderRegistersReset] using this
    · intro hm'; rw [hst, hm] at hm'; cases hm'
    · intro hm'; rw [hst, hm] at hm'; cases hm'
    · simp only [walked, appended_pq]; exact h.queue_empty
    · rw [hst]; exact Or.inr (Or.inl ⟨hm, hp, rfl⟩)

theorem Inv.finishDecode {s : State} (h : Inv s) (hb : s.status.busy = true) (hm : s.status.mode = true) :
    (finishDecode s).Ends Inv Inv := by
  obtain ⟨hd, hf, he, -⟩ := h.flags hb
  exact {
    src_wf := h.src_wf
    snk_wf := h.snk_wf
    dec_wf := h.dec_wf
    issue_none := h.issue_none
    status_legal := Status.Legal.ended rfl rfl hf he (by
      show Phase.done = finalPhase s.status.mode
      rw [hm]; rfl)
    position_at_end := h.position_at_end
    decode_keeps := fun _ => h.decode_keeps hm
    encode_keeps := fun hm' => absurd (hm.symm.trans hm') (by decide)
    discarded := fun hm' => absurd (hm.symm.trans hm') (by decide)
    queue_empty := h.queue_empty
    running := fun hb' => absurd hb' (by simp [finish]) }

end Sys2Proof.Machine
end

