-- ==== Sys2Proof/Laws/Steps.lean ====
section
/-! SUPPORT. What one step is while a command runs, what the header operations leave of the flags, and the record `COD`
(spec/43_encoder.md rule R170; spec/44_decoder.md rule R200; spec/30_encoding.md rule R101). -/

namespace Sys2Proof.Machine

/-! ### The step of a running command -/

/-- A step of a running command is the enabled transition (R170, R200). -/
theorem run_step {s : State} {m : Bool} {p : BitVec 4} (h : RunningIn s m p) :
    step s = (if m then decoderTransition s else encoderTransition s).outcome := by
  obtain ⟨⟨h1, h2, h3⟩, h4, h5, h6⟩ := h
  rw [step, h1]; simp only
  rw [h2]; simp only
  rw [h3]; simp only
  rw [engineMove, if_pos h4, engineTransition, h5]

theorem enc_step {s : State} {p : BitVec 4} (h : RunningIn s false p) : step s = (encoderTransition s).outcome :=
    run_step h
theorem dec_step {s : State} {p : BitVec 4} (h : RunningIn s true p) : step s = (decoderTransition s).outcome :=
    run_step h

/-- The step of ENCODE in each phase (R170, R172 to R181). -/
theorem enc_step0 {s : State} (h : RunningIn s false 0) : step s = (countFrequencies s).outcome := by
  rw [enc_step h, encoderTransition, if_pos (by rw [h.2.2.2]; rfl)]

theorem enc_step1 {s : State} (h : RunningIn s false 1) : step s = (makeTree s).outcome := by
  rw [enc_step h, encoderTransition, if_neg (by rw [h.2.2.2]; decide), if_pos (by rw [h.2.2.2]; rfl)]

theorem enc_step2 {s : State} (h : RunningIn s false 2) : step s = (emitHeader s).outcome := by
  rw [enc_step h, encoderTransition, if_neg (by rw [h.2.2.2]; decide), if_neg (by rw [h.2.2.2]; decide),
    if_pos (by rw [h.2.2.2]; rfl)]

theorem enc_step3 {s : State} (h : RunningIn s false 3) : step s = (seekSource s).outcome := by
  rw [enc_step h, encoderTransition, if_neg (by rw [h.2.2.2]; decide), if_neg (by rw [h.2.2.2]; decide),
    if_neg (by rw [h.2.2.2]; decide), if_pos (by rw [h.2.2.2]; rfl)]

theorem enc_step4 {s : State} (h : RunningIn s false 4) (hlt : s.srcPos.toNat < s.srcSize.toNat) :
    step s = (encodeStep s).outcome := by
  rw [enc_step h, encoderTransition, if_neg (by rw [h.2.2.2]; decide), if_neg (by rw [h.2.2.2]; decide),
    if_neg (by rw [h.2.2.2]; decide), if_neg (by rw [h.2.2.2]; decide), if_pos (by rw [h.2.2.2]; rfl), if_pos hlt]

theorem enc_step_last {s : State} (h : RunningIn s false 4) (he : s.srcPos = s.srcSize) :
    step s = (flushPayload s).outcome := by
  rw [enc_step h, encoderTransition, if_neg (by rw [h.2.2.2]; decide), if_neg (by rw [h.2.2.2]; decide),
    if_neg (by rw [h.2.2.2]; decide), if_neg (by rw [h.2.2.2]; decide), if_pos (by rw [h.2.2.2]; rfl),
    if_neg (by rw [he]; omega), if_pos he]

/-- The step of DECODE in each phase (R200, R202 to R213). -/
theorem dec_step0 {s : State} (h : RunningIn s true 0) : step s = (parseHeader s).outcome := by
  rw [dec_step h, decoderTransition, if_pos (by rw [h.2.2.2]; rfl)]

theorem dec_step1 {s : State} (h : RunningIn s true 1) : step s = (seekPayload s).outcome := by
  rw [dec_step h, decoderTransition, if_neg (by rw [h.2.2.2]; decide), if_pos (by rw [h.2.2.2]; rfl)]

theorem dec_step2 {s : State} (h : RunningIn s true 2) (hlt : s.srcPos.toNat < s.srcSize.toNat) :
    step s = (decodeChunk s).outcome := by
  rw [dec_step h, decoderTransition, if_neg (by rw [h.2.2.2]; decide), if_neg (by rw [h.2.2.2]; decide),
    if_pos (by rw [h.2.2.2]; rfl), if_pos hlt]

theorem dec_step_last {s : State} (h : RunningIn s true 2) (he : s.srcPos = s.srcSize) (hb : s.bitbuf = []) :
    step s = (finishDecode s).outcome := by
  rw [dec_step h, decoderTransition, if_neg (by rw [h.2.2.2]; decide), if_neg (by rw [h.2.2.2]; decide),
    if_pos (by rw [h.2.2.2]; rfl), if_neg (by rw [he]; omega), if_pos ⟨he, hb⟩]

/-- What holds of every transition of ENCODE holds of the enabled one (R170). -/
theorem encoderTransition_ends {P Q : State → Prop} {s : State}
    (h0 : s.status.phase = Phase.idle → (countFrequencies s).Ends P Q)
    (h1 : s.status.phase = Phase.frequencyCounted → (makeTree s).Ends P Q)
    (h2 : s.status.phase = Phase.treeBuilt → (emitHeader s).Ends P Q)
    (h3 : s.status.phase = Phase.headerWritten → (seekSource s).Ends P Q)
    (h4 : s.status.phase = Phase.encoding → s.srcPos.toNat < s.srcSize.toNat → (encodeStep s).Ends P Q)
    (h5 : s.status.phase = Phase.encoding → s.srcPos = s.srcSize → (flushPayload s).Ends P Q) :
    (encoderTransition s).Ends P Q := by
  unfold encoderTransition
  split
  · exact h0 ‹_›
  split
  · exact h1 ‹_›
  split
  · exact h2 ‹_›
  split
  · exact h3 ‹_›
  split
  · next hp =>
    split
    · exact h4 hp ‹_›
    split
    · exact h5 hp ‹_›
    · trivial
  · trivial

/-- What holds of every transition of DECODE holds of the enabled one (R200). -/
theorem decoderTransition_ends {P Q : State → Prop} {s : State}
    (h0 : s.status.phase = Phase.idle → (parseHeader s).Ends P Q)
    (h1 : s.status.phase = Phase.headerParsed → (seekPayload s).Ends P Q)
    (h2 : s.status.phase = Phase.decoding → s.srcPos.toNat < s.srcSize.toNat → (decodeChunk s).Ends P Q)
    (h3 : s.status.phase = Phase.decoding → s.srcPos = s.srcSize → s.bitbuf = [] → (finishDecode s).Ends P Q) :
    (decoderTransition s).Ends P Q := by
  unfold decoderTransition
  split
  · exact h0 ‹_›
  split
  · exact h1 ‹_›
  split
  · next hp =>
    split
    · exact h2 hp ‹_›
    split
    · next h => exact h3 hp h.1 h.2
    · trivial
  · trivial

/-! ### The header operations and the flags -/

theorem memWrite_status (a : Nat) (bs : List Byte) (s : State) :
    (memWrite a bs s).Ends (fun t => t.status = s.status) (fun _ => False) :=
  (memWrite_ends a bs s).weaken (fun t ht => by rw [ht.1]; simp) fun _ h => h

/-- `writeHeader` raises nothing and leaves `STATUS` alone (R42, R155). -/
theorem writeHeader_status (s : State) : (writeHeader s).Ends (fun t => t.status = s.status) (fun _ => False) := by
  refine Flow.Ends.andThen (P := fun t => t.status = s.status) ?_ ?_
  · refine (memWrite_status _ _ s).andThen fun t ht => ht
  · intro t ht
    refine Flow.Ends.andThen (P := fun t => t.status = s.status) ?_ ?_
    · rw [serialiseTable_eq, packTable]
      refine (memWrite_status _ _ _).andThen fun u hu => ?_
      exact hu.trans ht
    · intro u hu
      rw [patchTableLength]
      refine (memWrite_status _ _ _).andThen fun v hv => ?_
      exact hv.trans hu

/-- `readHeader` that runs to its end leaves `STATUS` alone; one that does not takes the error (R231, R236). -/
theorem readEntries_status (tbl : Bits) (fuel : Nat) (s : State) :
    (readEntries tbl fuel s).Ends (fun t => t.status = s.status ∧ t.err = s.err ∧ t.tlen = s.tlen)
      (fun t => t.status = s.status.failed ∧ t.err = 1) := by
  induction fuel generalizing s with
  | zero => exact ⟨rfl, rfl, rfl⟩
  | succ n ih =>
    rw [readEntries]
    split
    · refine Flow.Ends.andThen (P := fun t => t.status = s.status ∧ t.err = s.err ∧ t.tlen = s.tlen) ?_ fun t ht => ?_
      · unfold readEntry
        split
        · exact ⟨rfl, rfl⟩
        · exact (takeEntry_ends _ _ _ s).weaken (fun t ht => by rw [ht]; exact ⟨rfl, rfl, rfl⟩) fun t ht => by
            rw [ht]; exact ⟨rfl, rfl⟩
      · refine (ih t).weaken (fun u hu => ?_) fun u hu => ?_
        · exact ⟨hu.1.trans ht.1, hu.2.1.trans ht.2.1, hu.2.2.trans ht.2.2⟩
        · exact ⟨by rw [hu.1, ht.1], hu.2⟩
    · exact ⟨rfl, rfl, rfl⟩

theorem readHeader_status (s : State) :
    (readHeader s).Ends (fun t => t.status = s.status ∧ t.err = s.err) (fun t => t.status = s.status.failed ∧ t.err = 1) := by
  refine Flow.Ends.andThen (P := fun t => t.status = s.status ∧ t.err = s.err) ?_ fun t ht => ?_
  · unfold readFixed
    split
    · exact ⟨rfl, rfl⟩
    · exact Flow.Ends.withValue fun p _ => Flow.Ends.withValue fun q _ => ⟨rfl, rfl⟩
  · rw [readTable, readTableOf]
    split
    · exact ⟨by rw [raise_status]; rw [ht.1], rfl⟩
    · refine Flow.Ends.withValue fun bs _ => ?_
      rw [readTableBytes, appendBytes_eq]
      refine (readEntries_status _ _ _).weaken (fun u hu => hu) (fun u hu => ?_) |>.andThen fun u hu => ?_
      · exact ⟨by rw [hu.1]; simp [ht.1], hu.2⟩
      · exact ⟨by simp [hu.1, ht.1], by simp [hu.2.1, ht.2]⟩

/-! ### One payload code -/

/-- The bits of one code taken from the buffer: a match emits the symbol, no match leaves them in the candidate (R101,
R211). -/
theorem takeCode_run (bits : Bits) (s : State) (hb : s.bitbuf = bits) (full : Bits)
    (hfull : full = s.cand ++ bits) (hl : full.length ≤ 255) (hne : bits ≠ [])
    (hn : ∀ n, s.cand.length < n → n < full.length → s.dec.lookup (full.take n) = none) :
    (∀ y, s.dec.lookup full = some y → s.snkPos.toNat + 1 < Config.spaceSize →
      takeCode bits s = .on (walked [y] [] [] s)) ∧
    (s.dec.lookup full = none → takeCode bits s = .on { s with bitbuf := [], cand := full }) := by
  induction bits generalizing s with
  | nil => exact absurd rfl hne
  | cons b bits ih =>
    have hc : s.cand ++ b :: bits = (s.cand ++ [b]) ++ bits := by simp
    cases hbits : bits with
    | nil =>
      subst hbits
      rw [List.append_nil] at hc
      rw [hc] at hfull
      refine ⟨fun y hy hp => ?_, fun hn => ?_⟩
      · rw [takeCode, walkBit_match (s := { s with bitbuf := [] }) (by rw [← hfull]; exact hy) hp]
        have : (walked [y] [] [] { s with bitbuf := ([] : Bits) }).cand = [] := by simp [walked]
        simp only [Flow.andThen_on, this, if_true]; rfl
      · rw [takeCode, walkBit_more (s := { s with bitbuf :=
            [] }) (by rw [← hfull]; exact hn) (by rw [← hfull]; exact hl)]
        simp only [Flow.andThen_on]
        rw [if_neg (by simp), ← hfull]; rfl
    | cons b' bits' =>
      have hnone : s.dec.lookup (s.cand ++ [b]) = none := by
        have := hn (s.cand.length + 1) (by omega) (by rw [hfull, hbits]; simp)
        rw [hfull, hc, List.take_append_of_le_length (by simp), List.take_of_length_le (by simp)] at this
        exact this
      have hlen : (s.cand ++ [b]).length ≤ 255 := by
        rw [hfull] at hl; simp at hl ⊢; omega
      have := ih { s with bitbuf := bits, cand := s.cand ++ [b] } rfl (by rw [hfull, hc]) (by rw [hbits]; simp) (by
        intro n h1 h2; exact hn n (by simp at h1; omega) h2)
      rw [← hbits, takeCode, walkBit_more (s := { s with bitbuf := bits }) hnone hlen]
      simp only [Flow.andThen_on]
      rw [if_neg (by simp)]
      exact ⟨fun y hy hp => (this.1 y hy hp).trans rfl, fun h => (this.2 h).trans rfl⟩

/-- The bytes written in sequence stand at the end of the sink, and nothing else of it changed (R30, R63). -/
theorem appended_sinkHolds (bs : List Byte) (s : State) :
    SinkHolds s.snkPos.toNat bs (appended bs s) ∧ SinkKeptOutside s.snkPos.toNat bs.length s (appended bs s) :=
  ⟨fun _ hk => written_read_inside hk, fun _ hk => written_read_outside hk⟩

/-! ### Operations that store nothing -/

/-- The streams and the positions in the sink are as they were (R42). -/
def Kept (s t : State) : Prop := t.src = s.src ∧ t.snk = s.snk ∧ t.srcSize = s.srcSize ∧ t.snkSize = s.snkSize ∧ t.snkPos = s.snkPos

theorem Kept.trans {s t u : State} (h : Kept s t) (h' : Kept t u) : Kept s u :=
  ⟨h'.1.trans h.1, h'.2.1.trans h.2.1, h'.2.2.1.trans h.2.2.1, h'.2.2.2.1.trans h.2.2.2.1, h'.2.2.2.2.trans h.2.2.2.2⟩

theorem codeLeaves_kept (n i : Nat) (s : State) : (codeLeaves n i s).Ends (Kept s) (Kept s) := by
  induction n generalizing i s with
  | zero => exact ⟨rfl, rfl, rfl, rfl, rfl⟩
  | succ n ih =>
    refine Flow.Ends.withValue fun c _ => ?_
    refine Flow.Ends.andThen (P := Kept s) ?_ fun t ht => (ih _ t).weaken (fun _ h => ht.trans h) fun _ h => ht.trans h
    unfold setCode
    split
    · exact ⟨rfl, rfl, rfl, rfl, rfl⟩
    · trivial

theorem generateCodes_kept (s : State) : (generateCodes s).Ends (Kept s) (Kept s) := by
  unfold generateCodes
  split
  · unfold setCode
    split
    · exact ⟨rfl, rfl, rfl, rfl, rfl⟩
    · trivial
  · exact codeLeaves_kept _ _ (clearCodes s)

theorem readEntries_kept (tbl : Bits) (n : Nat) (s : State) : (readEntries tbl n s).Ends (Kept s) (Kept s) := by
  induction n generalizing s with
  | zero => exact ⟨rfl, rfl, rfl, rfl, rfl⟩
  | succ n ih =>
    rw [readEntries]
    split
    · refine Flow.Ends.andThen (P := Kept s) ?_ fun t ht => (ih t).weaken (fun _ h => ht.trans h) fun _ h => ht.trans h
      unfold readEntry
      split
      · exact ⟨rfl, rfl, rfl, rfl, rfl⟩
      · exact (takeEntry_ends _ _ _ s).weaken (fun t ht => by rw [ht]; exact ⟨rfl, rfl, rfl, rfl,
            rfl⟩) fun t ht => by rw [ht]; exact ⟨rfl, rfl, rfl, rfl, rfl⟩
    · exact ⟨rfl, rfl, rfl, rfl, rfl⟩

theorem readHeader_kept (s : State) : (readHeader s).Ends (Kept s) (Kept s) := by
  refine Flow.Ends.andThen (P := Kept s) ?_ fun t ht => ?_
  · unfold readFixed
    split
    · exact ⟨rfl, rfl, rfl, rfl, rfl⟩
    · exact Flow.Ends.withValue fun p _ => Flow.Ends.withValue fun q _ => ⟨rfl, rfl, rfl, rfl, rfl⟩
  · rw [readTable, readTableOf]
    split
    · exact ht.trans ⟨rfl, rfl, rfl, rfl, rfl⟩
    · refine Flow.Ends.withValue fun bs _ => ?_
      rw [readTableBytes, appendBytes_eq]
      refine Flow.Ends.andThen (P := Kept s) ((readEntries_kept _ _ _).weaken (fun u hu => ?_) (fun u hu => ?_)) fun u hu => ?_
      · exact ht.trans hu
      · exact ht.trans hu
      · exact Kept.trans hu ⟨rfl, rfl, rfl, rfl, rfl⟩

end Sys2Proof.Machine
end

