-- ==== Sys2Proof/Laws/Keeps.lean ====
section
/-! SUPPORT. The invariant across the sequencer: the engine's transition and the fetch of a command word keep it
(spec/10_state.md rules R21 to R26). -/

namespace Sys2Proof.Machine

theorem Inv.encoder {s : State} (h : Inv s) (hb : s.status.busy = true) (hm : s.status.mode = false) :
    (encoderTransition s).Ends Inv Inv :=
  encoderTransition_ends (h.countFrequencies hb hm) (h.makeTree hb hm) (h.emitHeader hb hm) (h.seekSource hb hm)
    (h.encodeStep hb hm) (fun hp _ => h.flushPayload hb hm hp)

theorem Inv.decoder {s : State} (h : Inv s) (hb : s.status.busy = true) (hm : s.status.mode = true) :
    (decoderTransition s).Ends Inv Inv :=
  decoderTransition_ends (h.parseHeader hb hm) (h.seekPayload hb hm) (fun hp _ => h.decodeChunk hb hm hp)
    (fun _ _ _ => h.finishDecode hb hm)

theorem Inv.engine {s t : State} (h : Inv s) (ht : engineMove s = .next t) : Inv t := by
  unfold engineMove at ht
  split at ht
  · next hb =>
    unfold engineTransition at ht
    split at ht
    · next hm => exact (h.decoder hb hm).of_outcome ht
    · next hm => exact (h.encoder hb (by simpa using hm)).of_outcome ht
  · cases ht; exact h

/-- A change of what the invariant does not look at. -/
theorem Inv.outside {s : State} (h : Inv s) (ms : List HostMove) (c : Option Byte) :
    Inv { s with host := ms, cmd := c } :=
  ⟨h.src_wf, h.snk_wf, h.dec_wf, h.issue_none, h.status_legal, h.position_at_end, h.decode_keeps, h.encode_keeps,
      h.discarded, h.queue_empty, fun hb => ⟨(h.running hb).1, (h.running hb).2, (h.running hb).3, (h.running hb).4,
      (h.running hb).5, (h.running hb).6, (h.running hb).7, (h.running hb).8⟩⟩

/-- The two command words, and no other (R21). -/
theorem fetchCommand_eq (w : Byte) (s : State) : fetchCommand w s =
    if w = 1 then execEncode s else if w = 2 then execDecode s else .refused .reservedCommand := by
  unfold fetchCommand decode decodeRest
  have h1 : ¬ (Bit.bits8 w).length < 8 := by simp
  have h2 : Bit.byteOf ((Bit.bits8 w).take 8) = w := by rw [List.take_of_length_le (by simp), Bit.byteOf_bits8]
  by_cases h : w = 1
  · subst h; rfl
  by_cases h' : w = 2
  · subst h'; rfl
  have e1 : ¬ w = 1#8 := h
  have e2 : ¬ w = 2#8 := h'
  simp only [if_neg h1, h2, decodeCmd, if_neg e1, if_neg e2, if_neg h, if_neg h', Except.map]

theorem Inv.fetch {s t : State} (h : Inv s) {w : Byte} (ht : fetchCommand w s = .next t) : Inv t := by
  rw [fetchCommand_eq] at ht
  split at ht
  · unfold execEncode at ht
    split at ht
    · cases ht
    split at ht
    · next h1 => cases ht; exact h.start false h1 (by simp)
    · cases ht
  split at ht
  · unfold execDecode at ht
    split at ht
    · cases ht
    split at ht
    · next h1 =>
      split at ht
      · cases ht
      · next h2 => cases ht; exact h.start true h1 (by intro _; omega)
    · cases ht
  · cases ht

end Sys2Proof.Machine
end

