-- ==== Sys2Proof/Laws/Bounds.lean ====
section
/-! SUPPORT. How far a command can have come (spec/10_state.md rule R30; spec/43_encoder.md rule R180): the engine keeps
the bounds, and its reads of a provided source succeed. -/

namespace Sys2Proof.Machine

theorem packBits_length (x : Bits) : (packBits x).length = (x.length + 7) / 8 := drainedBytes_true_length x

theorem Sized.idle {s : State} (hb : s.status.busy = false) (hc : s.status.mode = false → ∀ b c,
    codeOf s b = some c → 1 ≤ c.length ∧ c.length ≤ 255) : Sized s :=
  ⟨hc, fun h => absurd h (by simp [hb]), fun h => absurd h (by simp [hb]), fun h => absurd h (by simp [hb])⟩

theorem Sized.decoding {s : State} (hm : s.status.mode = true)
    (h : s.status.busy = true →
    (if s.status.phase = Phase.decoding then 8 * s.payloadOff.toNat else 0) + s.snkSize.toNat ≤ 8 * s.srcPos.toNat) : Sized s :=
  ⟨fun h => absurd h (by simp [hm]), fun _ h => absurd h (by simp [hm]), fun _ h => absurd h (by simp [hm]),
      fun hb _ => h hb⟩

theorem Sized.encoder {s : State} (h : Inv s) (hz : Sized s) (hb : s.status.busy = true) (hm : s.status.mode = false) :
    (encoderTransition s).Ends Sized Sized := by
  have hr := h.running hb
  refine encoderTransition_ends (fun hp => ?_) (fun hp => ?_) (fun hp => ?_) (fun hp => ?_) (fun hp hlt => ?_) (fun hp _ => ?_)
  · refine (countFrequencies_ends s).weaken ?_ fun _ h => h.elim
    rintro t ⟨f, rfl⟩
    exact ⟨hz.code_length, fun _ _ h => absurd h (by simp [Phase.frequencyCounted]),
        fun _ _ h => absurd h (by simp [Phase.frequencyCounted]), fun _ hm' => absurd hm' (by simp [hm])⟩
  · obtain ⟨a, b, c, d, he⟩ := makeTree_on s
    rw [he]
    have hC := (makeCodes_spec s).2
    exact ⟨fun _ b c hc => ⟨hC.length_pos b c hc, hC.length_le_255 hc⟩,
        fun _ _ h => absurd h (by simp [Phase.treeBuilt]), fun _ _ h => absurd h (by simp [Phase.treeBuilt]),
        fun _ hm' => absurd hm' (by simp [hm])⟩
  · have hbuf := hr.buffer_empty (Or.inr (by rw [hp]; decide))
    have hsz := hr.empty_before (by rw [hm, hp]; decide)
    refine (emitHeader_ends hbuf hsz).weaken ?_ fun _ h => h.elim
    rintro t ⟨rfl, -⟩
    have hl := tableBits_length_le (code := s.code) fun b c hc => (hz.code_length hm b c hc).2
    have hpl := packBits_length (tableBits s.code)
    refine ⟨hz.code_length, fun _ _ _ => ?_, fun _ _ _ => ?_, fun _ hm' => absurd hm' (by simpa [setPhase,
        discardTree, headerWritten] using hm)⟩
    · simp only [setPhase, discardTree, headerWritten, BitVec.toNat_ofNat]; omega
    · simp only [setPhase, discardTree, headerWritten]; simp
  · have hbuf := hr.buffer_empty (Or.inr (by rw [hp]; decide))
    have := hz.payload_size hb hm (by rw [hp]; decide)
    rw [hp, hbuf] at this
    refine ⟨hz.code_length, fun _ _ _ => hz.header_size hb hm (by rw [hp]; decide), fun _ _ _ => ?_,
        fun _ hm' => absurd hm' (by simp [setPhase, hm])⟩
    simp only [setPhase, hbuf] at this ⊢
    simpa [Phase.encoding, Phase.headerWritten] using this
  · have h1 := hz.header_size hb hm (by rw [hp]; decide)
    have h2 := hz.payload_size hb hm (by rw [hp]; decide)
    rw [hp] at h2
    simp only [if_true] at h2
    have hpos : (s.srcPos + 1).toNat = s.srcPos.toNat + 1 := by
      have := s.srcSize.isLt
      rw [BitVec.toNat_add]; simp; omega
    refine (encodeStep_ends s).weaken ?_ ?_
    · rintro t ⟨b, c, -, hc, rfl, hf⟩
      have hcl := (hz.code_length hm b c hc).2
      obtain ⟨out, rest, he, hu, ho⟩ := emitted_spec c { s with srcPos := s.srcPos + 1 }
      have hul := congrArg List.length hu
      simp only [List.length_append, Bit.unpack_length] at hul
      rw [he]
      have hsz : (written s.snkPos.toNat out { s with srcPos := s.srcPos + 1, bitbuf := rest }).snkSize.toNat ≤ s.snkSize.toNat + out.length := by
        rw [written_size]
        · split
          · exact Nat.le_add_right _ _
          · have := h.position_at_end; simp only [this]; omega
        · intro hne
          rcases ho with rfl | ⟨ho, rfl⟩
          · exact absurd rfl hne
          · exact hf ho hne
      refine ⟨by simpa [advanceSink, codeOf] using hz.code_length, fun _ _ _ => by simpa [advanceSink] using h1,
          fun _ _ _ => ?_, fun _ hm' => absurd hm' (by simp [advanceSink, hm])⟩
      simp only [advanceSink, written_status, written_bitbuf, written_payloadOff, written_srcPos, hp, if_true, hpos]
      omega
    · rintro t ⟨b, -, -, rfl⟩
      exact Sized.idle rfl hz.code_length
  · refine (flushPayload_ends s).weaken ?_ fun _ h => h.elim
    rintro t ⟨rfl, -⟩
    refine Sized.idle rfl fun _ => ?_
    have := hz.code_length hm
    intro b c hc
    exact this b c (by simpa [flushedState, finish, codeOf, advanceSink, drainBuffer] using hc)

theorem Sized.decoder {s : State} (h : Inv s) (hz : Sized s) (hb : s.status.busy = true) (hm : s.status.mode = true) :
    (decoderTransition s).Ends Sized Sized := by
  have hr := h.running hb
  refine decoderTransition_ends (fun hp => ?_) (fun hp => ?_) (fun hp _ => ?_) (fun hp _ _ => ?_)
  · have h0 := hr.empty_before (by rw [hm, hp]; decide)
    refine ((readHeader_ends s h.dec_wf).weaken (fun t ht => ht) fun t ht => ?_).andThen fun t ht => ?_
    · obtain ⟨p, T, h, d, b, -, rfl⟩ := ht
      exact Sized.decoding hm (by simp [Status.failed])
    · obtain ⟨p, T, h, d, -, -, rfl⟩ := ht
      refine Sized.decoding hm fun _ => ?_
      simp only [setPhase, h0, show (Phase.headerParsed = Phase.decoding) = False from by decide, if_false]; simp
  · have h0 := hr.empty_before (by rw [hm, hp]; decide)
    exact Sized.decoding hm fun _ => by simp only [setPhase, h0]; simp
  · have h0 := hz.output_size hb hm
    rw [if_pos hp] at h0
    have hbuf := hr.buffer_empty (Or.inl hm)
    refine (decodeChunk_ends s).weaken ?_ ?_
    · rintro t ⟨out, c, hf, hl, rfl⟩
      refine Sized.decoding (by simpa [walked] using hm) fun _ => ?_
      have : (walked out [] c { s with srcPos := s.srcPos + BitVec.ofNat 64 (chunkBytes s) }).snkSize = (written s.snkPos.toNat out s).snkSize := by simp [walked, appended, written_eq, advanceSink]
      rw [this, written_size _ _ _ hf]
      have hcb : chunkBytes s ≤ s.srcSize.toNat - s.srcPos.toNat := Nat.min_le_right _ _
      have hpos : (walked out [] c { s with srcPos := s.srcPos + BitVec.ofNat 64 (chunkBytes s) }).srcPos.toNat = s.srcPos.toNat + chunkBytes s := by
        have := s.srcSize.isLt
        simp only [walked, appended_srcPos]
        rw [BitVec.toNat_add, BitVec.toNat_ofNat, Nat.add_mod_mod, Nat.mod_eq_of_lt (by omega)]
      have hsame : (walked out [] c { s with srcPos := s.srcPos + BitVec.ofNat 64 (chunkBytes s) }).status = s.status ∧
          (walked out [] c { s with srcPos := s.srcPos + BitVec.ofNat 64 (chunkBytes s) }).payloadOff = s.payloadOff := by
        simp [walked]
      rw [hpos, hsame.1, hsame.2, if_pos hp]
      have := h.position_at_end
      rw [hbuf, List.length_nil] at hl
      rw [this]
      split <;> omega
    · rintro t ⟨out, r, c, hf, hl, rfl⟩
      exact Sized.decoding (by simpa [walked, Status.failed] using hm) (by simp [Status.failed])
  · exact Sized.decoding hm (by simp [finish])

theorem Sized.engine {s t : State} (h : Inv s) (hz : Sized s) (ht : engineMove s = .next t) : Sized t := by
  unfold engineMove at ht
  split at ht
  · next hb =>
    unfold engineTransition at ht
    split at ht
    · next hm => exact (hz.decoder h hb hm).of_outcome ht
    · next hm => exact (hz.encoder h hb (by simpa using hm)).of_outcome ht
  · cases ht; exact hz

theorem Sized.fetch {s t : State} {w : Byte} (ht : fetchCommand w s = .next t) : Sized t := by
  have key : ∀ m, Sized (startCommand m s) := by
    intro m
    refine ⟨fun _ b c hc => ?_, fun _ _ h => absurd h (by simp [startCommand, Status.started, Status.reset]),
        fun _ _ h => absurd h (by simp [startCommand, Status.started, Status.reset]), fun _ _ => Nat.zero_le _⟩
    have : codeOf (startCommand m s) b = none := RegFile.get_fill _ _ _
    rw [this] at hc; cases hc
  rw [fetchCommand_eq] at ht
  split at ht
  · unfold execEncode at ht
    split at ht
    · cases ht
    split at ht
    · cases ht; exact key _
    · cases ht
  split at ht
  · unfold execDecode at ht
    split at ht
    · cases ht
    split at ht
    · split at ht
      · cases ht
      · cases ht; exact key _
    · cases ht
  · cases ht

theorem provided_read {s : State} (h : SourceProvided s) {a : Nat} (ha : a < s.srcSize.toNat) : ∃ b,
    readByte s a = .ok b :=
  readByte_provided (h a ha) ha

/-- The flow ends. -/
def Flow.Completes (f : Flow) : Prop := ∃ t, f.outcome = .next t

theorem Flow.Completes.on (s : State) : (Flow.on s).Completes := ⟨s, rfl⟩

theorem countBytes_completes (n : Nat) (s : State) (pos : Nat) (hpos : s.srcPos.toNat = pos)
    (h : SourceProvided s) (hn : pos + n ≤ s.srcSize.toNat) : ∃ t, countBytes n s = .on t := by
  induction n generalizing s pos with
  | zero => exact ⟨s, rfl⟩
  | succ n ih =>
    obtain ⟨b, hb⟩ := provided_read h (a := s.srcPos.toNat) (by omega)
    rw [countBytes, hb, withValue_ok]
    refine ih (countByte b s) (pos + 1) ?_ h (by simp only [countByte]; omega)
    have := s.srcSize.isLt
    simp only [countByte, BitVec.toNat_add, hpos]; simp; omega

theorem Flow.Completes.andThen {f : Flow} {k : State → Flow} {P : State → Prop} {Q : State → Prop}
    (h : f.Ends P Q) (hc : f.Completes)
    (hk : ∀ s, P s → (k s).Completes) : (f.andThen k).Completes := by
  cases f with
  | on s => exact hk s h
  | raised s => exact ⟨s, rfl⟩
  | stuck r => obtain ⟨t, ht⟩ := hc; cases ht

theorem readEntries_completes (tbl : Bits) (n : Nat) (s : State) : (readEntries tbl n s).Completes := by
  induction n generalizing s with
  | zero => exact ⟨s, rfl⟩
  | succ n ih =>
    rw [readEntries]
    split
    · have : (readEntry tbl s).Completes := by
        unfold readEntry
        split
        · exact ⟨_, rfl⟩
        · simp only [takeEntry]; split <;> exact ⟨_, rfl⟩
      cases hf : readEntry tbl s with
      | on t => exact ih t
      | raised t => exact ⟨t, rfl⟩
      | stuck r => rw [hf] at this; obtain ⟨t, ht⟩ := this; cases ht
    · exact ⟨s, rfl⟩

theorem readHeader_completes {s : State} (h : SourceProvided s) : (readHeader s).Completes := by
  have h1 : (readFixed s).Ends (fun t => t.src = s.src ∧ t.srcSize = s.srcSize) (fun _ => True) := by
    unfold readFixed
    split
    · trivial
    · exact Flow.Ends.withValue fun p _ => Flow.Ends.withValue fun q _ => ⟨rfl, rfl⟩
  refine Flow.Completes.andThen h1 ?_ ?_
  · unfold readFixed
    split
    · exact ⟨_, rfl⟩
    · next hn =>
      simp only [Config.hdrFixed] at hn
      obtain ⟨b, hb⟩ := provided_read h (a := 0) (by omega)
      obtain ⟨bs, hbs⟩ := memRead_provided h (a := 1) (n := 4) (by omega)
      rw [hb, withValue_ok, hbs]; exact ⟨_, rfl⟩
  · rintro t ⟨ht1, ht2⟩
    rw [readTable, readTableOf]
    split
    · exact ⟨_, rfl⟩
    · next hn =>
      obtain ⟨bs, hbs⟩ := memRead_provided (s := t) (a := Config.hdrFixed) (n := tableBytesOf t.tlen) (by rw [ht1, ht2]; exact h) (by omega)
      rw [hbs, withValue_ok]
      have := readEntries_completes ((appendBytes bs (clearBuffer t)).bitbuf.take t.tlen.toNat) t.tlen.toNat (startTable (clearBuffer (appendBytes bs (clearBuffer t))))
      rw [readTableBytes]
      cases hf : readEntries ((appendBytes bs (clearBuffer t)).bitbuf.take t.tlen.toNat) t.tlen.toNat (startTable (clearBuffer (appendBytes bs (clearBuffer t)))) with
      | on u => exact ⟨_, rfl⟩
      | raised u => exact ⟨u, rfl⟩
      | stuck r => rw [hf] at this; obtain ⟨u, hu⟩ := this; cases hu

end Sys2Proof.Machine
end

