-- ==== Sys2Proof/Laws/Header.lean ====
section
/-! SUPPORT. The header between `writeHeader` and `readHeader` (spec/42_container.md rules R151 to R160): the bytes the
one leaves, what the other has read when it runs to its end, and the table that lies between them. -/

namespace Sys2Proof.Machine

/-- The bits of an entry at the front of a bit sequence that is long enough (R97, R158). -/
theorem entry_split {bits : Bits} (h : 16 + entryLength bits ≤ bits.length) :
    bits = Bit.bits8 (entrySymbol bits) ++ Bit.bits8 (BitVec.ofNat 8 (entryCode bits).length) ++ entryCode bits ++
      bits.drop (16 + entryLength bits) ∧ (entryCode bits).length = entryLength bits ∧ entryLength bits ≤ 255 := by
  have hv := Bit.val_lt ((bits.drop 8).take 8)
  have hl8 : ((bits.drop 8).take 8).length = 8 := by rw [List.length_take, List.length_drop]; omega
  rw [hl8] at hv
  have hL : entryLength bits ≤ 255 := by unfold entryLength; omega
  have hc : (entryCode bits).length = entryLength bits := by
    rw [entryCode, List.length_take, List.length_drop]; omega
  refine ⟨?_, hc, hL⟩
  have h1 : Bit.bits8 (entrySymbol bits) = bits.take 8 := Bit.bits8_byteOf _ (by rw [List.length_take]; omega)
  have h2 : Bit.bits8 (BitVec.ofNat 8 (entryCode bits).length) = (bits.drop 8).take 8 := by
    rw [hc]
    exact Bit.bits8_byteOf _ hl8
  have h3 : bits.drop (16 + entryLength bits) = (bits.drop 16).drop (entryLength bits) := by rw [List.drop_drop]
  have h4 : (bits.drop 8).drop 8 = bits.drop 16 := by rw [List.drop_drop]
  rw [h1, h2, h3, entryCode, List.append_assoc, List.take_append_drop, ← h4, List.append_assoc, List.take_append_drop,
    List.take_append_drop]

/-- What the entry loop reads: the bits of a list of entries, each inserted in turn; to the end, or up to bits that are no
entry, where it raises (R158, R159, R231 (c), (d)). -/
theorem readEntries_spec (tbl : Bits) (fuel : Nat) (s : State) (hl : tbl.length = s.tlen.toNat)
    (hf : s.tlen.toNat - s.hbits.toNat ≤ fuel) :
    (readEntries tbl fuel s).Ends
      (fun _ => ∃ es : List (Symbol × Bits), (∀ e ∈ es, e.2.length ≤ 255) ∧ tbl.drop s.hbits.toNat = entriesBits es)
      (fun t => ∃ (h : BitVec 32) (es : List (Symbol × Bits)) (rest : Bits), (∀ e ∈ es, e.2.length ≤ 255) ∧
        tbl.drop s.hbits.toNat = entriesBits es ++ rest ∧
        (0 < rest.length ∧ rest.length < 16 ∨ 16 ≤ rest.length ∧ rest.length < 16 + entryLength rest) ∧
        h.toNat = s.hbits.toNat + (entriesBits es).length ∧
        t = raise .malformedHeader { s with hbits := h, dec := entriesTable es s.dec }) := by
  induction fuel generalizing s with
  | zero => exact ⟨[], by simp, by rw [List.drop_eq_nil_of_le (by omega)]; rfl⟩
  | succ n ih =>
    rw [readEntries]
    by_cases hlt : s.hbits.toNat < s.tlen.toNat
    · rw [if_pos hlt, readEntry]
      generalize hb : tbl.drop s.hbits.toNat = bits at *
      have hbl : bits.length = s.tlen.toNat - s.hbits.toNat := by rw [← hb, List.length_drop, hl]
      by_cases h16 : s.hbits.toNat + 16 > s.tlen.toNat
      · rw [if_pos h16]
        exact ⟨s.hbits, [], bits, by simp, rfl, Or.inl ⟨by omega, by omega⟩, rfl, rfl⟩
      · rw [if_neg h16, takeEntry]
        by_cases hL : s.hbits.toNat + 16 + entryLength bits > s.tlen.toNat
        · rw [if_pos hL]
          exact ⟨s.hbits, [], bits, by simp, rfl, Or.inr ⟨by omega, by omega⟩, rfl, rfl⟩
        · rw [if_neg hL, Flow.andThen_on]
          obtain ⟨hs, hcl, hL255⟩ := entry_split (bits := bits) (by omega)
          have htl := s.tlen.isLt
          have hsum : (s.hbits + BitVec.ofNat 32 (16 + entryLength bits)).toNat =
              s.hbits.toNat + (16 + entryLength bits) := by
            rw [BitVec.toNat_add, BitVec.toNat_ofNat, Nat.add_mod_mod, Nat.mod_eq_of_lt (by omega)]
          have hle : ∀ es : List (Symbol × Bits), (∀ e ∈ es, e.2.length ≤ 255) →
              ∀ e ∈ (entrySymbol bits, entryCode bits) :: es, e.2.length ≤ 255 := by
            intro es he e hm
            rcases List.mem_cons.1 hm with rfl | hm
            · simp only; omega
            · exact he e hm
          refine (ih { s with
            dec := s.dec.insert (entryCode bits) (entrySymbol bits)
            hbits := s.hbits + BitVec.ofNat 32 (16 + entryLength bits) } hl (by simp only [hsum]; omega)).weaken ?_ ?_
          · rintro t ⟨es, he, hes⟩
            refine ⟨_, hle es he, ?_⟩
            simp only [hsum] at hes
            rw [← List.drop_drop, hb] at hes
            rw [entriesBits_cons, ← hes]
            exact hs
          · rintro t ⟨h, es, rest, he, hes, hrest, hh, rfl⟩
            refine ⟨h, _, rest, hle es he, ?_, hrest, ?_, rfl⟩
            · simp only [hsum] at hes
              rw [← List.drop_drop, hb] at hes
              rw [entriesBits_cons, List.append_assoc, ← hes]
              exact hs
            · simp only [hsum] at hh
              simp only [entriesBits_cons, List.length_append, Bit.bits8_length]
              omega
    · rw [if_neg hlt]
      exact ⟨[], by simp, by rw [List.drop_eq_nil_of_le (by omega)]; rfl⟩

/-- What the reads of the fixed fields say of the source (R62, R156). -/
theorem fixed_starts {s : State} {pad : Byte} {q : List Byte} (hp : readByte s 0 = .ok pad)
    (hq : memRead s 1 4 = .ok q) : SourceStarts s (pad :: Bit.le32 (Bit.unle32 q)) := by
  obtain ⟨hql, hr⟩ := memRead_eq_ok.1 hq
  obtain ⟨a, b, c, d, rfl⟩ : ∃ a b c d, q = [a, b, c, d] := by
    match q, hql with
    | [a, b, c, d], _ => exact ⟨a, b, c, d, rfl⟩
  rw [Bit.le32_unle32]
  refine ⟨(hr 3 (by simp)).1, fun k hk => ?_⟩
  match k with
  | 0 => exact (readByte_eq_ok.1 hp).2
  | 1 => exact (hr 0 (by simp)).2
  | 2 => exact (hr 1 (by simp)).2
  | 3 => exact (hr 2 (by simp)).2
  | 4 => exact (hr 3 (by simp)).2
  | k + 5 => exact absurd hk (by simp only [List.length_cons, List.length_nil]; omega)

/-- A run of bytes that was read joins the bytes known to stand before it. -/
theorem SourceStarts.append {s t : State} {front bs : List Byte} {a n : Nat} (h : SourceStarts s front)
    (ha : a = front.length) (hsrc : t.src = s.src) (hn : a + n ≤ s.srcSize.toNat) (hr : memRead t a n = .ok bs) :
    SourceStarts s (front ++ bs) := by
  obtain ⟨hl, hr⟩ := memRead_eq_ok.1 hr
  refine ⟨by rw [List.length_append]; omega, fun k hk => ?_⟩
  by_cases hkf : k < front.length
  · rw [List.getElem_append_left hkf]; exact h.2 k hkf
  · rw [List.getElem_append_right (by omega), ← hsrc]
    have := (hr (k - a) (by rw [List.length_append] at hk; omega)).2
    rw [show a + (k - a) = k by omega] at this
    simpa only [ha] using this

/-- `readHeader` runs to its end on a source that begins with a header, and raises on no other: what it leaves then, by
the place where it raised (R156 to R159, R231, R234, R236). -/
theorem readHeader_spec (s : State) :
    (readHeader s).Ends
      (fun _ => ∃ (pad : Byte) (T : BitVec 32) (es : List (Symbol × Bits)) (tb : List Byte),
        T.toNat = (entriesBits es).length ∧ HeaderStarts s pad T es [] tb)
      (HeaderErrorLeft s) := by
  rw [readHeader, readFixed]
  by_cases h5 : s.srcSize.toNat < Config.hdrFixed
  · rw [if_pos h5]; exact Or.inl ⟨h5, rfl⟩
  rw [if_neg h5]
  cases hp : readByte s 0 with
  | error f => trivial
  | ok pad =>
  cases hT : memRead s 1 4 with
  | error f => trivial
  | ok q =>
  have hfix := fixed_starts hp hT
  rw [withValue_ok, withValue_ok, Flow.andThen_on, readTable, readTableOf]
  generalize Bit.unle32 q = T at hfix ⊢
  by_cases hsz : Config.hdrFixed + tableBytesOf (loadFixed pad T s).tlen > (loadFixed pad T s).srcSize.toNat
  · rw [if_pos hsz]; exact Or.inr (Or.inl ⟨pad, T, hfix, hsz, rfl⟩)
  rw [if_neg hsz]
  simp only [loadFixed_tlen, loadFixed_srcSize] at hsz ⊢
  refine Flow.Ends.withValue fun tb htb => ?_
  have htl : tb.length = (T.toNat + 7) / 8 := (memRead_eq_ok.1 htb).1
  have hstart := hfix.append (a := Config.hdrFixed) (t := loadFixed pad T s) rfl rfl (by omega) htb
  have hT8 : T.toNat ≤ 8 * tb.length := by omega
  rw [readTableBytes, appendBytes_eq]
  simp only [clearBuffer_bitbuf, List.nil_append, loadFixed_tlen]
  have hloop := readEntries_spec ((Bit.unpack tb).take T.toNat) T.toNat
    (startTable (clearBuffer { clearBuffer (loadFixed pad T s) with bitbuf := Bit.unpack tb }))
    (by rw [List.length_take, Bit.unpack_length, Nat.min_eq_left hT8]; rfl) (Nat.sub_le _ _)
  refine (hloop.weaken (P' := fun _ => ∃ (es : List (Symbol × Bits)), T.toNat = (entriesBits es).length ∧
    HeaderStarts s pad T es [] tb) ?_ ?_).andThen fun t ht => ?_
  · rintro t ⟨es, he, hes⟩
    replace hes : (Bit.unpack tb).take T.toNat = entriesBits es := hes
    refine ⟨es, ?_, he, htl, by rw [List.append_nil]; exact hes, hstart⟩
    rw [← hes, List.length_take, Bit.unpack_length, Nat.min_eq_left hT8]
  · rintro t ⟨h, es, rest, he, hes, hrest, hh, rfl⟩
    exact Or.inr (Or.inr ⟨pad, T, h, es, rest, tb, ⟨he, htl, hes, hstart⟩, hrest, hh.trans (Nat.zero_add _), rfl⟩)
  · obtain ⟨es, h1, h2⟩ := ht
    exact ⟨pad, T, es, tb, h1, h2⟩

/-- The bytes of the sink once the header is written (R151 to R155). -/
theorem headerWritten_holds (s : State) (hl : (packBits (tableBits s.code)).length + 5 < 2 ^ 64) :
    SinkHolds 0 (0x00 :: Bit.le32 (BitVec.ofNat 32 (tableBits s.code).length) ++ packBits (tableBits s.code)) (headerWritten s) ∧
      SinkKeptOutside 0 (5 + (packBits (tableBits s.code)).length) s (headerWritten s) := by
  generalize htb : packBits (tableBits s.code) = tb at *
  generalize hT : BitVec.ofNat 32 (tableBits s.code).length = T at *
  have hsnk : (headerWritten s).snk = ((s.snk.writeRun 0 [0, 0, 0, 0, 0]).writeRun 5 tb).writeRun 1 (Bit.le32 T) := by
    simp only [headerWritten, htb, hT]
  constructor
  · intro k hk
    rw [← List.getElem?_eq_getElem hk, hsnk]
    simp only [Memory.read_writeRun]
    match k with
    | 0 => rfl
    | 1 => rfl
    | 2 => rfl
    | 3 => rfl
    | 4 => rfl
    | k + 5 =>
      simp only [List.cons_append, List.length_cons, List.length_append, Bit.le32_length] at hk
      rw [if_pos (by omega), if_neg (by rw [Bit.le32_length]; omega), if_pos (by omega), if_pos (by omega),
        show 0 + (k + 5) - 5 = k by omega]
      rfl
  · intro k hk
    rw [hsnk]
    simp only [Memory.read_writeRun, Bit.le32_length]
    simp only [Nat.not_lt_zero, false_or] at hk
    rw [if_pos (by omega), if_neg (by omega), if_pos (by omega), if_neg (by omega), if_pos (by omega),
        if_neg (by simp; omega)]

/-- The table of entries with different keys (R159). -/
theorem entriesTable_lookup (es : List (Symbol × Bits)) (d : DecTable) (k : Bits) :
    (∀ b, (b, k) ∈ es → (∀ b', (b', k) ∈ es → b' = b) → (entriesTable es d).lookup k = some b) ∧
    ((∀ b, (b, k) ∉ es) → (entriesTable es d).lookup k = d.lookup k) := by
  induction es generalizing d with
  | nil => exact ⟨fun b h => absurd h (by simp), fun _ => rfl⟩
  | cons e es ih =>
    obtain ⟨b0, c0⟩ := e
    obtain ⟨h1, h2⟩ := ih (d.insert c0 b0)
    refine ⟨fun b hm hu => ?_, fun hn => ?_⟩
    · rw [entriesTable]
      by_cases hin : ∃ b', (b', k) ∈ es
      · obtain ⟨b', hb'⟩ := hin
        have : b' = b := hu b' (by simp [hb'])
        subst this
        exact h1 b' hb' fun b'' hb'' => hu b'' (by simp [hb''])
      · rw [h2 fun b' hb' => hin ⟨b', hb'⟩, DecTable.lookup_insert]
        rcases List.mem_cons.1 hm with he | he
        · cases he; simp
        · exact absurd ⟨b, he⟩ hin
    · rw [entriesTable, h2 fun b hb => hn b (by simp [hb]), DecTable.lookup_insert, if_neg]
      intro e
      subst e
      exact hn b0 (by simp)

/-- The table of a code table's entries is its inverse, where different symbols have different codes (R98, R160). -/
theorem codeTable_lookup {code : RegFile 256 (Option Bits)}
    (hinj : ∀ b b' c, code.get (symIndex b) = some c → code.get (symIndex b') = some c → b = b') (c : Bits) (b : Symbol) :
    (entriesTable (codeEntries code.cells 0) []).lookup c = some b ↔ code.get (symIndex b) = some c := by
  obtain ⟨h1, h2⟩ := entriesTable_lookup (codeEntries code.cells 0) [] c
  constructor
  · intro h
    by_cases hin : ∃ b', (b', c) ∈ codeEntries code.cells 0
    · obtain ⟨b', hb'⟩ := hin
      have hb'' := (mem_codeEntries_cells _ _ _).1 hb'
      rw [h1 b' hb' fun x hx => hinj _ _ _ ((mem_codeEntries_cells _ _ _).1 hx) hb''] at h
      cases h; exact hb''
    · rw [h2 fun x hx => hin ⟨x, hx⟩] at h; cases h
  · intro h
    exact h1 b ((mem_codeEntries_cells _ _ _).2 h) fun x hx => hinj _ _ _ ((mem_codeEntries_cells _ _ _).1 hx) h

theorem codeEntries_none {cs : List (Option Bits)} (h : ∀ c ∈ cs, c = none) (k : Nat) : codeEntries cs k = [] := by
  induction cs generalizing k with
  | nil => rfl
  | cons c cs ih =>
    have := h c (by simp)
    subst this
    exact ih (fun d hd => h d (by simp [hd])) (k + 1)

/-- The entries of a code table with one code (R96, R134). -/
theorem codeEntries_one {cs : List (Option Bits)} {i : Nat} (hi : i < cs.length) {c : Bits} (hc : cs[i] = some c)
    (h : ∀ j (hj : j < cs.length), j ≠ i → cs[j] = none) (k : Nat) : codeEntries cs k = [(BitVec.ofNat 8 (k + i),
        c)] := by
  induction cs generalizing i k with
  | nil => simp at hi
  | cons d cs ih =>
    cases i with
    | zero =>
      simp at hc
      subst hc
      rw [codeEntries, codeEntries_none, Nat.add_zero]
      intro d hd
      obtain ⟨j, hj, rfl⟩ := List.getElem_of_mem hd
      exact h (j + 1) (by simpa using hj) (by omega)
    | succ i =>
      have := h 0 (by simp) (by omega)
      simp at this
      subst this
      rw [codeEntries, ih (i := i) (by simpa using hi) (by simpa using hc) (fun j hj hne => h (j + 1) (by simpa using hj) (by omega))]
      rw [show k + 1 + i = k + (i + 1) by omega]

theorem unpack_replicate_zero (n : Nat) : Bit.unpack (List.replicate n 0) = Bit.zeros (8 * n) := by
  induction n with
  | zero => rfl
  | succ n ih =>
    rw [List.replicate_succ, Bit.unpack_cons, ih, show 8 * (n + 1) = 8 + 8 * n by omega, ← zeros_append]; rfl

/-- Zero bits pack into zero bytes (R184). -/
theorem pack_zeros (n : Nat) : packBits (Bit.zeros n) = List.replicate ((n + 7) / 8) 0 := by
  have h := unpack_drained_true (Bit.zeros n)
  rw [zeros_append] at h
  have h2 : Bit.unpack (packBits (Bit.zeros n)) = Bit.unpack (List.replicate ((n + 7) / 8) 0) := by
    rw [unpack_replicate_zero]
    refine h.trans ?_
    congr 1
    simp; omega
  have h3 := congrArg (drainedBytes false) h2
  rwa [drainedBytes_unpack, drainedBytes_unpack] at h3

end Sys2Proof.Machine
end

