-- ==== Sys2Proof/Laws/Huffman.lean ====
section
/-! SUPPORT. What the combining loop of `buildTree` keeps besides the forest (spec/41_codetree.md rules R132, R133,
R137): which nodes it joins, and what their weights add up to; and that the code it leads to is complete. -/

namespace Sys2Proof.Machine

/-- The arena after `a` and `b` were joined under `i` (R132). -/
def joinNodes (i a b : NodeId) (nodes : RegFile 511 Node) : RegFile 511 Node :=
  setParent i b (setParent i a (nodes.set i
    { weight := (nodes.get a).weight + (nodes.get b).weight, sym := none, parent := none, left := some a,
      right := some b }))

/-- What holds of the leaves and is kept by every join of the two lowest roots holds of the tree. -/
theorem combineLoop_keeps {n : Nat} (P : Nat → RegFile 511 Node → List NodeId → Prop)
    (hstep : ∀ m nodes q a b i, Forest n m nodes q → P m nodes q → pqMin nodes q = some a →
      pqMin nodes (q.erase a) = some b → i.val = m → P (m + 1) (joinNodes i a b nodes) (pqAdd i ((q.erase a).erase b)))
    (fuel m : Nat) (s : State) (hm : s.nnodes.toNat = m) (hf : Forest n m s.node s.pq) (hP : P m s.node s.pq) :
    P (combineLoop fuel s).nnodes.toNat (combineLoop fuel s).node (combineLoop fuel s).pq := by
  induction fuel generalizing m s with
  | zero => rw [combineLoop, hm]; exact hP
  | succ fuel ih =>
    rw [combineLoop]
    cases ha : pqMin s.node s.pq with
    | none => simp only; rw [hm]; exact hP
    | some a =>
      simp only
      cases hb : pqMin s.node (s.pq.erase a) with
      | none => simp only; rw [hm]; exact hP
      | some b =>
        have hamem := pqMin_mem ha
        have hbmem := pqMin_mem hb
        have hpos := List.length_pos_of_mem hbmem
        have hlen := List.length_erase_of_mem hamem
        have hc := hf.count
        have hfit := hf.fits
        have hid : (nextId s).val = m := by simp only [nextId, hm, Fin.ofNat]; omega
        refine ih (m + 1) (combine a b { s with pq := (s.pq.erase a).erase b }) ?_ (hf.combine hamem hbmem hid)
          (hstep m s.node s.pq a b (nextId s) hf hP ha hb hid)
        show (s.nnodes + 1).toNat = m + 1
        rw [BitVec.toNat_add, hm]; simp; omega

/-- The same for `buildTree`: from the leaves to the tree. -/
theorem buildTree_keeps (P : Nat → RegFile 511 Node → List NodeId → Prop) (s : State)
    (hleaf : ∀ nodes, (∀ j (hj : j < (present s.freq).length) (i : NodeId), i.val = j →
        nodes.get i = leafNode (present s.freq)[j].2 (present s.freq)[j].1) →
      P (present s.freq).length nodes ((List.range (present s.freq).length).map (Fin.ofNat 511)))
    (hstep : ∀ m nodes q a b i, Forest (present s.freq).length m nodes q → P m nodes q → pqMin nodes q = some a →
      pqMin nodes (q.erase a) = some b → i.val = m → P (m + 1) (joinNodes i a b nodes) (pqAdd i ((q.erase a).erase b))) :
    ∃ q, P (buildTree s).nnodes.toNat (buildTree s).node q ∧
      Forest (present s.freq).length (buildTree s).nnodes.toNat (buildTree s).node q ∧ q.length ≤ 1 ∧
      (buildTree s).root = q.head? := by
  obtain ⟨nodes, he, hl⟩ := buildLeaves_spec s
  have hle := present_length_le s.freq
  have h1 := combineLoop_keeps P hstep (buildLeaves s).pq.length (present s.freq).length (buildLeaves s)
    (by rw [he]; simp; omega) (by rw [he]; exact leaves_forest hl) (by rw [he]; exact hleaf nodes hl)
  obtain ⟨nodes', q, m', he', hF, hq, -⟩ :=
    combineLoop_spec (buildLeaves s).pq.length (present s.freq).length (present s.freq).length (buildLeaves s)
      (by rw [he]; simp; omega) (by rw [he]; exact leaves_forest hl) (Nat.le_refl _)
  have hc := hF.count
  have hfit := hF.fits
  have hm' : (BitVec.ofNat 10 m').toNat = m' := by rw [BitVec.toNat_ofNat]; omega
  rw [he'] at h1
  simp only [hm'] at h1
  have hb : buildTree s = takeRoot { buildLeaves s with node := nodes', pq := q, nnodes := BitVec.ofNat 10 m' } := by
    rw [buildTree, he']
  rw [hb]
  refine ⟨q, ?_, ?_, hq, rfl⟩
  · show P (BitVec.ofNat 10 m').toNat nodes' q
    rw [hm']; exact h1
  · show Forest _ (BitVec.ofNat 10 m').toNat nodes' q
    rw [hm']; exact hF

/-! ### The occurring symbols -/

theorem presentFrom_eq (ws : List (BitVec 64)) (k : Nat) :
    presentFrom ws k = (((List.range' k ws.length).filter fun i => decide (1 ≤ (ws.getD (i - k) 0).toNat)).map
      fun i => (BitVec.ofNat 8 i, ws.getD (i - k) 0)) := by
  induction ws generalizing k with
  | nil => rfl
  | cons w ws ih =>
    have hcong : ∀ i ∈ List.range' (k + 1) ws.length, (w :: ws).getD (i - k) 0 = ws.getD (i - (k + 1)) 0 := by
      intro i hi
      have := (List.mem_range'_1.1 hi).1
      rw [show i - k = (i - (k + 1)) + 1 by omega]
      rfl
    have hf : ((List.range' (k + 1) ws.length).filter fun i => decide (1 ≤ ((w :: ws).getD (i - k) 0).toNat)) =
        (List.range' (k + 1) ws.length).filter fun i => decide (1 ≤ (ws.getD (i - (k + 1)) 0).toNat) :=
      List.filter_congr fun i hi => by rw [hcong i hi]
    have hm : (((List.range' (k + 1) ws.length).filter fun i => decide (1 ≤ (ws.getD (i - (k + 1)) 0).toNat)).map
        fun i => (BitVec.ofNat 8 i, (w :: ws).getD (i - k) 0)) = presentFrom ws (k + 1) := by
      rw [ih]
      exact List.map_congr_left fun i hi => by rw [hcong i (List.mem_filter.1 hi).1]
    rw [List.length_cons, List.range'_succ, List.filter_cons, Nat.sub_self, hf]
    simp only [presentFrom, List.getD_cons_zero]
    split
    · next h => rw [if_pos (by simpa using h), List.map_cons, hm, Nat.sub_self]; rfl
    · next h => rw [if_neg (by simpa using h), hm]

/-- The present symbols are the occurring ones, in the same order. -/
theorem present_fst (freq : RegFile 256 (BitVec 64)) : (present freq).map (fun e => e.1) = occurring freq := by
  rw [present, presentFrom_eq, List.map_map, freq.size_eq, occurring, List.filter_map, List.range_eq_range']
  have hf : ∀ i ∈ List.range' 0 256, (decide (1 ≤ (freq.cells.getD (i - 0) 0).toNat)) =
      ((fun b => decide (1 ≤ (freq.get (symIndex b)).toNat)) ∘ BitVec.ofNat 8) i := by
    intro i hi
    have hi' : i < 256 := by have := (List.mem_range'_1.1 hi).2; omega
    have hs : symIndex (BitVec.ofNat 8 i) = ⟨i, hi'⟩ := by
      apply Fin.ext
      simp only [symIndex, BitVec.toNat_ofNat]
      omega
    simp only [Function.comp_apply, hs, Nat.sub_zero]
    have hc : freq.cells.getD i 0 = freq.get ⟨i, hi'⟩ := by
      rw [List.getD_eq_getElem?_getD, List.getElem?_eq_getElem (by rw [freq.size_eq]; exact hi'), Option.getD_some,
        RegFile.cells_getElem]
    simp only [hc]
  rw [List.filter_congr hf]
  rfl

theorem occurring_length (freq : RegFile 256 (BitVec 64)) : (occurring freq).length = (present freq).length := by
  rw [← present_fst, List.length_map]

theorem occurring_getElem (freq : RegFile 256 (BitVec 64)) (k : Nat) (h : k < (occurring freq).length) :
    ∃ h' : k < (present freq).length, (occurring freq)[k] = (present freq)[k].1 := by
  refine ⟨by rw [← occurring_length]; exact h, ?_⟩
  simp only [← present_fst, List.getElem_map]

/-! ### The two lowest -/

/-- Each inner node joins the two nodes that came first in the order of R34 among those without a parent when it was
made (R132). -/
def JoinsLowest (m : Nat) (nodes : RegFile 511 Node) : Prop :=
  ∀ i a b : NodeId, i.val < m → (nodes.get i).left = some a → (nodes.get i).right = some b →
    nodeBefore nodes a b = true ∧ ∀ j : NodeId, j < i → j ≠ a → j ≠ b →
      (∀ p, (nodes.get j).parent = some p → i < p) → nodeBefore nodes b j = true

theorem nodeBefore_congr {x y : RegFile 511 Node} {a b : NodeId} (ha : (x.get a).weight = (y.get a).weight)
    (hb : (x.get b).weight = (y.get b).weight) : nodeBefore x a b = nodeBefore y a b := by
  rw [nodeBefore, nodeBefore, ha, hb]

/-- What joining two roots leaves of a node made earlier: its parent at most is new. -/
theorem joinNodes_get {n m : Nat} {nodes : RegFile 511 Node} {q : List NodeId} {a b i : NodeId}
    (h : Forest n m nodes q) (ha : a ∈ q) (hb : b ∈ q.erase a) (hi : i.val = m) (j : NodeId) :
    (joinNodes i a b nodes).get j =
      if j = i then
        { weight := (nodes.get a).weight + (nodes.get b).weight, sym := none, parent := none, left := some a,
          right := some b }
      else if j = a ∨ j = b then { nodes.get j with parent := some i } else nodes.get j := by
  have hnd := rising_nodup h.rising
  have hb' : b ≠ a ∧ b ∈ q := by rwa [hnd.mem_erase_iff] at hb
  have hra := ((h.roots a).1 ha).1
  have hrb := ((h.roots b).1 hb'.2).1
  exact combined_get (fun e => hb'.1 e.symm) (fun e => by subst e; omega) (fun e => by subst e; omega) j

theorem joinNodes_old {n m : Nat} {nodes : RegFile 511 Node} {q : List NodeId} {a b i : NodeId}
    (h : Forest n m nodes q) (ha : a ∈ q) (hb : b ∈ q.erase a) (hi : i.val = m) {j : NodeId} (hj : j.val < m) :
    ((joinNodes i a b nodes).get j).weight = (nodes.get j).weight ∧
    ((joinNodes i a b nodes).get j).left = (nodes.get j).left ∧
    ((joinNodes i a b nodes).get j).right = (nodes.get j).right := by
  rw [joinNodes_get h ha hb hi, if_neg fun e => by subst e; omega]
  split <;> exact ⟨rfl, rfl, rfl⟩

theorem Forest.children {n m : Nat} {nodes : RegFile 511 Node} {q : List NodeId} (h : Forest n m nodes q)
    {i a b : NodeId} (hi : i.val < m) (hl : (nodes.get i).left = some a) (hr : (nodes.get i).right = some b) :
    n ≤ i.val ∧ a ≠ b ∧ a < i ∧ b < i ∧ (nodes.get a).parent = some i ∧ (nodes.get b).parent = some i ∧
      (nodes.get i).weight = (nodes.get a).weight + (nodes.get b).weight := by
  have hn : n ≤ i.val := by
    rcases Nat.lt_or_ge i.val n with hlt | hge
    · rw [(h.leaves i hlt).2.1] at hl; cases hl
    · exact hge
  obtain ⟨-, a', b', hab, hl', hr', hai, hbi, hpa, hpb, hw⟩ := h.inner i hn hi
  rw [hl] at hl'; rw [hr] at hr'
  cases hl'; cases hr'
  exact ⟨hn, hab, hai, hbi, hpa, hpb, hw⟩

theorem JoinsLowest.join {n m : Nat} {nodes : RegFile 511 Node} {q : List NodeId} {a b i : NodeId}
    (h : Forest n m nodes q) (hP : JoinsLowest m nodes) (ha : pqMin nodes q = some a)
    (hb : pqMin nodes (q.erase a) = some b) (hi : i.val = m) : JoinsLowest (m + 1) (joinNodes i a b nodes) := by
  have hamem := pqMin_mem ha
  have hbmem := pqMin_mem hb
  have hnd := rising_nodup h.rising
  have hb' : b ≠ a ∧ b ∈ q := by rwa [hnd.mem_erase_iff] at hbmem
  have hra := (h.roots a).1 hamem
  have hrb := (h.roots b).1 hb'.2
  have hget := joinNodes_get h hamem hbmem hi
  have hold := fun j (hj : j.val < m) => joinNodes_old h hamem hbmem hi (j := j) hj
  have hbef : ∀ x y : NodeId, x.val < m → y.val < m →
      nodeBefore (joinNodes i a b nodes) x y = nodeBefore nodes x y := fun x y hx hy =>
    nodeBefore_congr (hold x hx).1 (hold y hy).1
  intro k c d hk hl hr
  by_cases hki : k = i
  · subst hki
    rw [hget, if_pos rfl] at hl hr
    cases hl; cases hr
    refine ⟨?_, fun j hj hja hjb hpar => ?_⟩
    · rw [hbef a b hra.1 hrb.1]
      exact pqMin_least ha b hb'.2 hb'.1
    · have hjm : j.val < m := by rw [Fin.lt_def] at hj; omega
      rw [hbef b j hrb.1 hjm]
      have hpj : (nodes.get j).parent = none := by
        cases hp : (nodes.get j).parent with
        | none => rfl
        | some p =>
          have hpm := (h.parents j p hjm hp).2.1
          have := hpar p (by
            rw [hget, if_neg (fun e => by subst e; omega), if_neg (fun e => e.elim hja hjb)]
            exact hp)
          rw [Fin.lt_def] at this
          omega
      have hjq : j ∈ q := (h.roots j).2 ⟨hjm, hpj⟩
      exact pqMin_least hb j (hnd.mem_erase_iff.2 ⟨hja, hjq⟩) hjb
  · have hkm : k.val < m := by have : k.val ≠ i.val := fun e => hki (Fin.ext e); omega
    obtain ⟨-, hl', hr'⟩ := hold k hkm
    rw [hl'] at hl
    rw [hr'] at hr
    obtain ⟨hn, hcd, hck, hdk, hpc, hpd, -⟩ := h.children hkm hl hr
    rw [Fin.lt_def] at hck hdk
    obtain ⟨h1, h2⟩ := hP k c d hkm hl hr
    refine ⟨by rw [hbef c d (by omega) (by omega)]; exact h1, fun j hj hjc hjd hpar => ?_⟩
    have hjk := hj
    rw [Fin.lt_def] at hjk
    rw [hbef d j (by omega) (by omega)]
    refine h2 j hj hjc hjd fun p hp => ?_
    by_cases hjab : j = a ∨ j = b
    · have : (nodes.get j).parent = none := by
        rcases hjab with rfl | rfl
        · exact hra.2
        · exact hrb.2
      rw [this] at hp; cases hp
    · refine hpar p ?_
      rw [hget, if_neg (fun e => by subst e; omega), if_neg hjab]
      exact hp

/-- `buildTree` joins the two lowest each time (R132). -/
theorem buildTree_joins (s : State) : JoinsLowest (buildTree s).nnodes.toNat (buildTree s).node := by
  obtain ⟨q, h, -, -, -⟩ := buildTree_keeps (fun m nodes _ => JoinsLowest m nodes) s
    (fun nodes hl i a b hi hleft => by
      rw [hl i.val hi i rfl] at hleft
      simp [leafNode] at hleft)
    (fun m nodes q a b i hF hP ha hb hi => JoinsLowest.join hF hP ha hb hi)
  exact h

/-! ### The weights -/

/-- The weights of the roots, added up in the 64 bits of a weight. -/
def rootSum (nodes : RegFile 511 Node) (q : List NodeId) : BitVec 64 :=
  (q.map fun i => (nodes.get i).weight).foldr (fun x y => x + y) 0

theorem rootSum_cons (nodes : RegFile 511 Node) (i : NodeId) (q : List NodeId) :
    rootSum nodes (i :: q) = (nodes.get i).weight + rootSum nodes q := rfl

theorem rootSum_congr {x y : RegFile 511 Node} {q : List NodeId} (h : ∀ i ∈ q, (x.get i).weight = (y.get i).weight) :
    rootSum x q = rootSum y q := by
  unfold rootSum
  rw [List.map_congr_left h]

theorem rootSum_add (nodes : RegFile 511 Node) {i : NodeId} {q : List NodeId} (h : i ∉ q) :
    rootSum nodes (pqAdd i q) = (nodes.get i).weight + rootSum nodes q := by
  induction q with
  | nil => rfl
  | cons j q ih =>
    simp only [List.mem_cons, not_or] at h
    rw [pqAdd]
    split
    · rfl
    · rw [if_neg h.1, rootSum_cons, ih h.2, rootSum_cons, ← BitVec.add_assoc, ← BitVec.add_assoc,
        BitVec.add_comm (nodes.get j).weight]

theorem rootSum_erase (nodes : RegFile 511 Node) {a : NodeId} {q : List NodeId} (h : a ∈ q) :
    rootSum nodes q = (nodes.get a).weight + rootSum nodes (q.erase a) := by
  induction q with
  | nil => simp at h
  | cons j q ih =>
    by_cases hj : j = a
    · subst hj; simp [rootSum_cons]
    · have hmem : a ∈ q := by
        rcases List.mem_cons.1 h with e | e
        · exact absurd e.symm hj
        · exact e
      rw [List.erase_cons_tail (by simpa using hj), rootSum_cons, ih hmem, rootSum_cons, ← BitVec.add_assoc,
        ← BitVec.add_assoc, BitVec.add_comm (nodes.get j).weight]

/-- The same as natural numbers. -/
def rootTotal (nodes : RegFile 511 Node) (q : List NodeId) : Nat :=
  (q.map fun i => (nodes.get i).weight.toNat).sum

theorem rootTotal_cons (nodes : RegFile 511 Node) (i : NodeId) (q : List NodeId) :
    rootTotal nodes (i :: q) = (nodes.get i).weight.toNat + rootTotal nodes q := rfl

theorem rootTotal_congr {x y : RegFile 511 Node} {q : List NodeId} (h : ∀ i ∈ q, (x.get i).weight = (y.get i).weight) :
    rootTotal x q = rootTotal y q := by
  unfold rootTotal
  rw [List.map_congr_left fun i hi => by rw [h i hi]]

theorem rootTotal_add (nodes : RegFile 511 Node) {i : NodeId} {q : List NodeId} (h : i ∉ q) :
    rootTotal nodes (pqAdd i q) = (nodes.get i).weight.toNat + rootTotal nodes q := by
  induction q with
  | nil => rfl
  | cons j q ih =>
    simp only [List.mem_cons, not_or] at h
    rw [pqAdd]
    split
    · rfl
    · rw [if_neg h.1, rootTotal_cons, ih h.2, rootTotal_cons]; omega

theorem rootTotal_erase (nodes : RegFile 511 Node) {a : NodeId} {q : List NodeId} (h : a ∈ q) :
    rootTotal nodes q = (nodes.get a).weight.toNat + rootTotal nodes (q.erase a) := by
  induction q with
  | nil => simp at h
  | cons j q ih =>
    by_cases hj : j = a
    · subst hj; simp [rootTotal_cons]
    · have hmem : a ∈ q := by
        rcases List.mem_cons.1 h with e | e
        · exact absurd e.symm hj
        · exact e
      rw [List.erase_cons_tail (by simpa using hj), rootTotal_cons, ih hmem, rootTotal_cons]; omega

/-- What the two sums are after a join. -/
theorem joinNodes_sums {n m : Nat} {nodes : RegFile 511 Node} {q : List NodeId} {a b i : NodeId}
    (h : Forest n m nodes q) (ha : a ∈ q) (hb : b ∈ q.erase a) (hi : i.val = m) :
    rootSum (joinNodes i a b nodes) (pqAdd i ((q.erase a).erase b)) = rootSum nodes q ∧
    rootTotal (joinNodes i a b nodes) (pqAdd i ((q.erase a).erase b)) =
      ((nodes.get a).weight + (nodes.get b).weight).toNat + rootTotal nodes ((q.erase a).erase b) ∧
    rootTotal nodes q =
      (nodes.get a).weight.toNat + ((nodes.get b).weight.toNat + rootTotal nodes ((q.erase a).erase b)) := by
  have hmem : ∀ j ∈ (q.erase a).erase b, j.val < m := fun j hj =>
    ((h.roots j).1 (List.mem_of_mem_erase (List.mem_of_mem_erase hj))).1
  have hiq : i ∉ (q.erase a).erase b := fun hh => by have := hmem i hh; omega
  have hw : ((joinNodes i a b nodes).get i).weight = (nodes.get a).weight + (nodes.get b).weight := by
    rw [joinNodes_get h ha hb hi, if_pos rfl]
  have hcong : ∀ j ∈ (q.erase a).erase b, ((joinNodes i a b nodes).get j).weight = (nodes.get j).weight :=
    fun j hj => (joinNodes_old h ha hb hi (hmem j hj)).1
  refine ⟨?_, ?_, ?_⟩
  · rw [rootSum_add _ hiq, hw, rootSum_congr hcong, rootSum_erase nodes ha, rootSum_erase nodes hb, BitVec.add_assoc]
  · rw [rootTotal_add _ hiq, hw, rootTotal_congr hcong]
  · rw [rootTotal_erase nodes ha, rootTotal_erase nodes hb]

/-- Every inner node's weight is the exact sum of its children's. -/
def ExactWeights (m : Nat) (nodes : RegFile 511 Node) : Prop :=
  ∀ i a b : NodeId, i.val < m → (nodes.get i).left = some a → (nodes.get i).right = some b →
    (nodes.get i).weight.toNat = (nodes.get a).weight.toNat + (nodes.get b).weight.toNat

theorem present_total (ws : List (BitVec 64)) (k : Nat) :
    ((presentFrom ws k).map fun e => e.2.toNat).sum = (ws.map BitVec.toNat).sum := by
  induction ws generalizing k with
  | nil => rfl
  | cons w ws ih =>
    simp only [presentFrom, List.map_cons, List.sum_cons]
    split
    · rw [List.map_cons, List.sum_cons, ih]
    · rw [ih]; omega

theorem present_sum (ws : List (BitVec 64)) (k : Nat) :
    ((presentFrom ws k).map fun e => e.2).foldr (fun x y => x + y) 0 = ws.foldr (fun x y => x + y) 0 := by
  induction ws generalizing k with
  | nil => rfl
  | cons w ws ih =>
    simp only [presentFrom, List.foldr_cons]
    split
    · rw [List.map_cons, List.foldr_cons, ih]
    · next h =>
      have : w = 0 := BitVec.eq_of_toNat_eq (by simp; omega)
      rw [ih, this]; simp

theorem foldl_add_eq (ws : List (BitVec 64)) (acc : BitVec 64) :
    ws.foldl (fun x y => x + y) acc = acc + ws.foldr (fun x y => x + y) 0 := by
  induction ws generalizing acc with
  | nil => simp
  | cons w ws ih => rw [List.foldl_cons, ih, List.foldr_cons, BitVec.add_assoc]

/-- The leaves' weights, as the list the roots of the leaf forest are. -/
theorem leaf_weights {freq : RegFile 256 (BitVec 64)} {nodes : RegFile 511 Node}
    (h : ∀ j (hj : j < (present freq).length) (i : NodeId), i.val = j →
      nodes.get i = leafNode (present freq)[j].2 (present freq)[j].1) :
    (((List.range (present freq).length).map (Fin.ofNat 511)).map fun i : NodeId => (nodes.get i).weight) =
      (present freq).map fun e => e.2 := by
  have hle := present_length_le freq
  apply List.ext_getElem
  · simp
  · intro k h1 h2
    simp only [List.length_map, List.length_range] at h1
    simp only [List.getElem_map, List.getElem_range]
    rw [h k h1 _ (val_ofNat (by omega))]
    rfl

/-- The weights of the finished tree (R132, R133): the root's is the sum of the counters, and where the counters do not
overflow each inner node's is the exact sum of its children's. -/
theorem buildTree_weights (s : State) :
    (∀ r, (buildTree s).root = some r → ((buildTree s).node.get r).weight = s.freq.cells.foldl (fun x y => x + y) 0) ∧
    ((s.freq.cells.map BitVec.toNat).sum < 2 ^ 64 → ExactWeights (buildTree s).nnodes.toNat (buildTree s).node) := by
  constructor
  · intro r hr
    obtain ⟨q, hP, -, hq, hroot⟩ := buildTree_keeps
      (fun _ nodes q => rootSum nodes q = s.freq.cells.foldr (fun x y => x + y) 0) s
      (fun nodes hl => by rw [rootSum, leaf_weights hl, present, present_sum])
      (fun m nodes q a b i hF hP ha hb hi => by
        rw [(joinNodes_sums hF (pqMin_mem ha) (pqMin_mem hb) hi).1]; exact hP)
    rw [hroot] at hr
    match q, hq, hr, hP with
    | [x], _, hr, hP =>
      simp only [List.head?_cons, Option.some.injEq] at hr
      subst hr
      rw [foldl_add_eq, ← hP, rootSum_cons]
      simp [rootSum]
  · intro hsum
    obtain ⟨q, hP, -, -, -⟩ := buildTree_keeps
      (fun m nodes q => rootTotal nodes q = (s.freq.cells.map BitVec.toNat).sum ∧ ExactWeights m nodes) s
      (fun nodes hl => by
        refine ⟨?_, fun i a b hi hleft => ?_⟩
        · have := leaf_weights hl
          rw [rootTotal, ← present_total s.freq.cells 0]
          have h2 := congrArg (fun l => (List.map BitVec.toNat l).sum) this
          simp only [List.map_map] at h2 ⊢
          exact h2
        · rw [hl i.val hi i rfl] at hleft
          simp [leafNode] at hleft)
      (fun m nodes q a b i hF hP ha hb hi => by
        obtain ⟨-, h2, h3⟩ := joinNodes_sums hF (pqMin_mem ha) (pqMin_mem hb) hi
        have hadd : ((nodes.get a).weight + (nodes.get b).weight).toNat =
            (nodes.get a).weight.toNat + (nodes.get b).weight.toNat := by
          rw [BitVec.toNat_add, Nat.mod_eq_of_lt (by omega)]
        refine ⟨by rw [h2, hadd]; omega, fun k c d hk hl hr => ?_⟩
        by_cases hki : k = i
        · subst hki
          rw [joinNodes_get hF (pqMin_mem ha) (pqMin_mem hb) hi, if_pos rfl] at hl hr
          cases hl; cases hr
          have hra := ((hF.roots a).1 (pqMin_mem ha)).1
          have hrb := ((hF.roots b).1 (List.mem_of_mem_erase (pqMin_mem hb))).1
          rw [(joinNodes_old hF (pqMin_mem ha) (pqMin_mem hb) hi hra).1,
            (joinNodes_old hF (pqMin_mem ha) (pqMin_mem hb) hi hrb).1, joinNodes_get hF (pqMin_mem ha) (pqMin_mem hb) hi,
            if_pos rfl]
          exact hadd
        · have hkm : k.val < m := by have : k.val ≠ i.val := fun e => hki (Fin.ext e); omega
          obtain ⟨hw', hl', hr'⟩ := joinNodes_old hF (pqMin_mem ha) (pqMin_mem hb) hi hkm
          rw [hl'] at hl
          rw [hr'] at hr
          obtain ⟨-, -, hck, hdk, -⟩ := hF.children hkm hl hr
          rw [Fin.lt_def] at hck hdk
          rw [hw', (joinNodes_old hF (pqMin_mem ha) (pqMin_mem hb) hi (j := c) (by omega)).1,
            (joinNodes_old hF (pqMin_mem ha) (pqMin_mem hb) hi (j := d) (by omega)).1]
          exact hP.2 k c d hkm hl hr)
    exact hP.2

/-! ### The code is complete -/

/-- From a node of the forest, a long enough bit string leads to a leaf. -/
theorem Forest.descends {n m : Nat} {nodes : RegFile 511 Node} {q : List NodeId} (h : Forest n m nodes q) (fuel : Nat)
    (j : NodeId) (x : Bits) (hj : j.val < m) (hf : j.val < n + fuel) (hx : j.val + 1 ≤ n + x.length) :
    ∃ c i, c <+: x ∧ follow nodes j c = some i ∧ i.val < n := by
  induction fuel generalizing j x with
  | zero => exact ⟨[], j, List.nil_prefix, rfl, hf⟩
  | succ fuel ih =>
    by_cases hn : j.val < n
    · exact ⟨[], j, List.nil_prefix, rfl, hn⟩
    · obtain ⟨-, a, b, -, hl, hr, hai, hbi, -⟩ := h.inner j (by omega) hj
      rw [Fin.lt_def] at hai hbi
      cases x with
      | nil => simp only [List.length_nil] at hx; omega
      | cons y x =>
        rw [List.length_cons] at hx
        obtain ⟨c, i, hc, hfol, hi⟩ := ih (if y then b else a) x (by split <;> omega) (by split <;> omega)
          (by split <;> omega)
        refine ⟨y :: c, i, List.cons_prefix_cons.2 ⟨rfl, hc⟩, ?_, hi⟩
        rw [follow]
        cases y <;> simp only [hl, hr, if_true, Bool.false_eq_true, if_false] at * <;> exact hfol

theorem follow_concat {nodes : RegFile 511 Node} {j : NodeId} {c : Bits} {y : Bool} {k : NodeId}
    (h : follow nodes j (c ++ [y]) = some k) :
    ∃ p, follow nodes j c = some p ∧ (if y then (nodes.get p).right else (nodes.get p).left) = some k := by
  induction c generalizing j with
  | nil =>
    rw [List.nil_append, follow] at h
    split at h
    · next k' hk => rw [follow] at h; cases h; exact ⟨j, rfl, hk⟩
    · cases h
  | cons b c ih =>
    rw [List.cons_append, follow] at h
    split at h
    · next k' hk =>
      obtain ⟨p, h1, h2⟩ := ih h
      exact ⟨p, by rw [follow, hk]; exact h1, h2⟩
    · cases h

/-- There is one way from a root to a node (R137 (b)). -/
theorem Forest.way_unique {n m : Nat} {nodes : RegFile 511 Node} {q : List NodeId} (h : Forest n m nodes q)
    {r i : NodeId} (hr : r ∈ q) : ∀ (k : Nat) (c d : Bits), c.length ≤ k → follow nodes r c = some i →
      follow nodes r d = some i → c = d := by
  have hrr := (h.roots r).1 hr
  have hdown : ∀ (c : Bits) (j k : NodeId), j.val < m → follow nodes j c = some k → k.val < m := by
    intro c
    induction c with
    | nil => intro j k hj hk; cases hk; exact hj
    | cons y c ih =>
      intro j k hj hk
      rw [follow] at hk
      split at hk
      · next l hl =>
        have hn : n ≤ j.val := by
          rcases Nat.lt_or_ge j.val n with hlt | hge
          · obtain ⟨-, h1, h2⟩ := h.leaves j hlt
            rw [h1, h2] at hl; cases y <;> simp at hl
          · exact hge
        obtain ⟨-, a, b, -, hla, hrb, hai, hbi, -⟩ := h.inner j hn hj
        rw [Fin.lt_def] at hai hbi
        refine ih l k ?_ hk
        cases y
        · simp only [hla, Bool.false_eq_true, if_false, Option.some.injEq] at hl; subst hl; omega
        · simp only [hrb, if_true, Option.some.injEq] at hl; subst hl; omega
      · cases hk
  have hlast : ∀ (c : Bits) (y : Bool) (k : NodeId), follow nodes r (c ++ [y]) = some k →
      ∃ p, follow nodes r c = some p ∧ (nodes.get k).parent = some p ∧
        (y = false ↔ (nodes.get p).left = some k) := by
    intro c y k hk
    obtain ⟨p, h1, h2⟩ := follow_concat hk
    have hpm := hdown c r p hrr.1 h1
    have hn : n ≤ p.val := by
      rcases Nat.lt_or_ge p.val n with hlt | hge
      · obtain ⟨-, e1, e2⟩ := h.leaves p hlt
        rw [e1, e2] at h2; cases y <;> simp at h2
      · exact hge
    obtain ⟨-, a, b, hab, hla, hrb, -, -, hpa, hpb, -⟩ := h.inner p hn hpm
    refine ⟨p, h1, ?_, ?_⟩
    · cases y
      · simp only [hla, Bool.false_eq_true, if_false, Option.some.injEq] at h2; subst h2; exact hpa
      · simp only [hrb, if_true, Option.some.injEq] at h2; subst h2; exact hpb
    · cases y
      · simp only [hla, Bool.false_eq_true, if_false, Option.some.injEq] at h2; subst h2; simp [hla]
      · simp only [hrb, if_true, Option.some.injEq] at h2
        subst h2
        simp only [hla, Bool.true_eq_false, Option.some.injEq, false_iff]
        exact hab
  intro k
  induction k generalizing i with
  | zero =>
    intro c d hc h1 h2
    have : c = [] := List.length_eq_zero_iff.1 (by omega)
    subst this
    cases h1
    rcases List.eq_nil_or_concat d with rfl | ⟨d', y, rfl⟩
    · rfl
    · rw [List.concat_eq_append] at h2
      obtain ⟨p, -, h3, -⟩ := hlast d' y r h2
      rw [hrr.2] at h3; cases h3
  | succ k ih =>
    intro c d hc h1 h2
    rcases List.eq_nil_or_concat c with rfl | ⟨c', y, rfl⟩
    · cases h1
      rcases List.eq_nil_or_concat d with rfl | ⟨d', y, rfl⟩
      · rfl
      · rw [List.concat_eq_append] at h2
        obtain ⟨p, -, h3, -⟩ := hlast d' y r h2
        rw [hrr.2] at h3; cases h3
    · rw [List.concat_eq_append] at h1 hc ⊢
      rcases List.eq_nil_or_concat d with rfl | ⟨d', z, rfl⟩
      · cases h2
        obtain ⟨p, -, h3, -⟩ := hlast c' y r h1
        rw [hrr.2] at h3; cases h3
      · rw [List.concat_eq_append] at h2 ⊢
        obtain ⟨p, e1, e2, e3⟩ := hlast c' y i h1
        obtain ⟨p', f1, f2, f3⟩ := hlast d' z i h2
        rw [e2] at f2
        cases f2
        have hcd := ih c' d' (by simp at hc; omega) e1 f1
        have hyz : y = z := by
          cases y <;> cases z <;> simp_all
        rw [hcd, hyz]

end Sys2Proof.Machine
end

