-- ==== Sys2Proof/Laws/PerInstr.lean ====
section
/-! SUPPORT. Statements for all operations, one lemma per constructor of Instr (spec/30_encoding.md rule R90: the length
of each format). -/

namespace Sys2Proof.Laws.EncodedLength

/-- How many bits a well-formed operation has (R90, R91, R92, R97, R101). The two bytes of `drainBytes` and the operand
bytes of `appendByte` are the model's own (assumption 3). -/
def Statement (i : Instr) : Prop :=
  i.wf = true →
    match i with
    | .encode => (encode i).length = 8
    | .decode => (encode i).length = 8
    | .appendByte _ => 8 ≤ (encode i).length ∧ (encode i).length % 8 = 0
    | .drainBytes _ => (encode i).length = 16
    | .buildTree => (encode i).length = 8
    | .generateCodes => (encode i).length = 8
    | .writeHeader => (encode i).length = 8
    | .readHeader => (encode i).length = 8
    | .hdr _ _ => (encode i).length = 40
    | .ent _ code => (encode i).length = 16 + code.length ∧ (encode i).length ≤ 271
    | .cod code => (encode i).length = code.length ∧ 1 ≤ code.length ∧ code.length ≤ 255

theorem encode : Statement .encode := fun _ => rfl

theorem decode : Statement .decode := fun _ => rfl

theorem appendByte (byte : Nat) : Statement (.appendByte byte) := fun _ => by
  simp only [Sys2Proof.encode, List.length_append, Bit.bits8_length, Bit.unpack_length]
  omega

theorem drainBytes (flush : Bool) : Statement (.drainBytes flush) := fun _ => rfl

theorem buildTree : Statement .buildTree := fun _ => rfl

theorem generateCodes : Statement .generateCodes := fun _ => rfl

theorem writeHeader : Statement .writeHeader := fun _ => rfl

theorem readHeader : Statement .readHeader := fun _ => rfl

theorem hdr (pad : Byte) (tlen : BitVec 32) : Statement (.hdr pad tlen) := fun _ => rfl

theorem ent (symbol : Symbol) (code : Bits) : Statement (.ent symbol code) := fun h => by
  have hc : code.length ≤ 255 := of_decide_eq_true h
  have hl : (Sys2Proof.encode (.ent symbol code)).length = 16 + code.length := by
    simp only [Sys2Proof.encode, List.length_append, Bit.bits8_length]
  exact ⟨hl, by omega⟩

theorem cod (code : Bits) : Statement (.cod code) := fun h => by
  simp only [Instr.wf, payloadCodeFits, Bool.and_eq_true, decide_eq_true_eq] at h
  exact ⟨rfl, h.1, h.2⟩

end Sys2Proof.Laws.EncodedLength
end

