-- ==== Sys2Proof/Laws/Runs.lean ====
section
/-! SUPPORT. Runs of several steps (spec/30_encoding.md rule R105; spec/43_encoder.md rules R170 to R183;
spec/44_decoder.md rules R200 to R214): the host's moves that start a command, the loop of pass 2,
    and the sink image. -/

namespace Sys2Proof.Machine

/-! ### Runs -/

theorem runSteps_succ {s t : State} (n : Nat) (h : step s = .next t) : runSteps (n + 1) s = runSteps n t := by
  rw [runSteps, h]

/-- A run in two parts. -/
theorem runSteps_add {s t : State} (m n : Nat) (h : runSteps m s = .next t) : runSteps (m + n) s = runSteps n t := by
  induction m generalizing s with
  | zero => cases h; rw [Nat.zero_add]
  | succ m ih =>
    rw [runSteps] at h
    rw [show m + 1 + n = (m + n) + 1 by omega, runSteps]
    cases hs : step s with
    | next u => rw [hs] at h; exact ih h
    | fault f => rw [hs] at h; cases h
    | refused r => rw [hs] at h; cases h

/-! ### The start of a command on a new engine -/

/-- The engine right after the host started a command on a source (R40, R105, R264). -/
def started (p : Params) (source : List Byte) (mode : Bool) : State :=
  startCommand mode { State.reset with
    params := p, src := cellsFrom 0 source, srcSize := BitVec.ofNat 64 source.length }

theorem started_alone (p : Params) (source : List Byte) (mode : Bool) : RunningIn (started p source mode) mode 0 :=
  ⟨⟨rfl, rfl, rfl⟩, rfl, rfl, rfl⟩

theorem started_source (p : Params) (source : List Byte) (mode : Bool) (h : source.length < 2 ^ 64) :
    SourceIs (started p source mode) source := by
  refine ⟨?_, fun k hk => ?_⟩
  · show (BitVec.ofNat 64 source.length).toNat = _
    rw [BitVec.toNat_ofNat, Nat.mod_eq_of_lt h]
  · show Memory.read (cellsFrom 0 source) k = _
    rw [Memory.read_cellsFrom, if_pos (Nat.zero_le _)]
    simp [hk]

/-- The four moves of the host (R264). -/
theorem session_started (p : Params) (source : List Byte) (mode : Bool) (hl : source.length < 2 ^ 56)
    (hc : mode = true → 1 ≤ p.chunkSize) :
    runSteps 4 (session p source (if mode then 0x02 else 0x01)) = .next (started p source mode) := by
  have h64 : source.length < Config.spaceSize := by simp only [Config.spaceSize]; omega
  have hsz : (BitVec.ofNat 64 source.length).toNat < Config.sizeLimit := by
    rw [BitVec.toNat_ofNat, Nat.mod_eq_of_lt (by omega)]; exact hl
  rw [runSteps_succ (t := { session p source (if mode then 0x02 else 0x01) with
      src := cellsFrom 0 source
      host := [.provideSink, .writeSrcSize (BitVec.ofNat 64 source.length), .command (if mode then 0x02 else 0x01)] })]
  · rw [runSteps_succ (t := { session p source (if mode then 0x02 else 0x01) with
        src := cellsFrom 0 source
        host := [.writeSrcSize (BitVec.ofNat 64 source.length), .command (if mode then 0x02 else 0x01)] }) _ rfl,
      runSteps_succ (t := { session p source (if mode then 0x02 else 0x01) with
        src := cellsFrom 0 source
        srcSize := BitVec.ofNat 64 source.length
        host := [.command (if mode then 0x02 else 0x01)] }) _ rfl, runSteps_succ (t := started p source mode)]
    · rfl
    · show fetchCommand _ _ = _
      rw [fetchCommand_eq]
      cases mode with
      | false =>
        simp only [Bool.false_eq_true, if_false, if_true, execEncode]
        rw [if_neg (by simp [session, State.reset, Status.reset]), if_pos hsz]
        rfl
      | true =>
        simp only [if_true]
        rw [if_neg (by decide), execDecode, if_neg (by simp [session, State.reset, Status.reset]), if_pos hsz,
          if_neg (by have := hc rfl; simp only [session]; omega)]
        rfl
  · show provideSource source _ = _
    rw [provideSource, if_pos h64]; rfl

/-! ### The sink image -/

/-- The bytes the host reads from the sink (R38). -/
theorem sinkRun_eq (s : State) (a : Nat) (bytes : List Byte) (hsz : a + bytes.length ≤ s.snkSize.toNat)
    (h : ∀ k (hk : k < bytes.length), s.snk.read (a + k) = some bytes[k]) : sinkRun s a bytes.length = some bytes := by
  induction bytes generalizing a with
  | nil => rfl
  | cons b bs ih =>
    simp only [List.length_cons] at hsz
    have h0 : sinkByte s a = some b := by
      rw [sinkByte, if_pos (by omega)]
      exact h 0 (by simp)
    have h1 := ih (a + 1) (by omega) fun k hk => by
      have := h (k + 1) (by simpa using hk)
      rw [show a + 1 + k = a + (k + 1) by omega, this]; rfl
    rw [List.length_cons, sinkRun, h0, h1]

theorem sinkImage_eq {s : State} {bytes : List Byte} (hsz : s.snkSize.toNat = bytes.length) (h : SinkHolds 0 bytes s) :
    sinkImage s = some bytes := by
  rw [sinkImage, hsz]
  exact sinkRun_eq s 0 bytes (by omega) h

/-! ### Pass 2 of ENCODE -/

theorem payBits_cons (code : RegFile 256 (Option Bits)) (b : Byte) (bs : List Byte) :
    payBits code (b :: bs) = (code.get (symIndex b)).getD [] ++ payBits code bs := rfl

theorem payBits_length_le {code : RegFile 256 (Option Bits)}
    (h : ∀ b c, code.get (symIndex b) = some c → c.length ≤ 255) (bs : List Byte) :
    (payBits code bs).length ≤ 255 * bs.length := by
  induction bs with
  | nil => simp [payBits]
  | cons b bs ih =>
    rw [payBits_cons, List.length_append, List.length_cons]
    have : ((code.get (symIndex b)).getD []).length ≤ 255 := by
      cases hc : code.get (symIndex b) with
      | none => simp
      | some c => exact h b c hc
    omega

/-- The loop of pass 2 over bytes that all have a code: whole bytes of the bits so far at the end of the sink, the rest in
the buffer (R177 to R180). -/
theorem encode_loop (bs : List Byte) (s : State) (hrun : RunningIn s false 4)
    (hc : ∀ b ∈ bs, ∃ c, codeOf s b = some c) (hsz : s.srcPos.toNat + bs.length = s.srcSize.toNat)
    (hsrc : ∀ k (hk : k < bs.length), s.src.read (s.srcPos.toNat + k) = some bs[k])
    (hfit : s.snkPos.toNat + (s.bitbuf ++ payBits s.code bs).length < Config.spaceSize) :
    ∃ out rest, runSteps bs.length s = .next (appended out { s with srcPos := s.srcSize, bitbuf := rest }) ∧
      Bit.unpack out ++ rest = s.bitbuf ++ payBits s.code bs := by
  induction bs generalizing s with
  | nil =>
    refine ⟨[], s.bitbuf, ?_, by simp [payBits]⟩
    have : s.srcPos = s.srcSize := BitVec.eq_of_toNat_eq (by simpa using hsz)
    have hs : { s with srcPos := s.srcSize, bitbuf := s.bitbuf } = s :=
      (congrArg (fun x => { s with srcPos := x }) this.symm : { s with srcPos := s.srcSize } = { s with srcPos := s.srcPos })
    rw [List.length_nil, runSteps, appended_nil, hs]
  | cons b bs ih =>
    rw [List.length_cons] at hsz
    obtain ⟨c, hcb⟩ := hc b (by simp)
    have hcb' : s.code.get (symIndex b) = some c := hcb
    have hpay : s.bitbuf ++ payBits s.code (b :: bs) = (s.bitbuf ++ c) ++ payBits s.code bs := by
      rw [payBits_cons, hcb', Option.getD_some, List.append_assoc]
    rw [hpay] at hfit ⊢
    rw [List.length_append] at hfit
    have hrd : readByte s s.srcPos.toNat = .ok b := readByte_eq_ok.2 ⟨by omega, hsrc 0 (by simp)⟩
    have hst : step s = .next (emitted c { s with srcPos := s.srcPos + 1 }) := by
      rw [enc_step4 hrun (by omega), encodeStep, hrd, withValue_ok, encodeByte]
      have : codeOf { s with srcPos := s.srcPos + 1 } b = some c := hcb
      rw [this]
      simp only
      rw [emitCode_on (s := { s with srcPos := s.srcPos + 1 }) (by simp only; omega)]
      rfl
    obtain ⟨out1, rest1, he, hu, -⟩ := emitted_spec c { s with srcPos := s.srcPos + 1 }
    simp only at hu
    have hul := congrArg List.length hu
    simp only [List.length_append, Bit.unpack_length] at hul
    simp only [List.length_append] at hfit
    have he' : emitted c { s with srcPos := s.srcPos + 1 } =
        appended out1 { s with srcPos := s.srcPos + 1, bitbuf := rest1 } := he
    have hpos1 : (s.srcPos + 1).toNat = s.srcPos.toNat + 1 := by
      have := s.srcSize.isLt
      rw [BitVec.toNat_add]; simp; omega
    have hf1 : Fits out1 s := fun _ => by simp only [Config.spaceSize] at *; omega
    have hsp : (appended out1 { s with srcPos := s.srcPos + 1, bitbuf := rest1 }).snkPos.toNat =
        s.snkPos.toNat + out1.length :=
      Fits.snkPos (s := { s with srcPos := s.srcPos + 1, bitbuf := rest1 }) hf1
    have hcode : (appended out1 { s with srcPos := s.srcPos + 1, bitbuf := rest1 }).code = s.code := by simp
    obtain ⟨out2, rest2, hr2, hu2⟩ := ih (appended out1 { s with srcPos := s.srcPos + 1, bitbuf := rest1 })
      ⟨⟨by simpa using hrun.1.1, by simpa using hrun.1.2.1, by simpa using hrun.1.2.2⟩, by simpa using hrun.2.1,
        by simpa using hrun.2.2.1, by simpa using hrun.2.2.2⟩
      (fun x hx => by simpa [codeOf] using hc x (by simp [hx]))
      (by simp only [appended_srcPos, appended_srcSize, hpos1]; omega)
      (fun k hk => by
        have := hsrc (k + 1) (by simpa using hk)
        simp only [appended_srcPos, appended_src, hpos1]
        rw [show s.srcPos.toNat + 1 + k = s.srcPos.toNat + (k + 1) by omega]
        simpa using this)
      (by
        rw [hsp, hcode]
        simp only [appended_bitbuf, List.length_append]
        omega)
    rw [hcode, appended_bitbuf] at hu2
    refine ⟨out1 ++ out2, rest2, ?_, ?_⟩
    · rw [List.length_cons, runSteps_succ _ (hst.trans (by rw [he'])), hr2]
      have hu2l := congrArg List.length hu2
      simp only [List.length_append, Bit.unpack_length] at hu2l
      have hf2 : Fits (out1 ++ out2) { s with srcPos := s.srcSize, bitbuf := rest2 } := fun _ => by
        simp only [List.length_append]
        omega
      rw [← appended_append hf2]
      cases out1 <;> rfl
    · rw [Bit.unpack_append, List.append_assoc, hu2, ← List.append_assoc, hu]

/-- Where ENCODE stands when pass 2 begins (R172 to R176): the codes of the counts, the header in the sink, the tree
discarded. -/
def passTwo (p : Params) (source : List Byte) : State :=
  let code := codesOf (countsOf source)
  setPhase Phase.encoding { headerWritten { started p source false with code := code } with srcPos := 0 }

/-- The four transitions before pass 2 (R172 to R176). -/
theorem encode_to_pass_two (p : Params) (source : List Byte) (hl : source.length < 2 ^ 64) :
    runSteps 4 (started p source false) = .next (passTwo p source) := by
  have hsrc := started_source p source false hl
  have h1 : step (started p source false) = .next { started p source false with
      freq := countsOf source
      srcPos := (started p source false).srcSize
      status := { (started p source false).status with phase := Phase.frequencyCounted } } := by
    rw [enc_step0 (started_alone p source false), countFrequencies_on hsrc]; rfl
  rw [runSteps_succ _ h1]
  generalize hs1 : ({ started p source false with
      freq := countsOf source
      srcPos := (started p source false).srcSize
      status := { (started p source false).status with phase := Phase.frequencyCounted } } : State) = s1
  obtain ⟨nodes, nl, nn, root, he⟩ := makeTree_on s1
  rw [runSteps_succ _ ((enc_step1 (by rw [← hs1]; exact ⟨⟨rfl, rfl, rfl⟩, rfl, rfl,
      rfl⟩)).trans (congrArg Flow.outcome he))]
  generalize hs2 : ({ s1 with
        node := nodes
        nleaf := nl
        nnodes := nn
        root := root
        pq := []
        code := codesOf s1.freq
        status := { s1.status with phase := Phase.treeBuilt } } : State) = s2
  have hf : s1.freq = countsOf source := by rw [← hs1]
  have hcode : s2.code = codesOf (countsOf source) := by rw [← hs2, ← hf]
  have hC := (makeCodes_spec { State.reset with freq := countsOf source }).2
  have htl := tableBits_length_le (code := codesOf (countsOf source)) fun b c hc => hC.length_le_255 hc
  have hpl : (packBits (tableBits s2.code)).length + 5 < Config.spaceSize := by
    rw [hcode, packBits_length]
    simp only [Config.spaceSize]
    omega
  have h3 := emitHeader_on (s := s2) (by rw [← hs2, ← hs1]; rfl) (by rw [← hs2, ← hs1]; rfl) hpl
  rw [runSteps_succ _ ((enc_step2 (by rw [← hs2, ← hs1]; exact ⟨⟨rfl, rfl, rfl⟩, rfl, rfl,
      rfl⟩)).trans (congrArg Flow.outcome h3))]
  rw [runSteps_succ _ ((enc_step3 (by rw [← hs2, ← hs1]; exact ⟨⟨rfl, rfl, rfl⟩, rfl, rfl, rfl⟩)).trans rfl)]
  rw [← hs2, hf, ← hs1]
  rfl

theorem passTwo_alone (p : Params) (source : List Byte) : RunningIn (passTwo p source) false 4 :=
  ⟨⟨rfl, rfl, rfl⟩, rfl, rfl, rfl⟩

/-- The whole run of ENCODE on a new engine (R172 to R183): the header, the payload behind it, the padding count. -/
theorem encode_run (p : Params) (source : List Byte) (hl : source.length < 2 ^ 56) :
    let code := codesOf (countsOf source)
    let pay := packBits (payBits code source)
    let pad := BitVec.ofNat 8 (padCount ((payBits code source).length % 8))
    runSteps (stepsFor source.length) (session p source 0x01) = .next (finish Phase.flushed (written 0 [pad]
      { appended pay { passTwo p source with srcPos := (passTwo p source).srcSize, bitbuf := [] } with pad := pad })) := by
  intro code pay pad
  have h1 : runSteps 4 (session p source 0x01) = .next (started p source false) :=
      session_started p source false hl (by simp)
  have h2 := encode_to_pass_two p source (by omega)
  have hsrc := started_source p source false (by omega)
  have hC : Coded (countsOf source) code := (makeCodes_spec { State.reset with freq := countsOf source }).2
  have hcode : (passTwo p source).code = code := rfl
  have htl := tableBits_length_le (code := code) fun b c hc => hC.length_le_255 hc
  have hpl : (packBits (tableBits code)).length = _ := packBits_length _
  have hpb := payBits_length_le (code := code) (fun b c hc => hC.length_le_255 hc) source
  have hsp : (passTwo p source).snkPos.toNat = 5 + (packBits (tableBits code)).length := by
    show (BitVec.ofNat 64 _).toNat = _
    rw [BitVec.toNat_ofNat]
    exact Nat.mod_eq_of_lt (by show 5 + (packBits (tableBits code)).length < _; omega)
  obtain ⟨out, rest, hr, hu⟩ := encode_loop source (passTwo p source) (passTwo_alone p source)
    (fun b hb => by
      have : 1 ≤ ((countsOf source).get (symIndex b)).toNat := by
        rw [countsOf_get (by omega)]
        exact List.count_pos_iff.2 hb
      exact Option.isSome_iff_exists.1 ((hC.present_iff b).2 this))
    (by
      show 0 + source.length = _
      rw [Nat.zero_add]; exact hsrc.1.symm)
    (fun k hk => by
      show (passTwo p source).src.read (0 + k) = _
      rw [Nat.zero_add]; exact hsrc.2 k hk)
    (by
      rw [hsp, hcode]
      show _ + ([] ++ payBits code source).length < _
      rw [List.nil_append]; simp only [Config.spaceSize]; omega)
  have hbuf : (passTwo p source).bitbuf = [] := rfl
  rw [hbuf, List.nil_append, hcode] at hu
  have hul := congrArg List.length hu
  simp only [List.length_append, Bit.unpack_length] at hul
  have hrun5 : RunningIn (appended out { passTwo p source with srcPos := (passTwo p source).srcSize, bitbuf := rest }) false 4 :=
    ⟨⟨by simp; rfl, by simp; rfl, by simp; rfl⟩, by simp; rfl, by simp; rfl, by simp; rfl⟩
  have hfl : step (appended out { passTwo p source with srcPos := (passTwo p source).srcSize, bitbuf := rest }) =
      .next (flushedState (appended out { passTwo p source with srcPos := (passTwo p source).srcSize, bitbuf := rest })) := by
    rw [enc_step_last hrun5 (by simp), flushPayload_on]
    · rfl
    · have hf1 : Fits out { passTwo p source with srcPos := (passTwo p source).srcSize, bitbuf := rest } := fun _ => by
        simp only [hsp]; simp only [Config.spaceSize]; omega
      rw [hf1.snkPos, appended_bitbuf]
      have := Bit.ceil8_lt rest.length
      simp only [hsp, Config.spaceSize]; omega
  have hpay : pay = out ++ drainedBytes true rest := by
    show drainedBytes true (payBits code source) = _
    rw [← hu]; exact drainedBytes_unpack_append true out rest
  have hpad : (payBits code source).length % 8 = rest.length % 8 := by
    rw [← hul]; omega
  have hfit : Fits (out ++ drainedBytes true rest) { passTwo p source with srcPos := (passTwo p source).srcSize, bitbuf := [] } := fun _ => by
    rw [← hpay]
    have : pay.length = _ := packBits_length (payBits code source)
    simp only [hsp, Config.spaceSize]; omega
  rw [show stepsFor source.length = 4 + (4 + (source.length + 1)) by unfold stepsFor; omega, runSteps_add 4 _ h1,
    runSteps_add 4 _ h2, runSteps_add source.length 1 hr, runSteps_succ 0 hfl]
  show Host.Outcome.next _ = Host.Outcome.next _
  congr 1
  have hbb : (appended out { passTwo p source with srcPos := (passTwo p source).srcSize, bitbuf := rest }).bitbuf = rest := by simp
  unfold flushedState
  rw [hbb]
  simp only
  have hpd : pad = BitVec.ofNat 8 (padCount (rest.length % 8)) := by rw [← hpad]
  clear_value pad
  subst hpd
  congr 2
  have hdb : drainBuffer true (appended out { passTwo p source with srcPos := (passTwo p source).srcSize, bitbuf := rest }) =
      appended out { passTwo p source with srcPos := (passTwo p source).srcSize, bitbuf := [] } := by
    simp [drainBuffer, drainedRest_true, appended, written_eq, advanceSink]
  have hsp2 : (appended out { passTwo p source with srcPos := (passTwo p source).srcSize, bitbuf := rest }).snkPos =
      (appended out { passTwo p source with srcPos := (passTwo p source).srcSize, bitbuf := [] }).snkPos := by
    simp [appended, advanceSink]
  rw [hpay, ← appended_append hfit, hdb, hsp2]
  generalize (appended out { passTwo p source with srcPos := (passTwo p source).srcSize, bitbuf := [] }) = X
  generalize drainedBytes true rest = Y
  rfl

theorem containerOf_length (source : List Byte) : (containerOf source).length =
    5 + (packBits (tableBits (codesOf (countsOf source)))).length + (packBits (payBits (codesOf (countsOf source)) source)).length := by
  simp [containerOf]; omega

/-! ### The chunks of DECODE -/

/-- The keys of a table of entries are codes of the entries, or were there (R158). -/
theorem entriesTable_keys {es : List (Symbol × Bits)} {d : DecTable} (h : ∀ e ∈ es, e.2.length ≤ 255)
    (hd : ∀ k y, d.lookup k = some y → k.length ≤ 255) : ∀ k y,
        (entriesTable es d).lookup k = some y → k.length ≤ 255 := by
  induction es generalizing d with
  | nil => exact hd
  | cons e es ih =>
    obtain ⟨b, c⟩ := e
    refine ih (fun e he => h e (by simp [he])) fun k y hk => ?_
    rw [DecTable.lookup_insert] at hk
    split at hk
    · next e => subst e; exact h (b, c) (by simp)
    · exact hd k y hk

/-- What the walk leaves alone, and the two registers it leaves as given. -/
theorem walked_fields (out : List Symbol) (r c : Bits) (s : State) :
    (walked out r c s).cmd = s.cmd ∧ (walked out r c s).issue = s.issue ∧ (walked out r c s).host = s.host ∧
      (walked out r c s).status = s.status ∧ (walked out r c s).dec = s.dec ∧ (walked out r c s).params = s.params ∧
      (walked out r c s).srcSize = s.srcSize ∧ (walked out r c s).src = s.src ∧ (walked out r c s).pad = s.pad ∧
      (walked out r c s).bitbuf = r ∧ (walked out r c s).cand = c ∧ (walked out r c s).srcPos = s.srcPos := by
  simp [walked]

/-- What is left of a walk that ran to its end is no longer than the candidate register holds between tests (R212). -/
theorem scan_rest_length {dec : DecTable} {cand bits rest : Bits} {out : List Symbol} (hc : cand.length ≤ 255)
    (h : scan dec cand bits = (out, .done rest)) : rest.length ≤ 255 := by
  induction bits generalizing cand out with
  | nil => simp only [scan, Prod.mk.injEq, ParseEnd.done.injEq] at h; rw [← h.2]; exact hc
  | cons b bits ih =>
    rw [scan] at h
    split at h
    · next y _ =>
      cases hr : scan dec [] bits with
      | mk o e =>
        rw [hr] at h
        simp only [ParseEnd.cons, Prod.mk.injEq] at h
        rw [h.2] at hr
        exact ih (by simp) hr
    · split at h
      · cases h
      · next hl => exact ih (Nat.le_of_not_lt hl) h

/-- The last transition of DECODE, seen as a walk over nothing (R213). -/
theorem decode_end {s : State} (hrun : RunningIn s true 2) (hb : s.bitbuf = []) (hp : s.srcPos = s.srcSize) :
    runSteps 1 s = .next (finish Phase.done (walked [] [] s.cand { s with srcPos := s.srcSize })) := by
  rw [runSteps_succ 0 (dec_step_last hrun hp hb), walked, appended_nil]
  show Host.Outcome.next (finish Phase.done s) = .next (finish Phase.done _)
  have : ({ s with srcPos := s.srcSize, bitbuf := [], cand := s.cand } : State) = s := by
    cases s
    simp only at hb hp
    rw [hb, hp]
  rw [← this]

/-- The loop of the phase `Decoding` over the payload that is left: `scan` of its bits, the padding dropped (R204 to
R214). -/
theorem decode_loop (n : Nat) (payload : List Byte) (s : State) (hn : payload.length ≤ n) (hrun : RunningIn s true 2)
    (hc : 1 ≤ s.params.chunkSize) (hb : s.bitbuf = []) (hcand : s.cand.length ≤ 255)
    (hl : s.srcPos.toNat + payload.length = s.srcSize.toNat)
    (hsrc : ∀ k (h : k < payload.length), s.src.read (s.srcPos.toNat + k) = some payload[k])
    (hfit : s.snkPos.toNat + 8 * payload.length < Config.spaceSize) :
    match scan s.dec s.cand (payloadBits s.params.chunkSize s.pad payload) with
    | (out, .done rest) => ∃ m, m ≤ payload.length + 1 ∧
        runSteps m s = .next (finish Phase.done (walked out [] rest { s with srcPos := s.srcSize }))
    | (out, .invalid) => ∃ m left c pos, m ≤ payload.length + 1 ∧ c.length = 256 ∧
        runSteps m s = .next (raise .invalidCode (walked out left c { s with srcPos := pos })) := by
  induction n generalizing payload s with
  | zero =>
    have : payload = [] := List.length_eq_zero_iff.1 (by omega)
    subst this
    simp only [payloadBits, Bit.unpack_nil, List.take_nil, scan]
    exact ⟨1, by omega, decode_end hrun hb (BitVec.eq_of_toNat_eq (by simpa using hl))⟩
  | succ n ih =>
    by_cases hnil : payload = []
    · subst hnil
      simp only [payloadBits, Bit.unpack_nil, List.take_nil, scan]
      exact ⟨1, by omega, decode_end hrun hb (BitVec.eq_of_toNat_eq (by simpa using hl))⟩
    have hpos : 0 < payload.length := List.length_pos_iff.2 hnil
    have hlt := s.srcSize.isLt
    obtain ⟨he, hbuf⟩ := decodeChunk_on hb hl hsrc
    have hst := dec_step2 hrun (by omega)
    rw [he] at hst
    generalize htk : payload.take s.params.chunkSize = chunk at *
    have hcl : chunk.length = min s.params.chunkSize payload.length := by rw [← htk, List.length_take]
    have hbl : (chunkBuffer s chunk).length ≤ 8 * chunk.length := by
      rw [hbuf]
      split
      · rw [payloadBits, List.length_take, Bit.unpack_length]; omega
      · have := Bit.unpack_length chunk; omega
    have hw := walkBits_scan (chunkBuffer s chunk) { s with
      bitbuf := chunkBuffer s chunk, srcPos := s.srcPos + BitVec.ofNat 64 chunk.length } rfl (by simp only; omega)
    simp only at hw
    have hsrcPos : (s.srcPos + BitVec.ofNat 64 chunk.length).toNat = s.srcPos.toNat + chunk.length := by
      rw [BitVec.toNat_add, BitVec.toNat_ofNat, Nat.add_mod_mod, Nat.mod_eq_of_lt (by omega)]
    by_cases hle : payload.length ≤ s.params.chunkSize
    · rw [if_pos hle] at hbuf
      rw [hbuf] at hw hst
      have hend : s.srcPos + BitVec.ofNat 64 chunk.length = s.srcSize := BitVec.eq_of_toNat_eq (by rw [hsrcPos]; omega)
      rw [hend] at hw hst
      cases hsc : scan s.dec s.cand (payloadBits s.params.chunkSize s.pad payload) with
      | mk out e =>
        rw [hsc] at hw
        cases e with
        | done rest =>
          simp only at hw ⊢
          rw [hw] at hst
          obtain ⟨f1, f2, f3, f4, -, -, f7, -, -, f10, f11, f12⟩ := walked_fields out [] rest
            { s with bitbuf := payloadBits s.params.chunkSize s.pad payload, srcPos := s.srcSize }
          refine ⟨2, by omega, ?_⟩
          rw [runSteps_succ 1 (hst.trans rfl), decode_end ⟨⟨f1.trans hrun.1.1, f2.trans hrun.1.2.1,
              f3.trans hrun.1.2.2⟩,
            by rw [f4]; exact hrun.2.1, by rw [f4]; exact hrun.2.2.1,
                by rw [f4]; exact hrun.2.2.2⟩ f10 (f12.trans f7.symm)]
          congr 2
          rw [walked, appended_nil]
          cases out <;> rfl
        | invalid =>
          simp only at hw ⊢
          obtain ⟨left, c, hw, -, h256⟩ := hw
          rw [hw] at hst
          exact ⟨1, left, c, s.srcSize, by omega, h256 hcand, by rw [runSteps_succ 0 (hst.trans rfl)]; rfl⟩
    · rw [if_neg hle] at hbuf
      rw [hbuf] at hw hst
      have hlc : chunk.length = s.params.chunkSize := by omega
      have hstep := payloadBits_step s.pad hc (Nat.lt_of_not_le hle)
      rw [htk] at hstep
      rw [hstep, scan_append]
      cases hsc : scan s.dec s.cand (Bit.unpack chunk) with
      | mk out e =>
        rw [hsc] at hw
        have hol := scan_length_le s.dec s.cand (Bit.unpack chunk)
        rw [hsc, Bit.unpack_length] at hol
        simp only at hol
        cases e with
        | invalid =>
          simp only at hw ⊢
          obtain ⟨left, c, hw, -, h256⟩ := hw
          rw [hw] at hst
          exact ⟨1, left, c, _, by omega, h256 hcand, by rw [runSteps_succ 0 (hst.trans rfl)]; rfl⟩
        | done rest =>
          simp only at hw ⊢
          rw [hw] at hst
          have hrest := scan_rest_length hcand hsc
          generalize hu : walked out [] rest { s with bitbuf := Bit.unpack chunk, srcPos := s.srcPos + BitVec.ofNat 64 chunk.length } = u at hst
          obtain ⟨f1, f2, f3, f4, f5, f6, f7, f8, f9, f10, f11, f12⟩ := walked_fields out [] rest
            { s with bitbuf := Bit.unpack chunk, srcPos := s.srcPos + BitVec.ofNat 64 chunk.length }
          rw [hu] at f1 f2 f3 f4 f5 f6 f7 f8 f9 f10 f11 f12
          simp only at f1 f2 f3 f4 f5 f6 f7 f8 f9 f10 f11 f12
          have hfo : Fits out s := fun _ => by omega
          have hup : u.snkPos.toNat = s.snkPos.toNat + out.length := by
            rw [← hu]
            exact Fits.snkPos (s := { s with bitbuf := [], cand := rest, srcPos := s.srcPos + BitVec.ofNat 64 chunk.length }) hfo
          have hdl : (payload.drop s.params.chunkSize).length = payload.length - s.params.chunkSize := List.length_drop
          have hi := ih (payload.drop s.params.chunkSize) u (by omega)
            ⟨⟨f1.trans hrun.1.1, f2.trans hrun.1.2.1, f3.trans hrun.1.2.2⟩, by rw [f4]; exact hrun.2.1,
                by rw [f4]; exact hrun.2.2.1, by rw [f4]; exact hrun.2.2.2⟩
            (by rw [f6]; exact hc) f10 (by rw [f11]; exact hrest) (by rw [f12, f7, hsrcPos]; omega)
            (fun k hk => by
              rw [f8, f12, hsrcPos, hlc, List.getElem_drop, Nat.add_assoc]
              exact hsrc _ (by omega))
            (by rw [hup]; omega)
          have hkey : scan u.dec u.cand (payloadBits u.params.chunkSize u.pad (payload.drop s.params.chunkSize)) =
              scan s.dec rest (payloadBits s.params.chunkSize s.pad (payload.drop s.params.chunkSize)) := by
            rw [f5, f11, f6, f9]
          rw [hkey] at hi
          have hlift : ∀ (out2 : List Symbol) (l c : Bits) (pos : BitVec 64),
              out2.length ≤ 8 * (payload.length - s.params.chunkSize) →
              walked out2 l c { u with srcPos := pos } = walked (out ++ out2) l c { s with srcPos := pos } := by
            intro out2 l c pos ho
            have h1 : ({ u with srcPos := pos } : State) = walked out [] rest { s with srcPos := pos } := by
              rw [← hu]; cases out <;> rfl
            rw [h1, walked_walked]
            intro _
            rw [List.length_append]; simp only; omega
          have hsl := scan_length_le s.dec rest (payloadBits s.params.chunkSize s.pad (payload.drop s.params.chunkSize))
          have hpl : (payloadBits s.params.chunkSize s.pad (payload.drop s.params.chunkSize)).length ≤ 8 * (payload.length - s.params.chunkSize) := by
            rw [payloadBits, List.length_take, Bit.unpack_length]; omega
          cases hsc2 : scan s.dec rest (payloadBits s.params.chunkSize s.pad (payload.drop s.params.chunkSize)) with
          | mk out2 e2 =>
            rw [hsc2] at hi hsl
            simp only at hsl
            cases e2 with
            | done rest2 =>
              simp only at hi ⊢
              obtain ⟨m, hm, hr⟩ := hi
              refine ⟨m + 1, by omega, ?_⟩
              rw [runSteps_succ m (hst.trans rfl), hr, hlift _ _ _ _ (by omega), f7]
            | invalid =>
              simp only at hi ⊢
              obtain ⟨m, left, c, pos, hm, h256, hr⟩ := hi
              refine ⟨m + 1, left, c, pos, by omega, h256, ?_⟩
              rw [runSteps_succ m (hst.trans rfl), hr, hlift _ _ _ _ (by omega)]

/-! ### A payload read back -/

/-- The walk over one code whose shorter prefixes are no keys (R211). -/
theorem scan_code {dec : DecTable} {b : Symbol} (c rest cand : Bits) (hl : (cand ++ c).length ≤ 255) (hne : c ≠ [])
    (hc : dec.lookup (cand ++ c) = some b) (hp : ∀ n,
        cand.length < n → n < (cand ++ c).length → dec.lookup ((cand ++ c).take n) = none) :
    scan dec cand (c ++ rest) = ParseEnd.cons b (scan dec [] rest) := by
  induction c generalizing cand with
  | nil => exact absurd rfl hne
  | cons x c ih =>
    have happ : cand ++ x :: c = (cand ++ [x]) ++ c := by simp
    rw [List.cons_append, scan]
    by_cases hcn : c = []
    · subst hcn; rw [hc]; rfl
    · have hpos := List.length_pos_iff.2 hcn
      have hlen : (cand ++ x :: c).length = cand.length + 1 + c.length := by simp; omega
      have hnone := hp (cand.length + 1) (by omega) (by omega)
      rw [happ, List.take_append_of_le_length (by simp), List.take_of_length_le (by simp)] at hnone
      rw [hnone]
      simp only
      rw [if_neg (by simp only [Config.maxLen, List.length_append, List.length_singleton]; omega)]
      exact ih (cand ++ [x]) (by rw [← happ]; exact hl) hcn (by rw [← happ]; exact hc) (fun n h5 h6 => by
        rw [← happ] at h6 ⊢
        exact hp n (by simp at h5; omega) h6)

/-- The walk over the codes of bytes gives the bytes back, where the table is the inverse of a prefix-free code (R137,
R211, R215). -/
theorem scan_payBits {code : RegFile 256 (Option Bits)} {dec : DecTable}
    (hd : ∀ c b, dec.lookup c = some b ↔ code.get (symIndex b) = some c)
    (h1 : ∀ b c, code.get (symIndex b) = some c → 1 ≤ c.length ∧ c.length ≤ 255)
    (hpf : ∀ b b' c c', code.get (symIndex b) = some c → code.get (symIndex b') = some c' → c <+: c' → b = b')
    (bs : List Byte) (hall : ∀ b ∈ bs, ∃ c, code.get (symIndex b) = some c) :
    scan dec [] (payBits code bs) = (bs, .done []) := by
  induction bs with
  | nil => rfl
  | cons b bs ih =>
    obtain ⟨c, hc⟩ := hall b (by simp)
    obtain ⟨hl1, hl2⟩ := h1 b c hc
    rw [payBits_cons, hc, Option.getD_some,
        scan_code c _ [] (by simpa using hl2) (by intro e; rw [e] at hl1; simp at hl1) (by simpa using (hd c b).2 hc),
      ih fun x hx => hall x (by simp [hx])]
    · rfl
    · intro n h3 h4
      rw [List.nil_append] at h4 ⊢
      cases hk : dec.lookup (c.take n) with
      | none => rfl
      | some b' =>
        have hk' := (hd _ _).1 hk
        have := hpf b' b _ _ hk' hc (List.take_prefix n c)
        subst this
        rw [hc] at hk'
        have := congrArg List.length (Option.some.inj hk')
        rw [List.length_take] at this
        omega

end Sys2Proof.Machine
end

