-- ==== Sys2Proof/Laws/SinkBytes.lean ====
section
/-! SUPPORT. No transition looks at the bytes of the sink (spec/20_memory.md rules R60, R75): each piece of pseudocode
run beside itself on a sink with other bytes. -/

namespace Sys2Proof.Machine

/-- Two ends of the same piece of pseudocode that differ in the sink's bytes only. -/
def Flow.Twin : Flow → Flow → Prop
  | .on s, .on t => ∃ m, t = { s with snk := m }
  | .raised s, .raised t => ∃ m, t = { s with snk := m }
  | .stuck a, .stuck b => a = b
  | _, _ => False

theorem Flow.Twin.andThen {f g : Flow} {k : State → Flow} (h : f.Twin g)
    (hk : ∀ s m, (k s).Twin (k { s with snk := m })) : (f.andThen k).Twin (g.andThen k) := by
  cases f <;> cases g <;> simp only [Flow.Twin] at h
  · obtain ⟨m, rfl⟩ := h; exact hk _ m
  · exact h
  · exact h

theorem Flow.Twin.withValue {α : Type} {r : Except Fault α} {k l : α → Flow} (h : ∀ a, (k a).Twin (l a)) :
    (withValue r k).Twin (withValue r l) := by
  cases r with
  | ok a => exact h a
  | error f => exact rfl

theorem Flow.Twin.of_on (s : State) (m : Memory) : (Flow.on s).Twin (.on { s with snk := m }) := ⟨m, rfl⟩

theorem memWrite_twin (a : Nat) (bs : List Byte) (s : State) (m : Memory) :
    (memWrite a bs s).Twin (memWrite a bs { s with snk := m }) := by
  unfold memWrite
  split
  · exact ⟨m, rfl⟩
  · split
    · exact ⟨_, rfl⟩
    · exact rfl

theorem writeSeq_twin (bs : List Byte) (s : State) (m : Memory) :
    (writeSeq bs s).Twin (writeSeq bs { s with snk := m }) :=
  (memWrite_twin _ bs s m).andThen fun _ m => ⟨m, rfl⟩

theorem readByte_sink (s : State) (m : Memory) (a : Nat) : readByte { s with snk := m } a = readByte s a := rfl

theorem memRead_sink (s : State) (m : Memory) (a n : Nat) : memRead { s with snk := m } a n = memRead s a n :=
  memRead_congr (s := s) (t := { s with snk := m }) ⟨rfl, rfl, rfl, rfl, rfl, rfl⟩ a n

theorem countBytes_twin (n : Nat) (s : State) (m : Memory) :
    (countBytes n s).Twin (countBytes n { s with snk := m }) := by
  induction n generalizing s with
  | zero => exact ⟨m, rfl⟩
  | succ n ih => exact Flow.Twin.withValue fun b => ih (countByte b s)

theorem addLeaves_sink (ws : List (BitVec 64)) (k : Nat) (s : State) (m : Memory) :
    addLeaves ws k { s with snk := m } = { addLeaves ws k s with snk := m } := by
  induction ws generalizing k s with
  | nil => rfl
  | cons w ws ih =>
    simp only [addLeaves]
    split
    · exact ih _ (addLeaf _ w s)
    · exact ih _ s

theorem combineLoop_sink (n : Nat) (s : State) (m : Memory) :
    combineLoop n { s with snk := m } = { combineLoop n s with snk := m } := by
  induction n generalizing s with
  | zero => rfl
  | succ n ih =>
    simp only [combineLoop]
    split
    · rfl
    split
    · rfl
    · next a _ _ b _ => exact ih (combine a b { s with pq := (s.pq.erase a).erase b })

theorem buildTree_sink (s : State) (m : Memory) : buildTree { s with snk := m } = { buildTree s with snk := m } := by
  have h := addLeaves_sink s.freq.cells 0 { s with nnodes := 0, pq := [] } m
  have h1 : buildLeaves { s with snk := m } = { buildLeaves s with snk := m } := by
    simp only [buildLeaves]
    exact congrArg countLeaves h
  rw [buildTree, h1, combineLoop_sink]; rfl

theorem setCode_twin (i : NodeId) (c : Bits) (s : State) (m : Memory) :
    (setCode i c s).Twin (setCode i c { s with snk := m }) := by
  unfold setCode
  have : nodeAt { s with snk := m } i = nodeAt s i := rfl
  rw [this]
  split
  · exact ⟨m, rfl⟩
  · exact rfl

theorem codeLeaves_twin (n i : Nat) (s : State) (m : Memory) :
    (codeLeaves n i s).Twin (codeLeaves n i { s with snk := m }) := by
  induction n generalizing i s m with
  | zero => exact ⟨m, rfl⟩
  | succ n ih => exact Flow.Twin.withValue fun c => (setCode_twin _ c s m).andThen fun t m => ih _ t m

theorem generateCodes_twin (s : State) (m : Memory) : (generateCodes s).Twin (generateCodes { s with snk := m }) := by
  unfold generateCodes
  simp only
  split
  · exact setCode_twin _ _ (clearCodes s) m
  · exact codeLeaves_twin _ _ (clearCodes s) m

theorem makeTree_twin (s : State) (m : Memory) : (makeTree s).Twin (makeTree { s with snk := m }) := by
  refine Flow.Twin.andThen ?_ fun _ m => ⟨m, rfl⟩
  rw [buildTree_sink s m]
  exact generateCodes_twin _ m

theorem writeEntries_sink (cs : List (Option Bits)) (k : Nat) (s : State) (m : Memory) :
    writeEntries cs k { s with snk := m } = { writeEntries cs k s with snk := m } := by
  rw [writeEntries_eq, writeEntries_eq]

theorem writeHeader_twin (s : State) (m : Memory) : (writeHeader s).Twin (writeHeader { s with snk := m }) := by
  refine Flow.Twin.andThen ((memWrite_twin _ _ s m).andThen fun _ m => ⟨m, rfl⟩) fun s m => ?_
  refine Flow.Twin.andThen ?_ fun s m => ?_
  · rw [serialiseTable_eq, serialiseTable_eq]
    exact (memWrite_twin _ _ (drainBuffer true _) m).andThen fun _ m => ⟨m, rfl⟩
  · unfold patchTableLength
    exact (memWrite_twin _ _ { s with tlen := s.hbits } m).andThen fun _ m => ⟨m, rfl⟩

theorem encodeStep_twin (s : State) (m : Memory) : (encodeStep s).Twin (encodeStep { s with snk := m }) := by
  refine Flow.Twin.withValue fun b => ?_
  unfold encodeByte
  have : codeOf { s with snk := m, srcPos := s.srcPos + 1 } b = codeOf { s with srcPos := s.srcPos + 1 } b := rfl
  simp only [this]
  split
  · exact ⟨m, rfl⟩
  · next c _ =>
    rw [emitCode_eq, emitCode_eq]
    simp only
    split
    · exact writeSeq_twin _ { s with srcPos := s.srcPos + 1, bitbuf := drainedRest false (s.bitbuf ++ c) } m
    · exact ⟨m, rfl⟩

theorem flushPayload_twin (s : State) (m : Memory) : (flushPayload s).Twin (flushPayload { s with snk := m }) := by
  refine (writeSeq_twin _ (drainBuffer true s) m).andThen fun t m => ?_
  exact (memWrite_twin _ _ { t with pad := _ } m).andThen fun _ m => ⟨m, rfl⟩

theorem takeEntry_twin (b : Symbol) (n : Nat) (c : Bits) (s : State) (m : Memory) :
    (takeEntry b n c s).Twin (takeEntry b n c { s with snk := m }) := by
  unfold takeEntry
  simp only
  split <;> exact ⟨m, rfl⟩

theorem readEntries_twin (tbl : Bits) (n : Nat) (s : State) (m : Memory) :
    (readEntries tbl n s).Twin (readEntries tbl n { s with snk := m }) := by
  induction n generalizing s m with
  | zero => exact ⟨m, rfl⟩
  | succ n ih =>
    rw [readEntries, readEntries]
    simp only
    split
    · refine Flow.Twin.andThen ?_ fun s m => ih s m
      unfold readEntry
      simp only
      split
      · exact ⟨m, rfl⟩
      · exact takeEntry_twin _ _ _ s m
    · exact ⟨m, rfl⟩

theorem readHeader_twin (s : State) (m : Memory) : (readHeader s).Twin (readHeader { s with snk := m }) := by
  refine Flow.Twin.andThen ?_ fun s m => ?_
  · unfold readFixed
    simp only
    split
    · exact ⟨m, rfl⟩
    · refine Flow.Twin.withValue fun p => ?_
      rw [memRead_sink s m]
      exact Flow.Twin.withValue fun t => ⟨m, rfl⟩
  · rw [readTable, readTable, readTableOf, readTableOf]
    simp only
    split
    · exact ⟨m, rfl⟩
    · rw [memRead_sink s m]
      refine Flow.Twin.withValue fun bs => ?_
      refine Flow.Twin.andThen ?_ fun _ m => ⟨m, rfl⟩
      simp only [readTableBytes, appendBytes_eq]
      exact readEntries_twin _ _ (startTable _) m

theorem walkBit_twin (b : Bool) (s : State) (m : Memory) : (walkBit b s).Twin (walkBit b { s with snk := m }) := by
  rw [walkBit_eq, walkBit_eq]
  simp only
  split
  · exact (writeSeq_twin _ { s with cand := s.cand ++ [b] } m).andThen fun _ m => ⟨m, rfl⟩
  · split <;> exact ⟨m, rfl⟩

theorem walkBits_twin (bits : Bits) (s : State) (m : Memory) :
    (walkBits bits s).Twin (walkBits bits { s with snk := m }) := by
  induction bits generalizing s m with
  | nil => exact ⟨m, rfl⟩
  | cons b bits ih => exact (walkBit_twin b { s with bitbuf := bits } m).andThen fun s m => ih s m

theorem decodeChunk_twin (s : State) (m : Memory) : (decodeChunk s).Twin (decodeChunk { s with snk := m }) := by
  rw [decodeChunk_eq, decodeChunk_eq]
  have : chunkBytes { s with snk := m } = chunkBytes s := rfl
  rw [this, memRead_sink s m]
  exact Flow.Twin.withValue fun bytes => walkBits_twin _ { s with bitbuf := _, srcPos := _ } m

/-- No transition looks at the sink's bytes (R60, R75 (d)). -/
theorem engineTransition_twin (s : State) (m : Memory) :
    (engineTransition s).Twin (engineTransition { s with snk := m }) := by
  unfold engineTransition
  simp only
  split
  · unfold decoderTransition
    simp only
    split
    · exact (readHeader_twin s m).andThen fun _ m => ⟨m, rfl⟩
    split
    · exact ⟨m, rfl⟩
    split
    · split
      · exact decodeChunk_twin s m
      split
      · exact ⟨m, rfl⟩
      · exact rfl
    · exact rfl
  · unfold encoderTransition
    simp only
    split
    · exact (countBytes_twin _ { s with srcPos := 0 } m).andThen fun _ m => ⟨m, rfl⟩
    split
    · exact makeTree_twin s m
    split
    · exact (writeHeader_twin s m).andThen fun _ m => ⟨m, rfl⟩
    split
    · exact ⟨m, rfl⟩
    split
    · split
      · exact encodeStep_twin s m
      split
      · exact flushPayload_twin s m
      · exact rfl
    · exact rfl

end Sys2Proof.Machine
end

