-- ==== Sys2Proof/Tests/Slice0.lean ====
section
/-! SUPPORT. The model's own tests. Every expected value is from the spec: the encodings of spec/30_encoding.md, the vectors
of spec/95_test_vectors.md (named V<n>), or the rule named. The witnesses show, for each statement of
Certificates/Slice0/Obligations.lean that has hypotheses, a state and operands that meet all of them together. -/

namespace Sys2Proof.Tests

open Sys2Proof.Machine

/-! ### Small states -/

/-- An idle engine with a source of these bytes (R264). -/
def onSource (source : List Byte) : State :=
  { State.reset with src := cellsFrom 0 source, srcSize := BitVec.ofNat 64 source.length }

/-- A command running in a phase, on a source of these bytes, with the engine alone. -/
def runningOn (mode : Bool) (phase : BitVec 4) (source : List Byte) : State :=
  { onSource source with status := { phase := phase, mode := mode, busy := true, done := false, fail := false } }

/-- An idle engine with the counters of a source (R173). -/
def counted (source : List Byte) : State := { State.reset with freq := countsOf source }

/-- The tree of `41 42` (V13). -/
def tree13 : State := buildTree (counted [0x41, 0x42])

/-- An idle engine with one code, `"0"` for `0x41` (V22). -/
def oneCode : State := { State.reset with code := (RegFile.fill 256 none).set 0x41 (some [false]) }

/-- ENCODE in the phase `Encoding` on the byte `41`, with its code and a header in the sink. -/
def encoding22 : State :=
  { runningOn false 4 [0x41] with code := oneCode.code, snkPos := 8, snkSize := 8, payloadOff := 8 }

/-- DECODE in the phase `Decoding` with the table of V22 and nothing left of its source. -/
def decoding22 : State := { runningOn true 2 [] with dec := [([false], 0x41)] }

/-- One reading of the state after an outcome. -/
def after {α : Type} (r : Host.Outcome State Fault Refusal) (f : State → α) : Option α :=
  match r with
  | .next s => some (f s)
  | .fault _ => none
  | .refused _ => none

def defaults : Params := { chunkSize := 1, flushThreshold := 0 }

/-! ### WellFormed: each check refuses an ill-formed term (R90, R97) -/

theorem test_wf_entry_code_too_long : (Instr.ent 0x41 (Bit.zeros 256)).wf = false := by decide +kernel
theorem test_wf_entry_code_longest : (Instr.ent 0x41 (Bit.zeros 255)).wf = true := by decide +kernel
theorem test_wf_payload_code_empty : (Instr.cod []).wf = false := by decide
theorem test_wf_payload_code_too_long : (Instr.cod (Bit.zeros 256)).wf = false := by decide +kernel

/-! ### Decode: words written out from the spec's encodings, and what is rejected by name -/

/-- `00000001` (R91). -/
theorem test_decode_encode : decode .cmd [false, false, false, false, false, false, false, true] = .ok .encode := by rfl

/-- `00000010` (R91). -/
theorem test_decode_decode : decode .cmd [false, false, false, false, false, false, true, false] = .ok .decode := by rfl

/-- R103: every other word is reserved. -/
theorem test_decode_reserved : decodeBytes .cmd [0x00] = .error .reservedCommand ∧
    decodeBytes .cmd [0x03] = .error .reservedCommand ∧ decodeBytes .cmd [0xff] = .error .reservedCommand :=
  ⟨by rfl, by rfl, by rfl⟩

/-- Label `00010000` with the operand bytes of 421 = `0x1A5`, low byte first (assumption 3). -/
theorem test_decode_appendByte : decode .uop ([false, false, false, true, false, false, false, false] ++
    [true, false, true, false, false, true, false, true] ++ [false, false, false, false, false, false, false, true]) =
    .ok (.appendByte 421) := by rfl

theorem test_decode_drainBytes : decode .uop ([false, false, false, true, false, false, false, true] ++
    [false, false, false, false, false, false, false, true]) = .ok (.drainBytes true) := by rfl

theorem test_decode_buildTree : decode .uop [false, false, true, false, false, false, false, false] = .ok .buildTree := by
  rfl

theorem test_decode_generateCodes :
    decode .uop [false, false, true, false, false, false, false, true] = .ok .generateCodes := by rfl

theorem test_decode_writeHeader :
    decode .uop [false, false, true, true, false, false, false, false] = .ok .writeHeader := by rfl

theorem test_decode_readHeader :
    decode .uop [false, false, true, true, false, false, false, true] = .ok .readHeader := by rfl

theorem test_decode_unknown_label : decodeBytes .uop [0x12] = .error .unknownLabel := by rfl

/-- `06 22 00 00 00`, the fixed fields of V30; `00 00 18 00 00`, those of V39. -/
theorem test_decode_hdr : decodeBytes .hdr [0x06, 0x22, 0x00, 0x00, 0x00] = .ok (.hdr 6 34) ∧
    decodeBytes .hdr [0x00, 0x00, 0x18, 0x00, 0x00] = .ok (.hdr 0 6144) := ⟨by rfl, by rfl⟩

theorem test_decode_hdr_short : decodeBytes .hdr [0x06, 0x22, 0x00, 0x00] = .error .tooShort := by rfl

/-- `01100010 00000011 110`, the second entry of V21, with the third behind it. -/
theorem test_decode_ent : decodeRest .ent ([false, true, true, false, false, false, true, false] ++
    [false, false, false, false, false, false, true, true] ++ [true, true, false] ++ Bit.bits8 0x63) =
    .ok (.ent 0x62 [true, true, false], Bit.bits8 0x63) := by rfl

/-- V29 (d): `L = 9` with 8 bits left. -/
theorem test_decode_ent_truncated : decodeBytes .ent [0x41, 0x09, 0x00] = .error .entryTruncated := by rfl

theorem test_decode_cod : decode .cod [true, false, true] = .ok (.cod [true, false, true]) := by rfl

theorem test_decode_cod_empty : decode .cod [] = .error .badCodeLength := by rfl

/-- The table words: `0x01` is ENCODE, `0x30` writeHeader, `0x0000002206` the fixed fields of V30. -/
theorem test_table_words : decodeTableWord 8 0x01 = some .encode ∧ decodeTableWord 8 0x30 = some .writeHeader ∧
    decodeTableWord 8 0x03 = none ∧ decodeTableWord 40 0x0000002206 = some (.hdr 6 34) := by decide +kernel

/-! ### One small step of each operation -/

/-- R171. -/
theorem test_encode_starts : after (exec .encode (onSource [0x41])) (fun s => s.status.toByte) = some 0x20 ∧
    exec .encode (runningOn false 0 []) = .refused .commandWhileBusy := ⟨by rfl, by rfl⟩

/-- R201. -/
theorem test_decode_starts : after (exec .decode (onSource [0x41])) (fun s => s.status.toByte) = some 0x30 ∧
    exec .decode { State.reset with params := { chunkSize := 0, flushThreshold := 0 } } = .refused .zeroChunkSize :=
  ⟨by rfl, by rfl⟩

/-- V2. -/
theorem test_appendByte : after (exec (.appendByte 0xa5) { State.reset with bitbuf := [true, true, false] })
    (fun s => s.bitbuf) = some [true, true, false, true, false, true, false, false, true, false, true] := by rfl

/-- V7. -/
theorem test_appendByte_modulo : after (exec (.appendByte 421) { State.reset with bitbuf := [true] })
    (fun s => s.bitbuf) = some [true, true, false, true, false, false, true, false, true] := by rfl

/-- V9a. -/
theorem test_drainBytes : after (exec (.drainBytes false) { State.reset with bitbuf := Bit.bits8 0xa5 ++ [true, true, false] })
    (fun s => (s.drained, s.bitbuf)) = some ([0xa5], [true, true, false]) := by rfl

/-- V9b. -/
theorem test_drainBytes_flush : after (exec (.drainBytes true) { State.reset with bitbuf := [true, true, false] })
    (fun s => (s.drained, s.bitbuf)) = some ([0xc0], []) := by rfl

/-- V13. -/
theorem test_buildTree : after (exec .buildTree (counted [0x41, 0x42]))
    (fun s => (s.nleaf, s.nnodes, s.root, nodeAt s 2)) =
    some (2, 3, some 2, { weight := 2, sym := none, parent := none, left := some 0, right := some 1 }) := by decide +kernel

/-- V14: the whole shape of "abracadabra", inner nodes 5 to 8. -/
theorem test_buildTree_deep : after (exec .buildTree
      (counted [0x61, 0x62, 0x72, 0x61, 0x63, 0x61, 0x64, 0x61, 0x62, 0x72, 0x61]))
    (fun s => (s.root, [5, 6, 7, 8].map fun i => ((nodeAt s i).weight, (nodeAt s i).left, (nodeAt s i).right))) =
    some (some 8, [(2, some 2, some 3), (4, some 1, some 4), (6, some 5, some 6), (11, some 0, some 7)]) := by
  decide +kernel

/-- V13b: the lighter leaf comes first. -/
theorem test_generateCodes : after (exec .generateCodes (buildTree (counted [0x41, 0x41, 0x42])))
    (fun s => (codeOf s 0x41, codeOf s 0x42, codeOf s 0x43)) = some (some [true], some [false], none) := by decide +kernel

/-- V12: a lone symbol has the code `"0"`. -/
theorem test_generateCodes_one : after (exec .generateCodes (buildTree (counted [0x41, 0x41, 0x41, 0x41])))
    (fun s => codeOf s 0x41) = some (some [false]) := by decide +kernel

/-- V22. -/
theorem test_writeHeader : after (exec .writeHeader oneCode) (fun s => (sinkImage s, s.tlen, s.payloadOff)) =
    some (some [0x00, 0x11, 0x00, 0x00, 0x00, 0x41, 0x01, 0x00], 17, 8) := by decide +kernel

/-- V20. -/
theorem test_writeHeader_empty : after (exec .writeHeader State.reset) (fun s => (sinkImage s, s.tlen, s.snkPos)) =
    some (some [0x00, 0x00, 0x00, 0x00, 0x00], 0, 5) := by decide +kernel

/-- V27, row 2: the later symbol replaces the earlier. -/
theorem test_readHeader : after (exec .readHeader
      (onSource [0x00, 0x22, 0x00, 0x00, 0x00, 0x41, 0x01, 0x21, 0x00, 0x80]))
    (fun s => (s.tlen, s.dec, s.payloadOff, s.err)) = some (34, [([false], 0x42)], 10, 0) := by decide +kernel

/-- V29, sixth row: `DEC` at the raise. -/
theorem test_readHeader_malformed : after (exec .readHeader
      (onSource [0x00, 0x12, 0x00, 0x00, 0x00, 0x41, 0x01, 0x00]))
    (fun s => (s.err, s.dec, s.hbits)) = some (1, [([false], 0x41)], 17) := by decide +kernel

/-- R92. -/
theorem test_hdr : after (exec (.hdr 6 34) State.reset) (fun s => (s.pad, s.tlen)) = some (6, 34) := by rfl

/-- R158: the entry that ends at `T`, and the same with `T` one bit less (V29 (d), last row). -/
theorem test_ent : after (exec (.ent 0x42 [true]) { State.reset with tlen := 34, hbits := 17 }) (fun s => (s.dec, s.hbits)) =
      some ([([true], 0x42)], 34) ∧
    after (exec (.ent 0x42 [true]) { State.reset with tlen := 33, hbits := 17 }) (fun s => (s.err, s.hbits)) =
      some (1, 17) := ⟨by rfl, by rfl⟩

/-- R211: a match writes the symbol; V53: no match keeps the candidate. -/
theorem test_cod : after (exec (.cod [false]) { State.reset with dec := [([false], 0x41)] }) (fun s => (s.snk, s.cand)) =
      some ([(0, 0x41)], []) ∧
    after (exec (.cod [true]) { State.reset with dec := [([false], 0x41)] }) (fun s => (s.snk, s.cand)) =
      some ([], [true]) := ⟨by rfl, by rfl⟩

/-- V30 and V40, end to end. -/
theorem test_encode_run : encodeOf defaults [0x41, 0x42] =
    .value [0x06, 0x22, 0x00, 0x00, 0x00, 0x41, 0x01, 0x21, 0x00, 0xc0, 0x40] := by decide +kernel
theorem test_decode_run : decodeOf defaults [0x06, 0x22, 0x00, 0x00, 0x00, 0x41, 0x01, 0x21, 0x00, 0xc0, 0x40] =
    .value [0x41, 0x42] := by decide +kernel

/-- V55g: `PAD = 9` is the one place where `CHUNK_SIZE` shows. -/
theorem test_chunk_size_shows : decodeOf defaults [0x09, 0x11, 0x00, 0x00, 0x00, 0x41, 0x01, 0x00, 0x00, 0x00] =
      .value (List.replicate 8 0x41) ∧
    decodeOf { chunkSize := 2, flushThreshold := 0 } [0x09, 0x11, 0x00, 0x00, 0x00, 0x41, 0x01, 0x00, 0x00, 0x00] =
      .value (List.replicate 7 0x41) := by decide +kernel

/-! ### Witnesses of the hypotheses: encodings -/

theorem witness_EntryFieldsFollowOneAnother : (Bit.zeros 255).length ≤ 255 ∧
    ∀ b c, oneCode.code.get (symIndex b) = some c → c.length ≤ 255 := by
  refine ⟨by decide +kernel, fun b c h => ?_⟩
  rw [oneCode, RegFile.get_set] at h
  split at h
  · cases h; decide
  · rw [RegFile.get_fill] at h; cases h

theorem witness_DecodeInvertsEncode : (Instr.ent 0xff (Bit.zeros 255)).wf = true ∧ (Instr.ent 0x00 []).wf = true ∧
    (Instr.cod [true]).wf = true ∧ (Instr.cod (Bit.zeros 255)).wf = true := by decide +kernel

/-! ### Witnesses: the step, the commands and the host -/

theorem witness_StepRunsTheDecodedOperation :
    (({ State.reset with cmd := some 0x02 } : State).cmd = some 0x02 ∧ decode .cmd (Bit.bits8 0x02) = .ok .decode) ∧
    ((State.reset.withFetchWord 8 0x20).cmd = none ∧
      (State.reset.withFetchWord 8 0x20).issue.map (fun u => u.format) = some .uop) ∧
    (∃ ms, (session defaults [] 0x01).host = .provideSource [] :: ms) ∧
    (({ State.reset with host := [.command 0x01] } : State).cmd = none ∧
      ({ State.reset with host := [.command 0x01] } : State).issue = none ∧
      ({ State.reset with host := [.command 0x01] } : State).host = .command 0x01 :: [] ∧
      decode .cmd (Bit.bits8 0x01) = .ok .encode) ∧
    EngineAlone State.reset :=
  ⟨⟨rfl, rfl⟩, ⟨rfl, rfl⟩, ⟨_, rfl⟩, ⟨rfl, rfl, rfl, rfl⟩, ⟨rfl, rfl, rfl⟩⟩

/-- An issued operation that decodes. -/
theorem witness_issue : decode .uop (Bit.unpack [0x20]) = .ok .buildTree := by rfl

/-- The words 1, 2, and on both sides of them 0 and 3; while a command runs, too. -/
theorem witness_CommandWriteStartsOrIsRefused :
    (({ State.reset with cmd := some 0x01 } : State).cmd = some 0x01 ∧
      ({ State.reset with cmd := some 0x02 } : State).cmd = some 0x02) ∧
    ((0x00 : Byte) ≠ 0x01 ∧ (0x00 : Byte) ≠ 0x02 ∧ (0x03 : Byte) ≠ 0x01 ∧ (0x03 : Byte) ≠ 0x02) ∧
    ({ runningOn false 0 [] with cmd := some 0x01 } : State).status.busy = true ∧
    after (step { State.reset with cmd := some 0x01 }) (fun t => t.cmd) = some none := by
  refine ⟨⟨rfl, rfl⟩, by decide, rfl, rfl⟩

/-- `2^56 - 1` and `2^56`, `CHUNK_SIZE` 0 and 1. -/
theorem witness_EncodeStartsUnlessRefused_DecodeStartsUnlessRefused :
    (runningOn false 0 []).status.busy = true ∧ State.reset.status.busy = false ∧
    ¬ 2 ^ 56 ≤ (BitVec.ofNat 64 (2 ^ 56 - 1)).toNat ∧ 2 ^ 56 ≤ (BitVec.ofNat 64 (2 ^ 56)).toNat ∧
    defaults.chunkSize = 1 ∧ ({ chunkSize := 0, flushThreshold := 0 } : Params).chunkSize = 0 := by decide

/-- An engine an earlier command left, and a new one. -/
theorem witness_EarlierCommandsHaveNoPart : SameHostSide State.reset { State.reset with pad := 6, bitbuf := [true] } ∧
    exec .encode State.reset = .next (startCommand false State.reset) ∧
    exec .encode { State.reset with pad := 6, bitbuf := [true] } =
      .next (startCommand false { State.reset with pad := 6, bitbuf := [true] }) :=
  ⟨⟨rfl, rfl, rfl, rfl⟩, rfl, rfl⟩

/-- A reset in the idle engine, and one in the transition that writes the symbol of V22. -/
theorem witness_ResetMayCutATransitionShort :
    ({ State.reset with host := [.reset 0] } : State).status.busy = false ∧
    ({ decoding22 with host := [.reset 1], srcSize := 1, src := [(0, 0x00)] } : State).status.busy = true ∧
    after (engineMove { decoding22 with host := [], srcSize := 1, src := [(0, 0x00)] }) (fun u => u.journal.length) =
      some 8 := ⟨rfl, rfl, by rfl⟩

/-- Busy and idle; DECODE, and ENCODE in the phases 0 to 4; the last offset. -/
theorem witness_HostBreachesAreRefused :
    (runningOn true 2 []).status.busy = true ∧ (runningOn true 2 []).status.mode = true ∧
    (runningOn false 0 []).status.phase = 0 ∧ (runningOn false 4 []).status.phase = 4 ∧
    State.reset.status.busy = false ∧ (runningOn false 1 []).status.mode = false ∧
    (runningOn false 1 []).status.phase = 1 ∧ (runningOn false 2 []).status.phase = 2 ∧
    (runningOn false 3 []).status.phase = 3 ∧ 2 ^ 64 - 1 < 2 ^ 64 := by decide

theorem witness_AnEndedCommandStaysEnded : EngineAlone State.reset ∧ State.reset.status.busy = false :=
  ⟨⟨rfl, rfl, rfl⟩, rfl⟩

/-! ### Witnesses: BitPacker -/

theorem witness_AppendAndDrainAreInverse : State.reset.bitbuf = [] ∧
    exec (.drainBytes true) { State.reset with bitbuf := [true] } =
      .next { State.reset with bitbuf := [], drained := [0x80] } ∧
    exec (.drainBytes false) { State.reset with bitbuf := [true] } = .next { State.reset with bitbuf := [true] } :=
  ⟨rfl, rfl, rfl⟩

/-- The flushing and the plain drain; 7 and 8 bits, where a byte more comes. -/
theorem witness_DrainBytesPacksFromTheFront : drainedBytes true (Bit.zeros 7) = [0x00] ∧
    drainedBytes false (Bit.zeros 7) = [] ∧ drainedBytes false (Bit.zeros 8) = [0x00] := by decide

/-! ### Witnesses: CodeTree -/

/-- The numbers of symbols 0, 1 and 2 (V11, V12, V13). -/
theorem witness_occurring : (occurring (countsOf [])).length = 0 ∧ (occurring (countsOf [0x41, 0x41])).length = 1 ∧
    (occurring (countsOf [0x41, 0x42])) = [0x41, 0x42] := by
  rw [occurring_length, occurring_length, ← present_fst]
  decide +kernel

theorem witness_tree : exec .buildTree (counted [0x41, 0x42]) = .next tree13 := rfl

/-- The first and the last leaf, the inner node, their places in the tree (V13). -/
theorem witness_tree_nodes : tree13.nnodes.toNat = 3 ∧ tree13.nleaf.toNat = 2 ∧ tree13.root = some 2 ∧
    (nodeAt tree13 0).parent = some 2 ∧ (nodeAt tree13 1).parent = some 2 ∧ (nodeAt tree13 2).left = some 0 ∧
    (nodeAt tree13 2).right = some 1 := by decide +kernel

/-- V13c: when node 3 joins 0 and 1, node 2 has no parent yet. -/
theorem witness_EachInnerNodeJoinsTheTwoLowest :
    (nodeAt (buildTree (counted [0x41, 0x42, 0x43])) 3).left = some 0 ∧
    (nodeAt (buildTree (counted [0x41, 0x42, 0x43])) 3).right = some 1 ∧
    (nodeAt (buildTree (counted [0x41, 0x42, 0x43])) 2).parent = some 4 ∧ (2 : NodeId) < 3 ∧ (3 : NodeId) < 4 := by
  decide +kernel

theorem witness_InnerNodesComeInOrderOfWeight :
    ((counted [0x41, 0x42]).freq.cells.map BitVec.toNat).sum < 2 ^ 64 := by decide +kernel

/-- The arena of V12: one leaf without a parent; and two nodes of which the first is the child of the second. -/
theorem witness_GenerateCodesCompletes : ∃ s : State, s.nleaf = 1 ∧ (nodeAt s 0).parent = some 1 ∧
    (∀ i p : NodeId, (nodeAt s i).parent = some p → i < p) ∧
    ∀ i : NodeId, i.val < s.nleaf.toNat → (nodeAt s i).sym.isSome = true := by
  refine ⟨{ State.reset with
    nleaf := 1
    node := (RegFile.fill 511 Node.blank).set 0
      { weight := 4, sym := some 0x41, parent := some 1, left := none, right := none } }, rfl, rfl, ?_, ?_⟩
  · intro i p h
    simp only [nodeAt, RegFile.get_set] at h
    split at h
    · next e => subst e; cases h; decide
    · rw [RegFile.get_fill] at h; cases h
  · intro i h
    have : i = 0 := Fin.ext (by simpa using h)
    subst this; rfl

/-- The state after both operations on the counters of `41 42`. -/
def coded13 : State := { tree13 with code := codesOf (countsOf [0x41, 0x42]) }

theorem witness_CodedFrom : CodedFrom (counted [0x41, 0x42]) coded13 ∧ codeOf coded13 0x41 = some [false] ∧
    codeOf coded13 0x42 = some [true] ∧ (Bit.zeros 255).length = 255 := by
  refine ⟨⟨tree13, rfl, ?_⟩, by decide +kernel, by decide +kernel, by decide +kernel⟩
  show (generateCodes (buildTree (counted [0x41, 0x42]))).outcome = _
  rw [(makeCodes_spec (counted [0x41, 0x42])).1]
  rfl

/-- V12: a lone symbol. -/
theorem witness_CodedFrom_one : CodedFrom (counted [0x41])
    { buildTree (counted [0x41]) with code := codesOf (countsOf [0x41]) } := by
  refine ⟨buildTree (counted [0x41]), rfl, ?_⟩
  show (generateCodes (buildTree (counted [0x41]))).outcome = _
  rw [(makeCodes_spec (counted [0x41])).1]
  rfl

/-- Two engines with the same counters that hold different things. -/
theorem witness_CodesAreAFunctionOfTheCounters :
    (counted [0x41, 0x42]).freq = ({ counted [0x41, 0x42] with pad := 1 } : State).freq ∧
    CodedFrom { counted [0x41, 0x42] with pad := 1 }
      { buildTree { counted [0x41, 0x42] with pad := 1 } with code := codesOf (countsOf [0x41, 0x42]) } := by
  refine ⟨rfl, buildTree { counted [0x41, 0x42] with pad := 1 }, rfl, ?_⟩
  show (generateCodes (buildTree { counted [0x41, 0x42] with pad := 1 })).outcome = _
  rw [(makeCodes_spec { counted [0x41, 0x42] with pad := 1 }).1]
  rfl

/-! ### Witnesses: ContainerFormat and its records -/

theorem witness_WriteHeaderLaysOutTheHeader : oneCode.bitbuf = [] ∧ oneCode.snkPos = 0 ∧ oneCode.snkSize = 0 ∧
    ∀ b c, codeOf oneCode b = some c → 1 ≤ c.length ∧ c.length ≤ 255 := by
  refine ⟨rfl, rfl, rfl, fun b c h => ?_⟩
  unfold codeOf at h
  rw [oneCode, RegFile.get_set] at h
  split at h
  · cases h; decide
  · rw [RegFile.get_fill] at h; cases h

/-- V26: one entry, fill bits that are not zero. -/
theorem witness_ReadHeaderTakesAnyEntries :
    (17 : BitVec 32).toNat = (entriesBits [(0x41, [false])]).length ∧
    [(0x41 : Byte), 0x01, 0x7f].length = ((17 : BitVec 32).toNat + 7) / 8 ∧
    (Bit.unpack [(0x41 : Byte), 0x01, 0x7f]).take 17 = entriesBits [(0x41, [false])] ∧
    SourceStarts (onSource [0x04, 0x11, 0x00, 0x00, 0x00, 0x41, 0x01, 0x7f, 0x00])
      (0x04 :: Bit.le32 17 ++ [0x41, 0x01, 0x7f]) := by
  refine ⟨by decide, by decide, by decide, by decide, ?_⟩
  intro k hk
  have hk' : k < 8 := hk
  have : ∀ k : Fin 8, (onSource [0x04, 0x11, 0x00, 0x00, 0x00, 0x41, 0x01, 0x7f, 0x00]).src.read k.val =
      (0x04 :: Bit.le32 17 ++ [0x41, 0x01, 0x7f])[k.val]? := by decide
  have h := this ⟨k, hk'⟩
  simp only at h
  rw [h, List.getElem?_eq_getElem hk]

theorem sourceProvided_onSource {source : List Byte} (h : source.length < 2 ^ 64) : SourceProvided (onSource source) := by
  intro a ha
  have h1 := started_source defaults source false h
  have h2 : (onSource source).src = (started defaults source false).src := rfl
  have h3 : (onSource source).srcSize = (started defaults source false).srcSize := rfl
  rw [h3, h1.1] at ha
  rw [h2, h1.2 a ha]; rfl

/-- The empty source (V29, first row) and the shortest header (V24). -/
theorem witness_ReadHeaderRaisesOnlyOnMalformedHeaders : SourceProvided (onSource []) ∧
    SourceProvided (onSource [0x00, 0x00, 0x00, 0x00, 0x00]) ∧ State.reset.status.fail = false :=
  ⟨sourceProvided_onSource (by decide), sourceProvided_onSource (by decide), rfl⟩

/-- The four cases of R231 with their rows of V29 and V56: (a) row 2, (b) row 3, (c) row 6, (d) row 7. -/
theorem witness_HeaderErrorLeft :
    after (exec .readHeader (onSource [0x00, 0x00, 0x00, 0x00])) (fun t => (t.err, t.tlen, t.srcPos)) = some (1, 0, 0) ∧
    after (exec .readHeader (onSource [0x00, 0x11, 0x00, 0x00, 0x00, 0x41, 0x01])) (fun t => (t.err, t.tlen, t.hbits)) =
      some (1, 17, 0) ∧
    after (exec .readHeader (onSource [0x00, 0x12, 0x00, 0x00, 0x00, 0x41, 0x01, 0x00]))
      (fun t => (t.err, t.hbits, t.dec)) = some (1, 17, [([false], 0x41)]) ∧
    after (exec .readHeader (onSource [0x00, 0x18, 0x00, 0x00, 0x00, 0x41, 0x09, 0x00]))
      (fun t => (t.err, t.hbits, t.payloadOff)) = some (1, 0, 0) := by decide +kernel

/-- V22 read back from a source that is exactly the header. -/
theorem witness_ReadHeaderInvertsWriteHeader : exec .writeHeader oneCode = .next (headerWritten oneCode) ∧
    (headerWritten oneCode).payloadOff.toNat ≤
      (onSource [0x00, 0x11, 0x00, 0x00, 0x00, 0x41, 0x01, 0x00]).srcSize.toNat ∧
    (∀ k, k < (headerWritten oneCode).payloadOff.toNat →
      (onSource [0x00, 0x11, 0x00, 0x00, 0x00, 0x41, 0x01, 0x00]).src.read k = (headerWritten oneCode).snk.read k) ∧
    ∀ b b' c, codeOf oneCode b = some c → codeOf oneCode b' = some c → b = b' := by
  have hp : (headerWritten oneCode).payloadOff.toNat = 8 := by decide +kernel
  refine ⟨?_, by decide +kernel, fun k hk => ?_, fun b b' c h h' => ?_⟩
  · show (writeHeader oneCode).outcome = _
    rw [writeHeader_on rfl rfl (by decide +kernel)]; rfl
  · rw [hp] at hk
    have : ∀ k : Fin 8, (onSource [0x00, 0x11, 0x00, 0x00, 0x00, 0x41, 0x01, 0x00]).src.read k.val =
        (headerWritten oneCode).snk.read k.val := by decide +kernel
    exact this ⟨k, hk⟩
  · unfold codeOf at h h'
    rw [oneCode, RegFile.get_set] at h h'
    split at h
    · next e1 =>
      split at h'
      · next e2 => exact symIndex_inj.1 (e1.symm.trans e2)
      · rw [RegFile.get_fill] at h'; cases h'
    · rw [RegFile.get_fill] at h; cases h

/-- The entry that just fits and the one that is a bit too long (V29, last row). -/
theorem witness_EntIsInsertedOrMalformed :
    ({ State.reset with hbits := 17, tlen := 34 } : State).hbits.toNat + 16 + [true].length ≤ (34 : BitVec 32).toNat ∧
    (33 : BitVec 32).toNat < ({ State.reset with hbits := 17, tlen := 33 } : State).hbits.toNat + 16 + [true].length ∧
    (Bit.zeros 255).length ≤ 255 := by decide +kernel

/-- The shortest code, a code of two bits whose first bit is no key, and a code that is no key. -/
theorem witness_CodEmitsTheSymbolOfItsKey : State.reset.bitbuf = [] ∧ State.reset.cand = [] ∧
    DecTable.lookup [([false], 0x41)] [false] = some 0x41 ∧ DecTable.lookup [([true, false], 0x41)] [true] = none ∧
    DecTable.lookup [([true, false], 0x41)] [true, false] = some 0x41 ∧
    DecTable.lookup [([false], 0x41)] [true] = none := by decide

theorem witness_OperationsThatStoreNothingKeepTheStreams : (Instr.appendByte 0).format ≠ .cod ∧
    (Instr.appendByte 0) ≠ .writeHeader ∧ exec (.appendByte 0) State.reset = .next (appendByte 0 State.reset) := by
  refine ⟨by decide, by decide, rfl⟩

/-! ### Witnesses: ENCODE -/

theorem runningOn_alone (mode : Bool) (phase : BitVec 4) (source : List Byte) :
    RunningIn (runningOn mode phase source) mode phase := ⟨⟨rfl, rfl, rfl⟩, rfl, rfl, rfl⟩

/-- The empty source and one of two bytes. -/
theorem witness_CountingPassCountsEveryByte : RunningIn (runningOn false 0 [0x41, 0x42]) false 0 ∧
    SourceIs (runningOn false 0 [0x41, 0x42]) [0x41, 0x42] ∧ SourceIs (runningOn false 0 []) [] :=
  ⟨runningOn_alone _ _ _, started_source defaults [0x41, 0x42] false (by decide),
    started_source defaults [] false (by decide)⟩

/-- All six transitions: the tree, the header, the seek, a header read, a header refused, the seek of DECODE. -/
theorem witness_TransitionsRunTheUnitOperations :
    (RunningIn (runningOn false 1 []) false 1 ∧ ∃ u, CodedFrom (runningOn false 1 []) u) ∧
    (RunningIn (runningOn false 2 []) false 2 ∧ ∃ t, exec .writeHeader (runningOn false 2 []) = .next t) ∧
    RunningIn (runningOn false 3 []) false 3 ∧
    after (exec .readHeader (runningOn true 0 [0x00, 0x00, 0x00, 0x00, 0x00])) (fun t => t.status.busy) = some true ∧
    after (exec .readHeader (runningOn true 0 [])) (fun t => t.status.busy) = some false ∧
    RunningIn (runningOn true 1 []) true 1 := by
  refine ⟨⟨runningOn_alone _ _ _, { buildTree (runningOn false 1 []) with code := codesOf (runningOn false 1 []).freq },
      buildTree (runningOn false 1 []), rfl, ?_⟩,
    ⟨runningOn_alone _ _ _, headerWritten (runningOn false 2 []), ?_⟩, runningOn_alone _ _ _, by decide +kernel,
    by decide +kernel, runningOn_alone _ _ _⟩
  · show (generateCodes (buildTree (runningOn false 1 []))).outcome = _
    rw [(makeCodes_spec (runningOn false 1 [])).1]; rfl
  · show (writeHeader (runningOn false 2 [])).outcome = _
    rw [writeHeader_on rfl rfl (by decide +kernel)]; rfl

/-- The code `"0"` of `41`, with the buffer at and above the threshold. -/
theorem witness_EncodingStepEmitsTheCode : RunningIn encoding22 false 4 ∧
    encoding22.srcPos.toNat < encoding22.srcSize.toNat ∧ encoding22.src.read encoding22.srcPos.toNat = some 0x41 ∧
    codeOf encoding22 0x41 = some [false] ∧ encoding22.snkPos.toNat + (encoding22.bitbuf ++ [false]).length / 8 < 2 ^ 64 ∧
    encoding22.params.flushThreshold < (encoding22.bitbuf ++ [false]).length ∧
    (encoding22.bitbuf ++ [false]).length ≤ ({ chunkSize := 1, flushThreshold := 1 } : Params).flushThreshold :=
  ⟨⟨⟨rfl, rfl, rfl⟩, rfl, rfl, rfl⟩, by decide, by decide, by decide +kernel, by decide, by decide, by decide⟩

theorem witness_ByteWithoutACodeIsAMiss : RunningIn (runningOn false 4 [0x41]) false 4 ∧
    (runningOn false 4 [0x41]).srcPos.toNat < (runningOn false 4 [0x41]).srcSize.toNat ∧
    (runningOn false 4 [0x41]).src.read 0 = some 0x41 ∧ codeOf (runningOn false 4 [0x41]) 0x41 = none :=
  ⟨runningOn_alone _ _ _, by decide, by decide, RegFile.get_fill _ _ _⟩

/-- The end of the source, with an empty and with a full buffer. -/
theorem witness_FlushEndsTheEncoding : RunningIn { encoding22 with srcPos := 1 } false 4 ∧
    ({ encoding22 with srcPos := 1 } : State).srcPos = ({ encoding22 with srcPos := 1 } : State).srcSize ∧
    1 ≤ encoding22.snkPos.toNat ∧ encoding22.snkPos.toNat + ([] : Bits).length + 7 / 8 < 2 ^ 64 ∧
    encoding22.snkPos.toNat + (([false] : Bits).length + 7) / 8 < 2 ^ 64 :=
  ⟨⟨⟨rfl, rfl, rfl⟩, rfl, rfl, rfl⟩, by decide, by decide, by decide, by decide⟩

/-- The sources of the whole-run statements: empty, and one byte. -/
theorem witness_EncodeMakesTheClosedForm_EncodeWritesInOrder : ([] : List Byte).length < 2 ^ 56 ∧
    [(0x41 : Byte)].length < 2 ^ 56 := by decide

/-! ### Witnesses: DECODE -/

/-- A key; no key at 255 bits; no key at 256 bits. -/
theorem witness_EachBitIsTestedAgainstTheTable :
    decoding22.dec.lookup (decoding22.cand ++ [false]) = some 0x41 ∧ decoding22.snkPos.toNat + 1 < 2 ^ 64 ∧
    decoding22.dec.lookup (List.replicate 254 true ++ [true]) = none ∧
    (List.replicate 254 true ++ [true]).length ≤ 255 ∧ decoding22.dec.lookup (List.replicate 255 true ++ [true]) = none ∧
    256 ≤ (List.replicate 255 true ++ [true]).length := by decide +kernel

/-- V53: the candidate need not be empty. -/
theorem witness_DoneDoesNotLookAtTheCandidate : RunningIn { decoding22 with cand := [true] } true 2 ∧
    decoding22.srcPos = decoding22.srcSize ∧ decoding22.bitbuf = [] := ⟨⟨⟨rfl, rfl, rfl⟩, rfl, rfl, rfl⟩, rfl, rfl⟩

/-- V52, which ends in `Done`, and V62 with payload bytes of zeros, which ends in the error. -/
theorem witness_DecodeParsesThePayload : 1 ≤ defaults.chunkSize ∧
    parseBits (entriesTable [(0x41, [false])] []) 8 (payloadBits 1 0x04 [0x00]) =
      ([0x41, 0x41, 0x41, 0x41], .done []) ∧
    parseBits (entriesTable [] []) 256 (payloadBits 1 0x00 (List.replicate 32 0x00)) = ([], .invalid) := by
  decide +kernel

/-- A source of one byte that begins with 8, and the empty one. -/
theorem witness_EveryDecodeEnds_ChunkSizeDoesNotMatter : 1 ≤ defaults.chunkSize ∧ [(0x08 : Byte)].length < 2 ^ 56 ∧
    [(0x08 : Byte)][0].toNat ≤ 8 := by decide

/-- V30. -/
theorem witness_DecodeInvertsEncodeOfEverySource : 1 ≤ defaults.chunkSize ∧ [(0x41 : Byte), 0x42].length < 2 ^ 56 ∧
    encodeOf defaults [0x41, 0x42] = .value [0x06, 0x22, 0x00, 0x00, 0x00, 0x41, 0x01, 0x21, 0x00, 0xc0, 0x40] ∧
    [(0x06 : Byte), 0x22, 0x00, 0x00, 0x00, 0x41, 0x01, 0x21, 0x00, 0xc0, 0x40].length < 2 ^ 56 :=
  ⟨by decide, by decide, test_encode_run, by decide⟩

/-! ### Witnesses: the whole machine -/

theorem inv_reset : Inv State.reset := Inv.resetEngine (s := State.reset) rfl rfl

theorem sized_reset : Sized State.reset := Sized.idle rfl fun _ b c h => by
  have : codeOf State.reset b = none := RegFile.get_fill _ _ _
  rw [this] at h; cases h

theorem witness_EveryStepKeepsTheInvariant_EveryStepKeepsTheBounds : Inv State.reset ∧ Sized State.reset ∧
    step State.reset = .next State.reset := ⟨inv_reset, sized_reset, rfl⟩

/-- DECODE at its start, on the empty source. -/
theorem inv_started : Inv (startCommand true State.reset) := inv_reset.start true (by decide) (by decide)

theorem witness_ARunningCommandAlwaysMovesOn : Inv (startCommand true State.reset) ∧
    Sized (startCommand true State.reset) ∧ SourceProvided (startCommand true State.reset) ∧
    (startCommand true State.reset).status.busy = true :=
  ⟨inv_started, Sized.decoding rfl fun _ => Nat.le_refl _, fun _ h => absurd h (Nat.not_lt_zero _), rfl⟩

theorem witness_PhaseAdvances_TheEngineOnlyWrites_DecodeNeverSeeks : Inv (startCommand true State.reset) ∧
    (startCommand true State.reset).status.mode = true ∧
    after (engineMove (startCommand true State.reset)) (fun t => t.err) = some 1 := ⟨inv_started, rfl, by rfl⟩

end Sys2Proof.Tests
end

section
/-! PROOFS. DECODE of a source given by its bytes, from the host's moves to the verdict (spec/44_decoder.md rules R200 to
R214): it depends on `CHUNK_SIZE` through the bits that the padding leaves of the payload, and through nothing else. -/

namespace Sys2Proof.Machine

/-! ### The end of a run -/

/-- An engine that is alone and runs no command stays as it is (R236, R261, R266). -/
theorem runSteps_of_not_busy {s : State} (ha : EngineAlone s) (hb : s.status.busy = false) (n : Nat) :
    runSteps n s = .next s := by
  obtain ⟨hcmd, hissue, hhost⟩ := ha
  induction n with
  | zero => rfl
  | succ n ih => rw [runSteps_succ n (t := s) (by simp [step, hcmd, hissue, hhost, engineMove, hb]), ih]

/-- A command that has ended within `m` steps has ended the same way after any more. -/
theorem runSteps_mono {s t : State} {m n : Nat} (h : runSteps m s = .next t) (hmn : m ≤ n) (ha : EngineAlone t)
    (hb : t.status.busy = false) : runSteps n s = .next t := by
  rw [← Nat.add_sub_cancel' hmn, runSteps_add m _ h, runSteps_of_not_busy ha hb]

/-- The sink image is a matter of the sink's bytes and size (R6, R38). -/
theorem sinkImage_congr {s t : State} (hsnk : t.snk = s.snk) (hsize : t.snkSize = s.snkSize) :
    sinkImage t = sinkImage s := by
  have hrun : ∀ n a, sinkRun t a n = sinkRun s a n := fun n => by
    induction n with
    | zero => exact fun _ => rfl
    | succ n ih => intro a; simp only [sinkRun, sinkByte, hsnk, hsize, ih]
  rw [sinkImage, sinkImage, hsize, hrun]

@[simp] theorem sinkImage_finish (ph : BitVec 4) (s : State) : sinkImage (finish ph s) = sinkImage s :=
  sinkImage_congr rfl rfl

@[simp] theorem sinkImage_raise (e : ErrorKind) (s : State) : sinkImage (raise e s) = sinkImage s :=
  sinkImage_congr rfl rfl

/-- A walk that began with an empty sink leaves the symbols matched and nothing else in it (R63, R211). -/
theorem sinkImage_walked {s : State} {out : List Symbol} (left c : Bits) (hp : s.snkPos = 0) (hs : s.snkSize = 0)
    (hl : out.length < 2 ^ 64) : sinkImage (walked out left c s) = some out := by
  have hpos : s.snkPos.toNat = 0 := by rw [hp]; rfl
  have hfit : Fits out { s with bitbuf := left, cand := c } := fun _ => by
    simp only [hpos, Nat.zero_add]; exact hl
  have hholds := (appended_sinkHolds out { s with bitbuf := left, cand := c }).1
  simp only [hpos] at hholds
  refine sinkImage_eq ?_ hholds
  have hend := appended_end (s := { s with bitbuf := left, cand := c }) (hp.trans hs.symm) hfit
  rw [walked, ← hend, hfit.snkPos]
  simp only [hpos, Nat.zero_add]

/-! ### The payload -/

/-- How DECODE stands at its end, by how the reading of the payload ended: `Done` or `InvalidCodeError`, with the symbols
read in the sink (R212 to R214, R236). -/
def ParsedTo : List Symbol × ParseEnd → State → Prop
  | (out, .done rest), t =>
    t.status = { phase := Phase.done, mode := true, busy := false, done := true, fail := false } ∧
      t.err = 0 ∧ t.cand = rest ∧ sinkImage t = some out
  | (out, .invalid), t =>
    t.status = { phase := Phase.decoding, mode := true, busy := false, done := false, fail := true } ∧
      t.err = ErrorKind.invalidCode.number ∧ t.cand.length = 256 ∧ sinkImage t = some out

theorem ParsedTo.not_busy {r : List Symbol × ParseEnd} {t : State} (h : ParsedTo r t) : t.status.busy = false := by
  match r, h with
  | (_, .done _), ⟨hstatus, _⟩ => rw [hstatus]
  | (_, .invalid), ⟨hstatus, _⟩ => rw [hstatus]

/-- DECODE stands before its first chunk: the source goes on with this payload to its end, and nothing of it was read or
written (R203, R207). -/
structure BeforePayload (s : State) (payload : List Byte) : Prop where
  alone : EngineAlone s
  status : s.status = { Status.started true with phase := Phase.decoding }
  err : s.err = 0
  chunk_pos : 1 ≤ s.params.chunkSize
  bitbuf : s.bitbuf = []
  cand : s.cand = []
  snkPos : s.snkPos = 0
  snkSize : s.snkSize = 0
  size : s.srcPos.toNat + payload.length = s.srcSize.toNat
  source : ∀ k (h : k < payload.length), s.src.read (s.srcPos.toNat + k) = some payload[k]

/-- From there the walk over the payload's bits decides how DECODE ends (R204 to R214). -/
theorem decode_payload {s : State} {payload : List Byte} (h : BeforePayload s payload)
    (hfit : 8 * payload.length < 2 ^ 64) :
    ∃ m t, m ≤ payload.length + 1 ∧ runSteps m s = .next t ∧ EngineAlone t ∧
      ParsedTo (scan s.dec s.cand (payloadBits s.params.chunkSize s.pad payload)) t := by
  have hst := h.status
  have hloop := decode_loop payload.length payload s (Nat.le_refl _)
    ⟨h.alone, by rw [hst]; rfl, by rw [hst]; rfl, by rw [hst]; rfl⟩ h.chunk_pos h.bitbuf (by simp [h.cand]) h.size
    h.source (by simpa [h.snkPos, Config.spaceSize] using hfit)
  have hout := scan_length_le s.dec s.cand (payloadBits s.params.chunkSize s.pad payload)
  rw [payloadBits, List.length_take, Bit.unpack_length, ← payloadBits] at hout
  generalize scan s.dec s.cand (payloadBits s.params.chunkSize s.pad payload) = r at hloop hout ⊢
  have himage : ∀ left c pos, sinkImage (walked r.1 left c { s with srcPos := pos }) = some r.1 := fun left c pos =>
    sinkImage_walked left c h.snkPos h.snkSize (by omega)
  match r with
  | (out, .done rest) =>
    obtain ⟨m, hm, hr⟩ := hloop
    refine ⟨m, _, hm, hr, by simpa [EngineAlone, walked] using h.alone, ?_, ?_, ?_, ?_⟩
    · simp [walked, hst, Status.started, Status.reset]
    · simpa [walked] using h.err
    · simp [walked]
    · exact (sinkImage_finish _ _).trans (himage _ _ _)
  | (out, .invalid) =>
    obtain ⟨m, left, c, pos, hm, h256, hr⟩ := hloop
    refine ⟨m, _, hm, hr, by simpa [EngineAlone, walked] using h.alone, ?_, rfl, ?_, ?_⟩
    · simp [walked, hst, Status.started, Status.reset, Status.failed]
    · simpa [walked] using h256
    · exact (sinkImage_raise _ _).trans (himage _ _ _)

/-! ### A source that begins with a header -/

/-- The source is a header, its table bits those of the entries `es`, and the payload behind it (R92, R95, R97, R105). -/
structure HeaderOf (source : List Byte) (pad : Byte) (T : BitVec 32) (es : List (Symbol × Bits))
    (tb payload : List Byte) : Prop where
  codes : ∀ e ∈ es, e.2.length ≤ 255
  table_length : T.toNat = (entriesBits es).length
  table_bytes : tb.length = (T.toNat + 7) / 8
  table_bits : (Bit.unpack tb).take T.toNat = entriesBits es
  source_eq : source = pad :: Bit.le32 T ++ tb ++ payload

theorem HeaderOf.length {source : List Byte} {pad : Byte} {T : BitVec 32} {es : List (Symbol × Bits)}
    {tb payload : List Byte} (h : HeaderOf source pad T es tb payload) :
    source.length = 5 + tb.length + payload.length := by
  rw [h.source_eq]; simp; omega

/-- What the source starts with stands at the front of its bytes (R62, R265). -/
theorem SourceIs.begins_with {s : State} {source front : List Byte} (h : SourceIs s source) (hf : SourceStarts s front) :
    front <+: source := by
  obtain ⟨hsize, hread⟩ := h
  obtain ⟨hle, hfront⟩ := hf
  refine List.prefix_iff_getElem.2 ⟨hsize ▸ hle, fun k hk => ?_⟩
  exact Option.some.inj ((hfront k hk).symm.trans (hread k (by omega)))

/-- `HeaderStarts`, of a state, gives `HeaderOf`, of the source's bytes. -/
theorem HeaderStarts.headerOf {s : State} {source tb : List Byte} {pad : Byte} {T : BitVec 32}
    {es : List (Symbol × Bits)} (h : HeaderStarts s pad T es [] tb) (hT : T.toNat = (entriesBits es).length)
    (hs : SourceIs s source) : ∃ payload, HeaderOf source pad T es tb payload := by
  obtain ⟨payload, hp⟩ := hs.begins_with h.source
  exact ⟨payload, h.codes, hT, h.table_bytes, by simpa using h.table_bits, hp.symm⟩

/-- `readHeader` on such a source (R156 to R159). -/
theorem HeaderOf.readHeader_eq {s : State} {source tb payload : List Byte} {pad : Byte} {T : BitVec 32}
    {es : List (Symbol × Bits)} (h : HeaderOf source pad T es tb payload) (hs : SourceIs s source) :
    readHeader s = .on { s with
      pad := pad
      tlen := T
      hbits := T
      payloadOff := BitVec.ofNat 64 (5 + tb.length)
      srcPos := BitVec.ofNat 64 (5 + tb.length)
      bitbuf := []
      dec := entriesTable es [] } := by
  obtain ⟨hsize, hread⟩ := hs
  have hlen := h.length
  have hT : BitVec.ofNat 32 (entriesBits es).length = T := by
    rw [← h.table_length, BitVec.ofNat_toNat, BitVec.setWidth_eq]
  have hon := readHeader_on (s := s) (pad := pad) h.codes (h.table_length ▸ T.isLt)
    (by rw [h.table_bytes, h.table_length]; rfl) (h.table_length ▸ h.table_bits) (by omega)
  rw [hT] at hon
  refine hon fun k hk => ?_
  have hk' : k < source.length := by simp at hk; omega
  rw [hread k hk', Option.some.injEq, List.getElem_of_eq h.source_eq, List.getElem_append_left]

/-- DECODE at the start of the payload (R203). -/
def atPayload (p : Params) (source : List Byte) (pad : Byte) (T : BitVec 32) (es : List (Symbol × Bits))
    (tb : List Byte) : State :=
  setPhase Phase.decoding { started p source true with
    pad := pad
    tlen := T
    hbits := T
    payloadOff := BitVec.ofNat 64 (5 + tb.length)
    srcPos := BitVec.ofNat 64 (5 + tb.length)
    dec := entriesTable es [] }

/-- The two transitions before the chunks (R202, R203). -/
theorem decode_to_payload {source tb payload : List Byte} {pad : Byte} {T : BitVec 32} {es : List (Symbol × Bits)}
    (p : Params) (h : HeaderOf source pad T es tb payload) (hl : source.length < 2 ^ 56) :
    runSteps 2 (started p source true) = .next (atPayload p source pad T es tb) := by
  have hread := h.readHeader_eq (started_source p source true (by omega))
  rw [runSteps_succ 1 ((dec_step0 (started_alone p source true)).trans (by rw [parseHeader, hread]; rfl)),
    runSteps_succ 0 ((dec_step1 ⟨⟨rfl, rfl, rfl⟩, rfl, rfl, rfl⟩).trans rfl)]
  rfl

theorem atPayload_beforePayload {source tb payload : List Byte} {pad : Byte} {T : BitVec 32}
    {es : List (Symbol × Bits)} {p : Params} (h : HeaderOf source pad T es tb payload) (hc : 1 ≤ p.chunkSize)
    (hl : source.length < 2 ^ 56) : BeforePayload (atPayload p source pad T es tb) payload := by
  have hlen := h.length
  obtain ⟨hsize, hread⟩ := started_source p source true (by omega)
  have hpos : (atPayload p source pad T es tb).srcPos.toNat = 5 + tb.length :=
    (BitVec.toNat_ofNat _ _).trans (Nat.mod_eq_of_lt (by omega))
  refine ⟨⟨rfl, rfl, rfl⟩, rfl, rfl, hc, rfl, rfl, rfl, rfl, by rw [hpos, ← hlen]; exact hsize.symm, fun k hk => ?_⟩
  have hfront : (pad :: Bit.le32 T ++ tb).length = 5 + tb.length := by simp; omega
  rw [hpos]
  refine (hread (5 + tb.length + k) (by omega)).trans ?_
  rw [Option.some.injEq, List.getElem_of_eq h.source_eq, List.getElem_append_right (by omega)]
  simp only [hfront, Nat.add_sub_cancel_left]

/-- The four moves of the host that start DECODE (R264). -/
theorem session_decode {p : Params} {source : List Byte} (hc : 1 ≤ p.chunkSize) (hl : source.length < 2 ^ 56) :
    runSteps 4 (session p source 0x02) = .next (started p source true) := by
  simpa only [if_true] using session_started p source true hl fun _ => hc

/-- The whole run of DECODE on a source that begins with a header ends as the walk over the payload's bits says (R200 to
R214). -/
theorem decode_run {source tb payload : List Byte} {pad : Byte} {T : BitVec 32} {es : List (Symbol × Bits)} {p : Params}
    (h : HeaderOf source pad T es tb payload) (hc : 1 ≤ p.chunkSize) (hl : source.length < 2 ^ 56) :
    ∃ t, runSteps (stepsFor source.length) (session p source 0x02) = .next t ∧
      ParsedTo (scan (entriesTable es []) [] (payloadBits p.chunkSize pad payload)) t := by
  have hlen := h.length
  obtain ⟨m, t, hm, hr, ha, ht⟩ := decode_payload (atPayload_beforePayload h hc hl) (by omega)
  refine ⟨t, runSteps_mono (m := 4 + (2 + m)) ?_ (by unfold stepsFor; omega) ha ht.not_busy, ht⟩
  rw [runSteps_add 4 _ (session_decode hc hl), runSteps_add 2 _ (decode_to_payload p h hl), hr]

/-- On any other source DECODE ends where `readHeader` raises (R202, R231, R236). -/
theorem decode_run_malformed {source : List Byte} {p : Params}
    (hn : ∀ pad T es tb payload, ¬ HeaderOf source pad T es tb payload) (hc : 1 ≤ p.chunkSize)
    (hl : source.length < 2 ^ 56) :
    ∃ t, runSteps (stepsFor source.length) (session p source 0x02) = .next t ∧
      readHeader (started p source true) = .raised t := by
  have hsrc := started_source p source true (by omega)
  have hprov : SourceProvided (started p source true) := fun a ha => by rw [hsrc.2 a (hsrc.1 ▸ ha)]; rfl
  obtain ⟨t, hout⟩ := readHeader_completes hprov
  rcases Flow.outcome_eq_next.1 hout with hon | hraised
  · obtain ⟨pad, T, es, tb, hT, hstarts⟩ := (readHeader_spec (started p source true)).of_eq_on hon
    obtain ⟨payload, hheader⟩ := hstarts.headerOf hT hsrc
    exact absurd hheader (hn pad T es tb payload)
  · obtain ⟨hstatus, -⟩ := (readHeader_status _).of_eq_raised hraised
    have hinputs := ((readHeader_moves _).of_eq_raised hraised).inputs
    have hstep : step (started p source true) = .next t := by
      rw [dec_step0 (started_alone p source true), parseHeader, hraised]; rfl
    refine ⟨t, runSteps_mono (m := 4 + 1) ?_ (by unfold stepsFor; omega)
      ⟨hinputs.cmd, hinputs.issue, hinputs.host⟩ (by rw [hstatus]; rfl), hraised⟩
    rw [runSteps_add 4 _ (session_decode hc hl), runSteps_succ 0 hstep]; rfl

/-! ### The verdict of DECODE -/

/-- What a DECODE gives whose payload is read this way (R214). -/
def parseVerdict : List Symbol × ParseEnd → Verdict
  | (out, .done _) => .value out
  | (_, .invalid) => .error ErrorKind.invalidCode.number

/-- On a source that begins with a header, `decode(F)` is `parse` of the payload's bits (R105, R214). -/
theorem decodeOf_of_header {source tb payload : List Byte} {pad : Byte} {T : BitVec 32} {es : List (Symbol × Bits)}
    {p : Params} (h : HeaderOf source pad T es tb payload) (hc : 1 ≤ p.chunkSize) (hl : source.length < 2 ^ 56) :
    decodeOf p source = parseVerdict (scan (entriesTable es []) [] (payloadBits p.chunkSize pad payload)) := by
  obtain ⟨t, hrun, ht⟩ := decode_run h hc hl
  generalize scan (entriesTable es []) [] (payloadBits p.chunkSize pad payload) = r at ht ⊢
  rw [decodeOf, runCommand, hrun]
  match r, ht with
  | (out, .done rest), ⟨hstatus, _, _, himage⟩ => simp [hstatus, himage, parseVerdict]
  | (out, .invalid), ⟨hstatus, herr, _, _⟩ => simp [hstatus, herr, parseVerdict]

/-- On any other source `decode(F)` is `MalformedHeaderError` (R105, R231). -/
theorem decodeOf_of_no_header {source : List Byte} {p : Params}
    (hn : ∀ pad T es tb payload, ¬ HeaderOf source pad T es tb payload) (hc : 1 ≤ p.chunkSize)
    (hl : source.length < 2 ^ 56) : decodeOf p source = .error ErrorKind.malformedHeader.number := by
  obtain ⟨t, hrun, hraised⟩ := decode_run_malformed hn hc hl
  obtain ⟨hstatus, herr⟩ := (readHeader_status _).of_eq_raised hraised
  rw [decodeOf, runCommand, hrun]
  simp [hstatus, herr, Status.failed, ErrorKind.number]

/-! ### `CHUNK_SIZE` -/

theorem finalChunk_pos {c b : Nat} (hb : 1 ≤ b) : 1 ≤ finalChunk c b := by
  have := Nat.mul_div_le (b - 1) c
  unfold finalChunk
  omega

/-- A padding count of at most one byte is dropped whole, whatever the chunks: the final chunk is never empty (R205, R209,
R210). -/
theorem payloadBits_of_pad_le {pad : Byte} (hpad : pad.toNat ≤ 8) (c : Nat) (payload : List Byte) :
    payloadBits c pad payload = (Bit.unpack payload).take (8 * payload.length - pad.toNat) := by
  rcases payload.eq_nil_or_concat with rfl | hne
  · simp [payloadBits]
  · have := finalChunk_pos (c := c) (b := payload.length) (by obtain ⟨_, _, rfl⟩ := hne; simp)
    rw [payloadBits, Nat.min_eq_left (by omega)]

end Sys2Proof.Machine

open Sys2Proof Sys2Proof.Machine

/-- Settles O50: a source either begins with a header, and the padding count takes the same bits off its payload for every
`CHUNK_SIZE`, or it does not, and its header is malformed for every `CHUNK_SIZE`. -/
theorem chunkSizeDoesNotMatter : Obligations.ChunkSizeDoesNotMatter := by
  unfold Obligations.ChunkSizeDoesNotMatter
  intro p q source hp hq hl hpad
  by_cases h : ∃ pad T es tb payload, HeaderOf source pad T es tb payload
  · obtain ⟨pad, T, es, tb, payload, h⟩ := h
    have hpad8 : pad.toNat ≤ 8 := by
      have := hpad (by rw [h.length]; omega)
      simpa [h.source_eq] using this
    rw [decodeOf_of_header h hp hl, decodeOf_of_header h hq hl, payloadBits_of_pad_le hpad8,
      payloadBits_of_pad_le hpad8]
  · have hn : ∀ pad T es tb payload, ¬ HeaderOf source pad T es tb payload :=
      fun pad T es tb payload hheader => h ⟨pad, T, es, tb, payload, hheader⟩
    rw [decodeOf_of_no_header hn hp hl, decodeOf_of_no_header hn hq hl]

end

section
/-! PROOFS. What a step can be, and what every step keeps (spec/10_state.md; spec/70_reset_and_hazards.md rules R260 to
R266): a step is one move of the host, and each move is the engine's, a start of a command, a change of the streams, or a
reset. The invariant and its bounds are carried over each of the four once. -/

namespace Sys2Proof.Machine

/-! ### What a step runs -/

theorem step_of_cmd {s : State} {w : Byte} (h : s.cmd = some w) : step s = fetchCommand w { s with cmd := none } := by
  simp only [step, h]

theorem step_of_issue {s : State} {u : Issue} (hc : s.cmd = none) (h : s.issue = some u) :
    step s = fetchIssue u { s with issue := none } := by
  simp only [step, hc, h]

theorem step_of_hostMove {s : State} {m : HostMove} {ms : List HostMove} (hc : s.cmd = none) (hi : s.issue = none)
    (h : s.host = m :: ms) : step s = hostMove m { s with host := ms } := by
  simp only [step, hc, hi, h]

theorem step_of_engineAlone {s : State} (h : EngineAlone s) : step s = engineMove s := by
  obtain ⟨hcmd, hissue, hhost⟩ := h
  simp only [step, hcmd, hissue, hhost]

theorem fetchCommand_of_decode {w : Byte} {i : Instr} (h : decode .cmd (Bit.bits8 w) = .ok i) (s : State) :
    fetchCommand w s = exec i s := by
  simp only [fetchCommand, h]

theorem fetchIssue_of_decode {u : Issue} {i : Instr} (h : decode u.format u.bits = .ok i) (s : State) :
    fetchIssue u s = exec i s := by
  simp only [fetchIssue, h]

/-- With no operation issued by itself, every step is a move of the host: a word in `CMD` is its write, and a host with no
move left waits (assumptions 2, 3 and 19). -/
theorem step_eq_hostMove {s : State} (hi : s.issue = none) :
    ∃ m ms, step s = hostMove m { s with host := ms, cmd := none } := by
  cases hc : s.cmd with
  | some w => exact ⟨.command w, s.host, step_of_cmd hc⟩
  | none =>
    have hs : ∀ ms, ({ s with host := ms, cmd := none } : State) = { s with host := ms } := fun ms => by rw [← hc]
    cases hh : s.host with
    | nil =>
      refine ⟨.wait, [], (step_of_engineAlone ⟨hc, hi, hh⟩).trans ?_⟩
      rw [hs, ← hh]; rfl
    | cons m ms => exact ⟨m, ms, by rw [hs, step_of_hostMove hc hi hh]⟩

/-! ### What a command word and a move of the host can do -/

/-- A word in `CMD` that is not refused starts a command (R21, R170, R200). -/
theorem fetchCommand_eq_next {w : Byte} {s t : State} (h : fetchCommand w s = .next t) :
    ∃ mode, t = startCommand mode s := by
  rw [fetchCommand_eq] at h
  split at h
  · simp only [execEncode] at h
    split at h
    · cases h
    split at h
    · cases h; exact ⟨false, rfl⟩
    · cases h
  split at h
  · simp only [execDecode] at h
    split at h
    · cases h
    split at h
    · split at h
      · cases h
      · cases h; exact ⟨true, rfl⟩
    · cases h
  · cases h

/-- A move of the host: the engine moves, a word is written to `CMD`, the host changes a stream or `SRC_SIZE` (while a
command runs, the source's bytes alone), or it resets the engine (R78, R79, R260 to R265). -/
theorem hostMove_eq_next {m : HostMove} {s t : State} (h : hostMove m s = .next t) :
    engineMove s = .next t ∨ (∃ w, fetchCommand w s = .next t) ∨
    (∃ src snk size, t = { s with src := src, snk := snk, srcSize := size } ∧ (s.src.wf = true → src.wf = true) ∧
      (s.snk.wf = true → snk.wf = true) ∧ (s.status.busy = true → snk = s.snk ∧ size = s.srcSize)) ∨
    ∃ landed, t = hostReset landed s := by
  have idle : ∀ {u : State}, whenIdle s u = .next t → s.status.busy = false ∧ t = u := fun {u} h => by
    unfold whenIdle at h
    split at h
    · cases h
    · next hb => cases h; exact ⟨by simpa using hb, rfl⟩
  cases m with
  | wait => exact Or.inl h
  | command w => exact Or.inr (Or.inl ⟨w, h⟩)
  | provideSource bytes =>
    simp only [hostMove, provideSource] at h
    split at h
    · next hl =>
      obtain ⟨hb, rfl⟩ := idle h
      exact Or.inr (Or.inr (Or.inl ⟨_, s.snk, s.srcSize, rfl, fun _ => Memory.wf_cellsFrom 0 bytes (by omega), id,
        fun _ => ⟨rfl, rfl⟩⟩))
    · cases h
  | provideSink =>
    obtain ⟨hb, rfl⟩ := idle h
    exact Or.inr (Or.inr (Or.inl ⟨s.src, [], s.srcSize, rfl, id, fun _ => Memory.wf_nil, by simp [hb]⟩))
  | writeSrcSize size =>
    obtain ⟨hb, rfl⟩ := idle h
    exact Or.inr (Or.inr (Or.inl ⟨s.src, s.snk, size, rfl, id, id, by simp [hb]⟩))
  | changeSource a b =>
    simp only [hostMove, changeSource] at h
    split at h
    · cases h
    split at h
    · next ha =>
      cases h
      exact Or.inr (Or.inr (Or.inl ⟨_, s.snk, s.srcSize, rfl, fun hw => Memory.wf_write _ _ _ hw ha, id,
        fun _ => ⟨rfl, rfl⟩⟩))
    · cases h
  | reset landed => cases h; exact Or.inr (Or.inr (Or.inr ⟨landed, rfl⟩))

/-! ### The invariant -/

/-- A change of the streams by the host keeps the invariant (R78, R79, R264). -/
theorem Inv.streams {s : State} (h : Inv s) {src snk : Memory} {size : BitVec 64} (hsrc : src.wf = true)
    (hsnk : snk.wf = true) (hrun : s.status.busy = true → snk = s.snk ∧ size = s.srcSize) :
    Inv { s with src := src, snk := snk, srcSize := size } where
  src_wf := hsrc
  snk_wf := hsnk
  dec_wf := h.dec_wf
  issue_none := h.issue_none
  status_legal := h.status_legal
  position_at_end := h.position_at_end
  decode_keeps := h.decode_keeps
  encode_keeps := h.encode_keeps
  discarded := h.discarded
  queue_empty := h.queue_empty
  running := fun hb => by
    obtain ⟨rfl, rfl⟩ := hrun hb
    have hr := h.running hb
    exact { hr with }

/-- A reset keeps the invariant, also one that cuts a transition short (R260, R262). -/
theorem Inv.hostReset {s : State} (h : Inv s) (landed : Nat) : Inv (hostReset landed s) :=
  Inv.resetEngine (s := { s with snk := s.snk.replay ((pendingWrites s).take landed) }) h.src_wf
    (Memory.wf_replay _ _ h.snk_wf fun c hc => pendingWrites_space s c (List.mem_of_mem_take hc))

theorem Inv.hostMove {m : HostMove} {s t : State} (h : Inv s) (ht : hostMove m s = .next t) : Inv t := by
  obtain hengine | ⟨w, hcommand⟩ | ⟨src, snk, size, rfl, hsrc, hsnk, hrun⟩ | ⟨landed, rfl⟩ := hostMove_eq_next ht
  · exact h.engine hengine
  · exact h.fetch hcommand
  · exact h.streams (hsrc h.src_wf) (hsnk h.snk_wf) hrun
  · exact h.hostReset landed

theorem Inv.step {s t : State} (h : Inv s) (ht : step s = .next t) : Inv t := by
  obtain ⟨m, ms, hstep⟩ := step_eq_hostMove h.issue_none
  exact (h.outside ms none).hostMove (hstep.symm.trans ht)

/-! ### The bounds -/

/-- After a reset no command runs and no symbol has a code (R41, R260). -/
theorem Sized.resetEngine (s : State) : Sized (resetEngine s) :=
  Sized.idle rfl fun _ b c hc => by
    have hnone : codeOf (Machine.resetEngine s) b = none := RegFile.get_fill _ _ _
    rw [hnone] at hc; cases hc

theorem Sized.hostMove {m : HostMove} {s t : State} (h : Inv s) (hz : Sized s) (ht : hostMove m s = .next t) :
    Sized t := by
  obtain hengine | ⟨w, hcommand⟩ | ⟨src, snk, size, rfl, -, -, -⟩ | ⟨landed, rfl⟩ := hostMove_eq_next ht
  · exact hz.engine h hengine
  · exact Sized.fetch hcommand
  · exact { hz with }
  · exact Sized.resetEngine _

theorem Sized.step {s t : State} (h : Inv s) (hz : Sized s) (ht : step s = .next t) : Sized t := by
  obtain ⟨m, ms, hstep⟩ := step_eq_hostMove h.issue_none
  exact Sized.hostMove (h.outside ms none) { hz with } (hstep.symm.trans ht)

end Sys2Proof.Machine

open Sys2Proof Sys2Proof.Machine

/-- Settles O54: a step is a move of the host, and each of its four kinds keeps the invariant. -/
theorem everyStepKeepsTheInvariant : Obligations.EveryStepKeepsTheInvariant := by
  unfold Obligations.EveryStepKeepsTheInvariant
  exact fun s t h ht => h.step ht

/-- Settles O55: the same for the bounds, which speak of neither stream. -/
theorem everyStepKeepsTheBounds : Obligations.EveryStepKeepsTheBounds := by
  unfold Obligations.EveryStepKeepsTheBounds
  exact ⟨Sized.resetEngine State.reset, fun s t h hz ht => Sized.step h hz ht⟩

/-- Settles O53: the state after reset is a reset of itself, with both streams empty. -/
theorem invariantHoldsAfterReset : Obligations.InvariantHoldsAfterReset := by
  unfold Obligations.InvariantHoldsAfterReset
  exact Inv.resetEngine (s := State.reset) Memory.wf_nil Memory.wf_nil

/-- Settles O5: one lemma per place the step looks at, in the order it looks. -/
theorem stepRunsTheDecodedOperation : Obligations.StepRunsTheDecodedOperation := by
  unfold Obligations.StepRunsTheDecodedOperation
  intro s
  refine ⟨fun w i hw hd => ?_, fun u i hc hu hd => ?_, fun w ms i hc hi hh hd => ?_, step_of_engineAlone⟩
  · rw [step_of_cmd hw, fetchCommand_of_decode hd]
  · rw [step_of_issue hc hu, fetchIssue_of_decode hd]
  · rw [step_of_hostMove hc hi hh]
    exact fetchCommand_of_decode hd _

/-- Settles O6: of the 256 words, the fetch of a command takes two and refuses the rest; a command it starts leaves `CMD`
without a word. -/
theorem commandWriteStartsOrIsRefused : Obligations.CommandWriteStartsOrIsRefused := by
  unfold Obligations.CommandWriteStartsOrIsRefused
  refine ⟨fun s word hw => ?_, fun s word ms hc hi hh => ?_⟩
  · rw [step_of_cmd hw]
    refine ⟨?_, ?_, fun h1 h2 => ?_, ?_, fun t ht => ?_⟩
    · rintro rfl; rfl
    · rintro rfl; rfl
    · rw [fetchCommand_eq, if_neg h1, if_neg h2]
    · rintro (rfl | rfl) hb
      · exact if_pos hb
      · exact if_pos hb
    · obtain ⟨mode, rfl⟩ := fetchCommand_eq_next ht
      exact startCommand_cmd mode _
  · rw [step_of_hostMove hc hi hh, step_of_cmd (s := { s with cmd := some word, host := ms }) rfl, ← hc]
    rfl

end

section
/-! PROOFS. The flags: their places in `STATUS` (spec/10_state.md rules R22, R31, R41), and the arrows along which `PHASE`
moves (R23, R30). -/

namespace Sys2Proof.Machine

/-- The number of two bit vectors written one after the other. -/
theorem toNat_append_eq_add {v w : Nat} (x : BitVec v) (y : BitVec w) :
    (x ++ y).toNat = 2 ^ w * x.toNat + y.toNat := by
  rw [BitVec.toNat_append, ← Nat.shiftLeft_add_eq_or_of_lt y.isLt, Nat.shiftLeft_eq, Nat.mul_comm]

/-! ### The arrows of the phases -/

/-- `MODE` as before, and `PHASE` as before or one arrow on (R23). -/
def OneArrow (s t : State) : Prop :=
  t.status.mode = s.status.mode ∧ (t.status.phase = s.status.phase ∨ t.status.phase = s.status.phase + 1)

theorem OneArrow.stays {s t : State} (h : t.status = s.status) : OneArrow s t :=
  ⟨by rw [h], Or.inl (by rw [h])⟩

/-- A `raise` leaves the place where it happened (R236). -/
theorem OneArrow.raised {s t : State} (h : t.status = s.status.failed) : OneArrow s t :=
  ⟨by rw [h]; rfl, Or.inl (by rw [h]; rfl)⟩

theorem OneArrow.advances {s t : State} {p : BitVec 4} (hp : s.status.phase = p)
    (hm : t.status.mode = s.status.mode) (h : t.status.phase = p + 1) : OneArrow s t :=
  ⟨hm, Or.inr (by rw [h, hp])⟩

/-- The six arrows of ENCODE (R170). -/
theorem encoderTransition_oneArrow (s : State) : (encoderTransition s).Ends (OneArrow s) (OneArrow s) := by
  refine encoderTransition_ends (fun hp => ?_) (fun hp => ?_) (fun hp => ?_) (fun hp => ?_) (fun _ _ => ?_)
    (fun hp _ => ?_)
  · refine (countFrequencies_ends s).weaken ?_ fun _ hf => hf.elim
    rintro t ⟨freq, rfl⟩
    exact .advances hp rfl rfl
  · obtain ⟨nodes, nleaf, nnodes, root, hrun⟩ := makeTree_on s
    rw [hrun]
    exact .advances hp rfl rfl
  · refine ((writeHeader_status s).weaken (fun _ h => h) fun _ hf => hf.elim).andThen fun t ht => ?_
    exact .advances hp (by simp [ht]) rfl
  · exact .advances hp rfl rfl
  · refine (encodeStep_ends s).weaken ?_ ?_
    · rintro t ⟨b, c, -, -, rfl, -⟩
      obtain ⟨out, rest, he, -⟩ := emitted_spec c { s with srcPos := s.srcPos + 1 }
      exact .stays (by rw [he]; simp [advanceSink])
    · rintro t ⟨b, -, -, rfl⟩
      exact .raised rfl
  · refine (flushPayload_ends s).weaken ?_ fun _ hf => hf.elim
    rintro t ⟨rfl, -⟩
    exact .advances hp (by simp [flushedState, advanceSink]) rfl

/-- The three arrows of DECODE (R200). -/
theorem decoderTransition_oneArrow (s : State) : (decoderTransition s).Ends (OneArrow s) (OneArrow s) := by
  refine decoderTransition_ends (fun hp => ?_) (fun hp => ?_) (fun _ _ => ?_) (fun hp _ _ => ?_)
  · refine ((readHeader_status s).weaken (fun _ h => h) fun t ht => .raised ht.1).andThen fun t ht => ?_
    exact .advances hp (by simp [ht.1]) rfl
  · exact .advances hp rfl rfl
  · refine (decodeChunk_ends s).weaken ?_ ?_
    · rintro t ⟨out, c, -, -, rfl⟩
      exact .stays (by simp [walked])
    · rintro t ⟨out, rest, c, -, -, rfl⟩
      exact .raised (by simp [walked])
  · exact .advances hp rfl rfl

theorem engineMove_oneArrow {s t : State} (h : engineMove s = .next t) : OneArrow s t := by
  unfold engineMove at h
  split at h
  · unfold engineTransition at h
    split at h
    · exact (decoderTransition_oneArrow s).of_outcome h
    · exact (encoderTransition_oneArrow s).of_outcome h
  · cases h; exact .stays rfl

end Sys2Proof.Machine

open Sys2Proof Sys2Proof.Machine

/-- Settles O57: each transition of either command leaves `PHASE` or moves it along its one arrow. -/
theorem phaseAdvancesAlongItsArrows : Obligations.PhaseAdvancesAlongItsArrows := by
  unfold Obligations.PhaseAdvancesAlongItsArrows
  exact fun s t h => engineMove_oneArrow h

/-- Settles O10: the byte is the five fields written one after the other, `FAIL` first. -/
theorem statusBitsStandAtTheirPlaces : Obligations.StatusBitsStandAtTheirPlaces := by
  unfold Obligations.StatusBitsStandAtTheirPlaces
  intro t
  simp only [Status.toByte, toNat_append_eq_add, BitVec.toNat_ofBool]
  omega

/-- Settles O11: the register files are filled with their reset values, and every other register is given. -/
theorem resetLeavesTheResetValues : Obligations.ResetLeavesTheResetValues := by
  unfold Obligations.ResetLeavesTheResetValues
  refine ⟨?_, rfl, rfl, rfl, rfl, rfl, rfl⟩
  constructor
  case freq => exact fun b => RegFile.get_fill 256 0 (symIndex b)
  case node => exact fun i => RegFile.get_fill 511 Node.blank i
  case code => exact fun b => RegFile.get_fill 256 none (symIndex b)
  all_goals rfl

end

section
/-! PROOFS. What the operations leave of the streams (spec/10_state.md rule R42; spec/20_memory.md rule R60), and the tree
that `buildTree` leaves (spec/10_state.md rule R33; spec/41_codetree.md rule R132). -/

namespace Sys2Proof.Machine

/-! ### Operations that store nothing -/

theorem buildTree_kept (s : State) : Kept s (buildTree s) := by
  obtain ⟨nodes, m, root, he, -⟩ := buildTree_spec s
  rw [he]
  exact ⟨rfl, rfl, rfl, rfl, rfl⟩

/-- The record `ENT` enters a table entry or takes the error (R158, R159). -/
theorem execEnt_kept {b : Symbol} {c : Bits} {s t : State} (h : execEnt b c s = .next t) : Kept s t := by
  unfold execEnt at h
  split at h
  · cases h; exact ⟨rfl, rfl, rfl, rfl, rfl⟩
  · refine Flow.Ends.of_outcome ((takeEntry_ends b c.length c s).weaken ?_ ?_) h
    · rintro u rfl; exact ⟨rfl, rfl, rfl, rfl, rfl⟩
    · rintro u rfl; exact ⟨rfl, rfl, rfl, rfl, rfl⟩

/-- Apart from the commands, `writeHeader` and COD, no operation touches a stream or a position in the sink (R42). -/
theorem exec_kept {i : Instr} {s t : State} (hcmd : i.format ≠ .cmd) (hcod : i.format ≠ .cod) (hw : i ≠ .writeHeader)
    (h : exec i s = .next t) : Kept s t := by
  cases i with
  | encode => exact absurd rfl hcmd
  | decode => exact absurd rfl hcmd
  | appendByte n => cases h; exact ⟨rfl, rfl, rfl, rfl, rfl⟩
  | drainBytes flush => cases h; exact ⟨rfl, rfl, rfl, rfl, rfl⟩
  | buildTree => cases h; exact buildTree_kept s
  | generateCodes => exact (generateCodes_kept s).of_outcome h
  | writeHeader => exact absurd rfl hw
  | readHeader => exact (readHeader_kept s).of_outcome h
  | hdr pad tlen => cases h; exact ⟨rfl, rfl, rfl, rfl, rfl⟩
  | ent b c => exact execEnt_kept h
  | cod c => exact absurd rfl hcod

/-- A command word is executed as its fetch executes it (R21). -/
theorem exec_eq_fetchCommand {i : Instr} (h : i.format = .cmd) (s : State) : ∃ w, exec i s = fetchCommand w s := by
  cases i with
  | encode => exact ⟨1, (fetchCommand_eq 1 s).symm⟩
  | decode => exact ⟨2, (fetchCommand_eq 2 s).symm⟩
  | _ => cases h

/-! ### The tree -/

/-- The arena `buildTree` leaves is a forest with at most one root, the register `ROOT` (R33, R132). -/
theorem buildTree_forest (s : State) : ∃ q,
    Forest (buildTree s).nleaf.toNat (buildTree s).nnodes.toNat (buildTree s).node q ∧ q.length ≤ 1 ∧
      (buildTree s).root = q.head? := by
  obtain ⟨nodes, m, root, he, -⟩ := buildTree_spec s
  have hle := present_length_le s.freq
  have hleaf : (buildTree s).nleaf.toNat = (present s.freq).length := by
    rw [he, BitVec.toNat_ofNat]; omega
  obtain ⟨q, -, hF, hq, hr⟩ := buildTree_keeps (fun _ _ _ => True) s (fun _ _ => trivial)
    fun _ _ _ _ _ _ _ _ _ _ _ => trivial
  exact ⟨q, hleaf ▸ hF, hq, hr⟩

/-- In a forest, a node's parent is the created node whose child it is (R33, R132). -/
theorem Forest.parent_iff {n m : Nat} {nodes : RegFile 511 Node} {q : List NodeId} (h : Forest n m nodes q)
    {i : NodeId} (hi : i.val < m) (p : NodeId) : (nodes.get i).parent = some p ↔
      p.val < m ∧ ((nodes.get p).left = some i ∨ (nodes.get p).right = some i) := by
  constructor
  · intro hp
    obtain ⟨-, hpm, -, hchild⟩ := h.parents i p hi hp
    exact ⟨hpm, hchild⟩
  · rintro ⟨hpm, hchild⟩
    rcases Nat.lt_or_ge p.val n with hleaf | hinner
    · obtain ⟨-, hl, hr⟩ := h.leaves p hleaf
      simp [hl, hr] at hchild
    · obtain ⟨-, a, b, -, hl, hr, -, -, hpa, hpb, -⟩ := h.inner p hinner hpm
      rcases hchild with hc | hc
      · rw [hl] at hc; cases hc; exact hpa
      · rw [hr] at hc; cases hc; exact hpb

/-- In a tree, the root alone has no parent (R33, R132). -/
theorem Forest.parent_none_iff {n m : Nat} {nodes : RegFile 511 Node} {q : List NodeId} (h : Forest n m nodes q)
    (hq : q.length ≤ 1) {i : NodeId} (hi : i.val < m) : (nodes.get i).parent = none ↔ q.head? = some i := by
  have hroot : (nodes.get i).parent = none ↔ i ∈ q := by rw [h.roots i]; exact (and_iff_right hi).symm
  rw [hroot]
  match q, hq with
  | [], _ => simp
  | [r], _ => simp [eq_comm]

end Sys2Proof.Machine

open Sys2Proof Sys2Proof.Machine

/-- Settles O37: the operations of the unit and of the container keep the streams and the positions; the start of a command
keeps the streams. -/
theorem operationsThatStoreNothingKeepTheStreams : Obligations.OperationsThatStoreNothingKeepTheStreams := by
  unfold Obligations.OperationsThatStoreNothingKeepTheStreams
  intro i s t hcod hw h
  by_cases hcmd : i.format = .cmd
  · obtain ⟨w, he⟩ := exec_eq_fetchCommand hcmd s
    obtain ⟨mode, rfl⟩ := fetchCommand_eq_next (he.symm.trans h)
    exact ⟨fun _ => rfl, fun _ => rfl, rfl, fun hne => absurd hcmd hne⟩
  · obtain ⟨hsrc, hsnk, hsrcSize, hsnkSize, hsnkPos⟩ := exec_kept hcmd hcod hw h
    exact ⟨fun a => by rw [hsrc], fun a => by rw [hsnk], hsrcSize, fun _ => ⟨hsnkSize, hsnkPos⟩⟩

/-- Settles O21: the combining loop keeps a forest, and ends with one root. -/
theorem theNodesMakeABinaryTree : Obligations.TheNodesMakeABinaryTree := by
  unfold Obligations.TheNodesMakeABinaryTree
  intro s t ht i hi
  cases ht
  obtain ⟨q, hF, hq, hr⟩ := buildTree_forest s
  refine ⟨hr ▸ hF.parent_none_iff hq hi, hF.parent_iff hi, fun hn => ?_⟩
  obtain ⟨hsym, a, b, hab, hl, hright, hai, hbi, -, -, hweight⟩ := hF.inner i hn hi
  exact ⟨hsym, a, b, hab, hai, hbi, hl, hright, hweight⟩

end

section
/-! PROOFS. The memory rules (spec/20_memory.md): what the host may do to the streams while a command runs (R78, R79), that
the engine writes the sink alone and never looks at it (R60, R75), and in which order each command writes it (R72, R74). -/

namespace Sys2Proof.Machine

/-! ### The host's moves while a command runs -/

theorem whenIdle_of_busy {s : State} (h : s.status.busy = true) (t : State) :
    whenIdle s t = .refused .hostBreach := if_pos h

/-- A source that is too long for its space is refused as well (R60). -/
theorem provideSource_of_busy {s : State} (h : s.status.busy = true) (bytes : List Byte) :
    provideSource bytes s = .refused .hostBreach := by
  unfold provideSource
  split
  · exact whenIdle_of_busy h _
  · rfl

/-- The phases between the two passes of ENCODE by their numbers (R23, R79). -/
theorem betweenPasses_iff {s : State} : betweenPasses s = true ↔
    s.status.busy = true ∧ s.status.mode = false ∧
      (s.status.phase = 1 ∨ s.status.phase = 2 ∨ s.status.phase = 3) := by
  simp [betweenPasses, Phase.frequencyCounted, Phase.treeBuilt, Phase.headerWritten, and_assoc, or_assoc]

theorem changeSource_refused {s : State} (hb : s.status.busy = true) (hp : ¬ betweenPasses s = true) (a : Nat)
    (b : Byte) : changeSource a b s = .refused .hostBreach :=
  if_pos (by simp [hb, hp])

theorem changeSource_next {s : State} {a : Nat} (h : s.status.busy = false ∨ betweenPasses s = true)
    (ha : a < Config.spaceSize) (b : Byte) :
    changeSource a b s = .next { s with src := s.src.write a b } := by
  have hfree : ¬ (s.status.busy && !betweenPasses s) = true := by
    rcases h with h | h <;> simp [h]
  rw [changeSource, if_neg hfree, if_pos ha]

/-! ### The sink's bytes have no part -/

/-- Two outcomes that differ in the sink's bytes only. -/
def OutcomeTwin : Host.Outcome State Fault Refusal → Host.Outcome State Fault Refusal → Prop
  | .next t, o => ∃ m, o = .next { t with snk := m }
  | .fault f, o => o = .fault f
  | .refused r, o => o = .refused r

theorem Flow.Twin.outcome {f g : Flow} (h : f.Twin g) : OutcomeTwin f.outcome g.outcome := by
  cases f <;> cases g <;> simp only [Flow.Twin] at h
  case on.on => obtain ⟨m, rfl⟩ := h; exact ⟨m, rfl⟩
  case raised.raised => obtain ⟨m, rfl⟩ := h; exact ⟨m, rfl⟩
  case stuck.stuck => subst h; rfl

/-- A move of the engine is its enabled transition, or none (R60, R75 (d)). -/
theorem engineMove_twin (s : State) (m : Memory) : OutcomeTwin (engineMove s) (engineMove { s with snk := m }) := by
  unfold engineMove
  by_cases hb : s.status.busy = true
  · rw [if_pos hb, if_pos hb]
    exact (engineTransition_twin s m).outcome
  · rw [if_neg hb, if_neg hb]
    exact ⟨m, rfl⟩

/-! ### The record of the writes -/

@[simp] theorem written_journal (a : Nat) (bs : List Byte) (s : State) :
    (written a bs s).journal = s.journal ++ cellsFrom a bs := by rw [written_eq]

@[simp] theorem appended_journal (bs : List Byte) (s : State) :
    (appended bs s).journal = s.journal ++ cellsFrom s.snkPos.toNat bs := by simp [appended]

/-- From `s` to `t` a run of bytes was written at the end of the sink, and nothing else (R74). -/
def SinkExtended (s t : State) : Prop := ∃ bytes,
  t.journal = s.journal ++ cellsFrom s.snkSize.toNat bytes ∧ t.snkSize.toNat = s.snkSize.toNat + bytes.length

theorem SinkExtended.same {s t : State} (hj : t.journal = s.journal) (hs : t.snkSize = s.snkSize) :
    SinkExtended s t :=
  ⟨[], by simp [hj, cellsFrom], by simp [hs]⟩

/-- Bytes in sequence go to the end of the sink where `SNK_POS` stands there (R30, R74). -/
theorem SinkExtended.appended {s t : State} {bytes : List Byte} (hj : t.journal = s.journal)
    (hs : t.snkSize = s.snkSize) (hend : t.snkPos = t.snkSize) (hfit : Fits bytes t) :
    SinkExtended s (appended bytes t) := by
  refine ⟨bytes, by rw [appended_journal, hj, hend, hs], ?_⟩
  rw [← appended_end hend hfit, hfit.snkPos, hend, hs]

/-- A chunk step's walk, as it was entered at the source position `pos` (R204, R211). -/
theorem SinkExtended.walked {s : State} {out : List Symbol} (hend : s.snkPos = s.snkSize) (hfit : Fits out s)
    (rest c : Bits) (pos : BitVec 64) : SinkExtended s (walked out rest c { s with srcPos := pos }) :=
  .appended (t := { s with srcPos := pos, bitbuf := rest, cand := c }) rfl rfl hend hfit

theorem SinkExtended.raise {s t : State} (h : SinkExtended s t) (e : ErrorKind) : SinkExtended s (raise e t) := h

/-- `readHeader` writes nothing (R202). -/
theorem parseHeader_extends {s : State} (h : Inv s) : (parseHeader s).Ends (SinkExtended s) (SinkExtended s) := by
  refine ((readHeader_ends s h.dec_wf).weaken (fun _ ht => ht) ?_).andThen ?_
  · rintro t ⟨p, T, n, d, b, -, rfl⟩
    exact .same rfl rfl
  · rintro t ⟨p, T, n, d, -, -, rfl⟩
    exact .same rfl rfl

/-- The chunk step writes the symbols it matched, whether it raises or not (R204, R211). -/
theorem decodeChunk_extends {s : State} (h : Inv s) : (decodeChunk s).Ends (SinkExtended s) (SinkExtended s) := by
  refine (decodeChunk_ends s).weaken ?_ ?_
  · rintro t ⟨out, c, hfit, -, rfl⟩
    exact .walked h.position_at_end hfit [] c _
  · rintro t ⟨out, rest, c, hfit, -, rfl⟩
    exact .raise (.walked h.position_at_end hfit rest c _) _

theorem decoderTransition_extends {s : State} (h : Inv s) :
    (decoderTransition s).Ends (SinkExtended s) (SinkExtended s) :=
  decoderTransition_ends (fun _ => parseHeader_extends h) (fun _ => SinkExtended.same rfl rfl)
    (fun _ _ => decodeChunk_extends h) (fun _ _ _ => SinkExtended.same rfl rfl)

/-- What ENCODE has written when pass 2 begins: the header in the order of `writeHeader` (R72, R152 to R155). -/
theorem passTwo_journal (p : Params) (source : List Byte) : (passTwo p source).journal =
    cellsFrom 0 [0x00, 0x00, 0x00, 0x00, 0x00] ++ cellsFrom 5 (packBits (tableBits (codesOf (countsOf source)))) ++
      cellsFrom 1 (Bit.le32 (passTwo p source).tlen) := rfl

/-- The payload begins where the header ends (R155). -/
theorem passTwo_snkPos (p : Params) (source : List Byte) :
    (passTwo p source).snkPos = (passTwo p source).payloadOff := rfl

end Sys2Proof.Machine

open Sys2Proof Sys2Proof.Machine

/-- Settles O13: three moves wait for an idle engine; a source byte can change then and in the phases 1 to 3 of ENCODE. -/
theorem hostBreachesAreRefused : Obligations.HostBreachesAreRefused := by
  unfold Obligations.HostBreachesAreRefused
  refine fun s => ⟨fun hb => ⟨provideSource_of_busy hb, whenIdle_of_busy hb _, fun n => whenIdle_of_busy hb _,
    fun a b h => changeSource_refused hb ?_ a b⟩, fun a b ha h => ?_⟩
  · rw [betweenPasses_iff]
    rintro ⟨-, hmode, hphase⟩
    rcases h with h | h | h
    · simp [hmode] at h
    all_goals simp [h] at hphase
  · have hfree : s.status.busy = false ∨ betweenPasses s = true := by
      rw [betweenPasses_iff]
      cases hb : s.status.busy with
      | false => exact Or.inl rfl
      | true => exact Or.inr ⟨rfl, h.resolve_left (by simp [hb])⟩
    exact ⟨_, changeSource_next hfree ha b, Memory.read_write_same _ a b,
      fun k hk => Memory.read_write_ne _ b hk.symm⟩

/-- Settles O58: every piece of the engine's pseudocode keeps the inputs and records its writes. -/
theorem theEngineOnlyWritesTheSink : Obligations.TheEngineOnlyWritesTheSink := by
  unfold Obligations.TheEngineOnlyWritesTheSink
  intro s t h
  obtain ⟨hinputs, hlogs⟩ := engineMove_moves h
  exact ⟨⟨hinputs.params, hinputs.srcSize, hinputs.src, hinputs.host⟩, hlogs.writes⟩

/-- Settles O59: every piece of the engine's pseudocode runs beside itself on a sink with other bytes. -/
theorem theEngineNeverReadsTheSink : Obligations.TheEngineNeverReadsTheSink := by
  unfold Obligations.TheEngineNeverReadsTheSink
  intro s m
  have htwin := engineMove_twin s m
  cases h : engineMove s <;> rw [h] at htwin <;> exact htwin

/-- Settles O60: DECODE writes in its chunk steps alone, in sequence from `SNK_POS`, which the invariant puts at the end. -/
theorem decodeNeverSeeksTheSink : Obligations.DecodeNeverSeeksTheSink := by
  unfold Obligations.DecodeNeverSeeksTheSink
  intro s t h hb hm ht
  rw [engineMove, if_pos hb, engineTransition, if_pos hm] at ht
  exact (decoderTransition_extends h).of_outcome ht

/-- Settles O44: the record of the whole run is the header's, the payload's one run in sequence, and byte 0. -/
theorem encodeWritesInOrder : Obligations.EncodeWritesInOrder := by
  unfold Obligations.EncodeWritesInOrder
  intro p source hl
  refine ⟨_, _, encode_run p source hl, rfl, ?_⟩
  simp [passTwo_journal, passTwo_snkPos, cellsFrom]

end

section
/-! PROOFS. The encodings (spec/30_encoding.md rules R91 to R102): what the decoder reads in each format, stated once per
format with the bits behind it kept, and so that decoding an encoding gives the operation back; and what the three container
records do by themselves (spec/42_container.md rules R156 to R159; spec/44_decoder.md rule R211; assumption 16). -/

namespace Sys2Proof

/-! ### One decoding lemma per format -/

theorem take_bits8_append (v : Byte) (s : Bits) : (Bit.bits8 v ++ s).take 8 = Bit.bits8 v :=
  List.take_left' (Bit.bits8_length v)

theorem drop_bits8_append (v : Byte) (s : Bits) : (Bit.bits8 v ++ s).drop 8 = s :=
  List.drop_left' (Bit.bits8_length v)

theorem not_bits8_append_short (v : Byte) (s : Bits) : ¬ (Bit.bits8 v ++ s).length < 8 := by
  rw [List.length_append, Bit.bits8_length]; omega

/-- A command is one byte (R91). -/
theorem decodeRest_cmd (w : Byte) (rest : Bits) :
    decodeRest .cmd (Bit.bits8 w ++ rest) = (decodeCmd w).map fun i => (i, rest) := by
  simp only [decodeRest, if_neg (not_bits8_append_short w rest), take_bits8_append, drop_bits8_append, Bit.byteOf_bits8]

/-- A unit operation is its label and operand bytes to the end (assumption 3). -/
theorem decodeRest_uop (label : Byte) (operand : List Byte) :
    decodeRest .uop (Bit.bits8 label ++ Bit.unpack operand) = (decodeUop label operand).map fun i => (i, []) := by
  have hoperand : Bit.packGroups ((Bit.unpack operand).length / 8) (Bit.unpack operand) = operand := by
    rw [Bit.unpack_length, Nat.mul_div_cancel_left _ (by decide)]
    simpa using Bit.packGroups_unpack operand []
  simp only [decodeRest, if_neg (not_bits8_append_short label _), take_bits8_append, drop_bits8_append, Bit.byteOf_bits8,
    hoperand]

/-- The fixed header is the padding byte and four bytes of `T`, least significant first (R92). -/
theorem decodeRest_hdr (pad : Byte) {t : List Byte} (ht : t.length = 4) (rest : Bits) :
    decodeRest .hdr (Bit.unpack (pad :: t) ++ rest) = .ok (.hdr pad (Bit.unle32 t), rest) := by
  have hlen : (Bit.unpack (pad :: t)).length = 40 := by rw [Bit.unpack_length, List.length_cons, ht]
  have hshort : ¬ (Bit.unpack (pad :: t) ++ rest).length < 40 := by rw [List.length_append]; omega
  have hbytes : Bit.packGroups 5 (Bit.unpack (pad :: t) ++ rest) = pad :: t := by
    simpa [ht] using Bit.packGroups_unpack (pad :: t) rest
  simp only [decodeRest, decodeHdr, if_neg hshort, hbytes, List.drop_left' hlen]

/-- A table entry with enough bits is the three fields that the entry loop reads (R97, R102). -/
theorem decodeRest_ent_fields {bits : Bits} (h : 16 + Machine.entryLength bits ≤ bits.length) :
    decodeRest .ent bits =
      .ok (.ent (Machine.entrySymbol bits) (Machine.entryCode bits), (bits.drop 16).drop (Machine.entryLength bits)) := by
  have hbody : ¬ (bits.drop 16).length < Machine.entryLength bits := by rw [List.length_drop]; omega
  exact (if_neg (by omega)).trans (if_neg hbody)

/-- A table entry is read back whatever follows it (R97). -/
theorem decodeRest_ent (b : Symbol) {c : Bits} (hc : c.length ≤ 255) (rest : Bits) :
    decodeRest .ent (Bit.bits8 b ++ Bit.bits8 (BitVec.ofNat 8 c.length) ++ c ++ rest) = .ok (.ent b c, rest) := by
  have hL := Machine.entryLength_bits b rest hc
  have hlen : (Bit.bits8 b ++ Bit.bits8 (BitVec.ofNat 8 c.length) ++ c).length = 16 + c.length := by
    simp only [List.length_append, Bit.bits8_length]
  rw [decodeRest_ent_fields (by rw [hL, List.length_append, hlen]; omega), hL, Machine.entrySymbol_bits,
    Machine.entryCode_bits b rest hc, List.drop_drop, List.drop_left' hlen]

/-- A payload code is the bits given (R101). -/
theorem decodeRest_cod {c : Bits} (h : payloadCodeFits c = true) : decodeRest .cod c = .ok (.cod c, []) := by
  simp only [decodeRest, decodeCod, if_pos h, Except.map]

/-! ### Decoding an encoding -/

theorem decode_of_decodeRest {f : Format} {bits rest : Bits} {i : Instr} (h : decodeRest f bits = .ok (i, rest)) :
    decode f bits = .ok i := by
  rw [decode, h]; rfl

/-- The encoding of a well-formed operation is read back to its last bit (R91 to R101). -/
theorem decodeRest_encode {i : Instr} (h : i.wf = true) : decodeRest i.format (encode i) = .ok (i, []) := by
  cases i with
  | encode => exact decodeRest_cmd 0x01#8 []
  | decode => exact decodeRest_cmd 0x02#8 []
  | appendByte n =>
    refine (decodeRest_uop 0x10#8 (Bit.leBytes n n)).trans ?_
    show Except.ok (Instr.appendByte (Bit.unle (Bit.leBytes n n)), []) = _
    rw [Bit.unle_leBytes n n (Nat.le_refl n)]
  | drainBytes flush =>
    refine (decodeRest_uop 0x11#8 [if flush then 0x01#8 else 0x00#8]).trans ?_
    cases flush <;> rfl
  | buildTree => exact decodeRest_uop 0x20#8 []
  | generateCodes => exact decodeRest_uop 0x21#8 []
  | writeHeader => exact decodeRest_uop 0x30#8 []
  | readHeader => exact decodeRest_uop 0x31#8 []
  | hdr pad T => simpa [Instr.format, encode] using decodeRest_hdr pad (Bit.le32_length T) []
  | ent b c => simpa [Instr.format, encode] using decodeRest_ent b (of_decide_eq_true h) []
  | cod c => exact decodeRest_cod h

/-- The number of four little-endian bytes (R64). -/
theorem unle32_toNat (a b c d : Byte) :
    (Bit.unle32 [a, b, c, d]).toNat = a.toNat + 256 * b.toNat + 65536 * c.toNat + 16777216 * d.toNat := by
  have ha := a.isLt; have hb := b.isLt; have hc := c.isLt; have hd := d.isLt
  simp only [Bit.unle32, Bit.unle, BitVec.toNat_ofNat]
  omega

namespace Machine

/-! ### The container records by themselves -/

/-- The record `ENT` within `T`: the entry loop's insertion and count (R158, R159). -/
theorem execEnt_within {s : State} {c : Bits} (b : Symbol) (h : s.hbits.toNat + 16 + c.length ≤ s.tlen.toNat) :
    execEnt b c s =
      .next { s with dec := s.dec.insert c b, hbits := s.hbits + BitVec.ofNat 32 (16 + c.length) } := by
  rw [execEnt, if_neg (by omega), takeEntry, if_neg (by omega), Flow.outcome_on]

/-- The record `ENT` beyond `T`: one of the entry loop's two checks fails (R231 (c), (d)). -/
theorem execEnt_beyond {s : State} {c : Bits} (b : Symbol) (h : s.tlen.toNat < s.hbits.toNat + 16 + c.length) :
    execEnt b c s = .next (raise .malformedHeader s) := by
  have htake : takeEntry b c.length c s = .raised (raise .malformedHeader s) := if_pos h
  rw [execEnt, htake, ite_self, Flow.outcome_raised]

/-- A count of bits that ends within `T` does not wrap (R153, R158). -/
theorem toNat_hbits_add {s : State} {n : Nat} (h : s.hbits.toNat + n ≤ s.tlen.toNat) :
    (s.hbits + BitVec.ofNat 32 n).toNat = s.hbits.toNat + n := by
  have hT := s.tlen.isLt
  rw [BitVec.toNat_add, BitVec.toNat_ofNat, Nat.add_mod_mod, Nat.mod_eq_of_lt (by omega)]

theorem with_bitbuf_cand_eq_self {s : State} {buf c : Bits} (hbuf : s.bitbuf = buf) (hcand : s.cand = c) :
    { s with bitbuf := buf, cand := c } = s := by
  subst hbuf hcand; rfl

section
variable {s : State} {code : Bits} (hpos : 1 ≤ code.length) (hlen : code.length ≤ 255) (hbuf : s.bitbuf = [])
  (hcand : s.cand = []) (hshorter : ∀ n, 1 ≤ n → n < code.length → s.dec.lookup (code.take n) = none)
include hpos hlen hbuf hcand hshorter

/-- The record `COD` with nothing before its bits takes one code from them: a key's symbol is written in sequence, bits that
are no key stay in the candidate (R101, R211). -/
theorem execCod_on_empty_buffer :
    (∀ y, s.dec.lookup code = some y → s.snkPos.toNat + 1 < Config.spaceSize →
      execCod code s = .next (appended [y] s)) ∧
    (s.dec.lookup code = none → execCod code s = .next { s with cand := code }) := by
  have happ : appendBits code s = { s with bitbuf := code } := by rw [appendBits, hbuf, List.nil_append]
  obtain ⟨hkey, hnokey⟩ := takeCode_run code { s with bitbuf := code } rfl code (by rw [hcand, List.nil_append]) hlen
    (List.ne_nil_of_length_pos hpos) fun n hn => hshorter n (by rw [hcand] at hn; exact hn)
  rw [execCod, happ]
  refine ⟨fun y hy hroom => ?_, fun hy => ?_⟩
  · rw [hkey y hy hroom, Flow.outcome_on]
    exact congrArg (fun u => Host.Outcome.next (appended [y] u)) (with_bitbuf_cand_eq_self hbuf hcand)
  · rw [hnokey hy, Flow.outcome_on, ← hbuf]

end

/-- One byte written in sequence: only the sink, its size, the position and the record of writes change (R30, R63). -/
theorem appended_singleton (y : Byte) (s : State) :
    appended [y] s = { s with
      snk := (appended [y] s).snk
      snkSize := (appended [y] s).snkSize
      snkPos := s.snkPos + 1
      journal := (appended [y] s).journal } := rfl

theorem appended_singleton_size {y : Byte} {s : State} (h : s.snkPos.toNat + 1 < 2 ^ 64) :
    (appended [y] s).snkSize.toNat = max s.snkSize.toNat (s.snkPos.toNat + 1) :=
  written_size s.snkPos.toNat [y] s fun _ => h

end Machine

end Sys2Proof

open Sys2Proof Sys2Proof.Machine

/-- Settles O4: one decoding lemma per format, with the operation's own operands. -/
theorem decodeInvertsEncode : Obligations.DecodeInvertsEncode := by
  unfold Obligations.DecodeInvertsEncode
  exact fun i h => decode_of_decodeRest (decodeRest_encode h)

/-- Settles O2: the five bytes are packed from their forty bits, and the last four are the digits of `T`. -/
theorem headerFieldsStandAtTheirOffsets : Obligations.HeaderFieldsStandAtTheirOffsets := by
  unfold Obligations.HeaderFieldsStandAtTheirOffsets
  intro pad t0 t1 t2 t3
  have hdec := decodeRest_hdr pad (t := [t0, t1, t2, t3]) rfl []
  rw [List.append_nil] at hdec
  exact ⟨Bit.unle32 [t0, t1, t2, t3], decode_of_decodeRest hdec, unle32_toNat t0 t1 t2 t3⟩

/-- Settles O3: the entry is read back by its fields; its length is that of its format; a table has at most 256 entries. -/
theorem entryFieldsFollowOneAnother : Obligations.EntryFieldsFollowOneAnother := by
  unfold Obligations.EntryFieldsFollowOneAnother
  refine ⟨fun b c rest hc => ?_, fun code h => tableBits_length_le h⟩
  obtain ⟨hlen, -⟩ := Laws.EncodedLength.ent b c (decide_eq_true hc)
  exact ⟨decodeRest_ent b hc rest, hlen, by omega⟩

/-- Settles O35: the two cases of the entry loop's checks. -/
theorem entIsInsertedOrMalformed : Obligations.EntIsInsertedOrMalformed := by
  unfold Obligations.EntIsInsertedOrMalformed
  refine fun s b c _ => ⟨fun h => ?_, fun h => ⟨_, execEnt_beyond b h, rfl⟩⟩
  refine ⟨_, execEnt_within b h, rfl, ?_, fun k => ?_⟩
  · rw [Nat.add_assoc] at h ⊢
    exact toNat_hbits_add h
  · rw [DecTable.lookup_insert]
    simp only [eq_comm (a := c)]

/-- Settles O36: the code's bits leave the buffer one by one, and only the whole of them can match. -/
theorem codEmitsTheSymbolOfItsKey : Obligations.CodEmitsTheSymbolOfItsKey := by
  unfold Obligations.CodEmitsTheSymbolOfItsKey
  intro s code hpos hlen hbuf hcand hshorter
  obtain ⟨hkey, hnokey⟩ := execCod_on_empty_buffer hpos hlen hbuf hcand hshorter
  refine ⟨fun y hy hroom => ?_, hnokey⟩
  obtain ⟨hholds, hkept⟩ := appended_sinkHolds [y] s
  exact ⟨_, hkey y hy hroom, appended_singleton y s, appended_singleton_size hroom, hholds, hkept⟩

/-- Settles O1: each word evaluates to its operation. -/
theorem writtenOutWordsDecode : Obligations.WrittenOutWordsDecode := by
  unfold Obligations.WrittenOutWordsDecode
  exact ⟨rfl, rfl, rfl, rfl, rfl, rfl, rfl, rfl⟩

/-- Settles O34: `HDR` is `readHeader`'s load of the fixed fields. -/
theorem hdrEntersItsRegisters : Obligations.HdrEntersItsRegisters := by
  unfold Obligations.HdrEntersItsRegisters
  exact fun s pad T => rfl

end

section
/-! PROOFS. The packing of bits into bytes (spec/40_bitpacker.md rules R121 to R123): the two operations on any
buffer, and the drains of a run of appended bit sequences. -/

namespace Sys2Proof.Machine

/-- The eight bits of a number modulo 256, the most significant first (R10, R12 (a)). -/
theorem bits8_ofNat (n : Nat) :
    Bit.bits8 (BitVec.ofNat 8 n) = (List.range 8).map fun k => (n % 256).testBit (7 - k) := by
  simp only [Bit.bits8, BitVec.getLsbD, BitVec.toNat_ofNat]
  rfl

/-- `drainBytes` by itself on any state: the rest in the buffer, and the returned bytes in the record (R122). -/
theorem exec_drainBytes (flush : Bool) (s : State) :
    exec (.drainBytes flush) s =
      .next { s with bitbuf := drainedRest flush s.bitbuf, drained := drainedBytes flush s.bitbuf } := rfl

/-- Numbers appended one after the other put the bits of their bytes behind the buffer (R121). -/
theorem foldl_appendByte (ns : List Nat) (s : State) :
    ns.foldl (fun t n => appendByte n t) s =
      { s with bitbuf := s.bitbuf ++ Bit.unpack (ns.map (BitVec.ofNat 8)) } := by
  induction ns generalizing s with
  | nil => simp
  | cons n ns ih =>
    rw [List.foldl_cons, ih]
    simp [appendByte_eq]

/-- A drain without flush returns the whole groups of eight bits from the front of the buffer (R122). -/
theorem unpack_drainedBytes_false (buf : Bits) :
    Bit.unpack (drainedBytes false buf) = buf.take (8 * (buf.length / 8)) := by
  rw [drainedBytes_false, Bit.unpack_packGroups _ _ (by omega)]

/-- A run of appended bit sequences and drains returns the bytes of one flushing drain of all the bits: a drain in between
only moves bytes forward (`drained_split`, R123 (c)). -/
theorem packRun_eq_drainedBytes (ops : List (Option Bits)) (buf : Bits) :
    packRun ops buf = drainedBytes true (buf ++ (ops.filterMap id).flatten) := by
  induction ops generalizing buf with
  | nil => simp [packRun]
  | cons op ops ih =>
    cases op with
    | none =>
      calc packRun (none :: ops) buf
          = drainedBytes false buf ++ packRun ops (drainedRest false buf) := rfl
        _ = drainedBytes true (buf ++ (ops.filterMap id).flatten) := by rw [ih, drained_split]
    | some x =>
      calc packRun (some x :: ops) buf
          = packRun ops (buf ++ x) := rfl
        _ = drainedBytes true (buf ++ (x ++ (ops.filterMap id).flatten)) := by rw [ih, List.append_assoc]

end Sys2Proof.Machine

open Sys2Proof Sys2Proof.Machine

/-- Settles O16: the two drains of the buffer, each by its length and its bits. -/
theorem drainBytesPacksFromTheFront : Obligations.DrainBytesPacksFromTheFront := by
  unfold Obligations.DrainBytesPacksFromTheFront
  refine fun s flush => ⟨_, _, exec_drainBytes flush s, ?_, ?_⟩
  · rintro rfl
    exact ⟨drainedBytes_false_length _, unpack_drainedBytes_false _, drainedRest_false _⟩
  · rintro rfl
    exact ⟨drainedBytes_true_length _, unpack_drained_true _, drainedRest_true _⟩

/-- Settles O17: whole bytes come back as they are, a flushing drain leaves nothing and spells the buffer, and a drain
without flush leaves the length modulo 8. -/
theorem appendAndDrainAreInverse : Obligations.AppendAndDrainAreInverse := by
  unfold Obligations.AppendAndDrainAreInverse
  refine ⟨fun s ns flush hs => ?_, fun s t hst => ?_, fun s t hst => ?_⟩
  · rw [foldl_appendByte, exec_drainBytes, hs, List.nil_append, drainedBytes_unpack, drainedRest_unpack, ← hs]
  · cases hst
    exact ⟨rfl, (congrArg State.bitbuf (appendBytes_eq _ _)).trans (unpack_drained_true s.bitbuf)⟩
  · cases hst
    have hrest := drainedRest_length s.bitbuf
    exact (show (drainedRest false s.bitbuf).length ≤ 7 by omega)

/-- Settles O18, by induction on the run. -/
theorem whereABufferIsDrainedDoesNotMatter : Obligations.WhereABufferIsDrainedDoesNotMatter := by
  unfold Obligations.WhereABufferIsDrainedDoesNotMatter
  exact packRun_eq_drainedBytes

/-- Settles O15: the appended bits are those of the operand's byte. -/
theorem appendByteAddsEightBits : Obligations.AppendByteAddsEightBits := by
  unfold Obligations.AppendByteAddsEightBits
  intro s n
  rw [← bits8_ofNat]
  exact congrArg Host.Outcome.next (appendByte_eq n s)

end

section
/-! PROOFS. The tree and its codes (spec/41_codetree.md rules R131 to R140): the registers `buildTree` leaves, the order of
the inner nodes' weights, when `generateCodes` completes, and the codes as ways down the tree. -/

namespace Sys2Proof.Machine

/-! ### The registers of the tree -/

theorem buildTree_nleaf (s : State) : (buildTree s).nleaf = BitVec.ofNat 9 (present s.freq).length := by
  obtain ⟨nodes, m, root, he, -⟩ := buildTree_spec s
  rw [he]

theorem buildTree_nleaf_toNat (s : State) : (buildTree s).nleaf.toNat = (occurring s.freq).length := by
  have hle := present_length_le s.freq
  rw [buildTree_nleaf, occurring_length, BitVec.toNat_ofNat]
  omega

/-- `buildTree` writes the registers of the tree and empties `PQ`; nothing else differs (R42, R132). -/
theorem buildTree_frame (s : State) :
    buildTree s = { s with
      node := (buildTree s).node
      pq := []
      nnodes := (buildTree s).nnodes
      nleaf := (buildTree s).nleaf
      root := (buildTree s).root } := by
  obtain ⟨nodes, m, root, he, -⟩ := buildTree_spec s
  rw [he]

/-- The tree of `FREQ`, as it stands in the registers `NODE`, `NNODES` and `ROOT`. -/
theorem buildTree_built (s : State) :
    Built s.freq (buildTree s).node (buildTree s).nnodes.toNat (buildTree s).root := by
  obtain ⟨nodes, m, root, he, hB⟩ := buildTree_spec s
  obtain ⟨q, hF, -, -⟩ := hB.forest
  have hcount := hF.count
  have hfits := hF.fits
  have hm : (BitVec.ofNat 10 m).toNat = m := by rw [BitVec.toNat_ofNat]; omega
  rw [he]
  exact hm.symm ▸ hB

/-! ### The order of the inner nodes -/

/-- The next inner node weighs no less: either it is a parent of this one, or both of its children were still free when
this one took the two lowest (R132, R133). -/
theorem Forest.weight_le_succ {n m : Nat} {nodes : RegFile 511 Node} {q : List NodeId} (h : Forest n m nodes q)
    (hjoin : JoinsLowest m nodes) (hexact : ExactWeights m nodes) {i j : NodeId} (hi : n ≤ i.val)
    (hij : j.val = i.val + 1) (hj : j.val < m) : (nodes.get i).weight.toNat ≤ (nodes.get j).weight.toNat := by
  obtain ⟨-, a, b, -, hal, hbr, -, -, hpa, hpb, -⟩ := h.inner i hi (by omega)
  obtain ⟨-, c, d, -, hcl, hdr, hcj, hdj, hpc, hpd, -⟩ := h.inner j (by omega) hj
  have hwi := hexact i a b (by omega) hal hbr
  have hwj := hexact j c d hj hcl hdr
  obtain ⟨hab, hfree⟩ := hjoin i a b (by omega) hal hbr
  rw [nodeBefore_iff] at hab
  have hne : i ≠ j := fun e => by rw [e] at hij; omega
  have hlowest : ∀ k : NodeId, k < j → (nodes.get k).parent = some j → k ≠ i →
      (nodes.get b).weight.toNat ≤ (nodes.get k).weight.toNat := by
    intro k hkj hpk hki
    have hka : k ≠ a := by rintro rfl; exact hne (Option.some.inj (hpa.symm.trans hpk))
    have hkb : k ≠ b := by rintro rfl; exact hne (Option.some.inj (hpb.symm.trans hpk))
    have hlt : k < i := by
      have : k.val ≠ i.val := fun e => hki (Fin.ext e)
      rw [Fin.lt_def] at hkj ⊢; omega
    have hbk := hfree k hlt hka hkb fun p hp => by
      rw [← Option.some.inj (hpk.symm.trans hp), Fin.lt_def]; omega
    rw [nodeBefore_iff] at hbk
    omega
  by_cases hci : c = i
  · subst hci; omega
  · by_cases hdi : d = i
    · subst hdi; omega
    · have hbc := hlowest c hcj hpc hci
      have hbd := hlowest d hdj hpd hdi
      omega

/-- The inner nodes weigh no less the later they were made (R133). -/
theorem Forest.weight_mono {n m : Nat} {nodes : RegFile 511 Node} {q : List NodeId} (h : Forest n m nodes q)
    (hjoin : JoinsLowest m nodes) (hexact : ExactWeights m nodes) {i : NodeId} (hi : n ≤ i.val) (k : Nat) :
    ∀ j : NodeId, j.val = i.val + k → j.val < m → (nodes.get i).weight.toNat ≤ (nodes.get j).weight.toNat := by
  induction k with
  | zero =>
    intro j hj _
    obtain rfl : j = i := Fin.ext hj
    exact Nat.le_refl _
  | succ k ih =>
    intro j hj hjm
    obtain ⟨j', hj'⟩ : ∃ j' : NodeId, j'.val = i.val + k := ⟨⟨i.val + k, by omega⟩, rfl⟩
    calc (nodes.get i).weight.toNat
        ≤ (nodes.get j').weight.toNat := ih j' hj' (by omega)
      _ ≤ (nodes.get j).weight.toNat := h.weight_le_succ hjoin hexact (by omega) (by omega) hjm

/-! ### `generateCodes` on any arena -/

/-- Every parent was made after its child (R33). -/
def ParentsRise (nodes : RegFile 511 Node) : Prop := ∀ i p : NodeId, (nodes.get i).parent = some p → i < p

/-- Where parents rise, the walk up ends: there are only so many ids above a node (R135). -/
theorem climb_completes {nodes : RegFile 511 Node} (h : ParentsRise nodes) (fuel : Nat) (j : NodeId) (c : Bits)
    (hfuel : 511 ≤ fuel + 1 + j.val) : ∃ path, climb nodes fuel j c = .ok path := by
  induction fuel generalizing j c with
  | zero =>
    cases hp : (nodes.get j).parent with
    | none => exact ⟨c, by rw [climb, hp]⟩
    | some p => have := h j p hp; rw [Fin.lt_def] at this; omega
  | succ fuel ih =>
    cases hp : (nodes.get j).parent with
    | none => exact ⟨c, by rw [climb, hp]⟩
    | some p =>
      have hjp := h j p hp
      rw [Fin.lt_def] at hjp
      obtain ⟨path, he⟩ := ih p ((if (nodes.get p).left = some j then false else true) :: c) (by omega)
      exact ⟨path, by rw [climb, hp]; exact he⟩

/-- One code entered: the element's symbol has a code now, and so has every symbol that had one (R135). -/
theorem setCode_completes {i : NodeId} {s : State} (h : (nodeAt s i).sym.isSome = true) (c : Bits) :
    ∃ code, setCode i c s = .on { s with code := code } ∧
      ∀ b, (code.get (symIndex b)).isSome = true ↔
        (nodeAt s i).sym = some b ∨ (s.code.get (symIndex b)).isSome = true := by
  obtain ⟨b₀, hb₀⟩ := Option.isSome_iff_exists.1 h
  refine ⟨s.code.set (symIndex b₀) (some c), by rw [setCode, hb₀], fun b => ?_⟩
  rw [RegFile.get_set, hb₀]
  by_cases hb : b₀ = b
  · simp [hb]
  · simp [hb, symIndex_inj]

/-- Where parents rise and the elements hold symbols, `n` elements from `i` on get their codes (R135). -/
theorem codeLeaves_completes (n i : Nat) (s : State) (hrise : ParentsRise s.node) (hin : i + n ≤ 511)
    (hsym : ∀ j : NodeId, i ≤ j.val → j.val < i + n → (nodeAt s j).sym.isSome = true) :
    ∃ code, codeLeaves n i s = .on { s with code := code } ∧
      ∀ b, (code.get (symIndex b)).isSome = true ↔
        (∃ j : NodeId, i ≤ j.val ∧ j.val < i + n ∧ (nodeAt s j).sym = some b) ∨
          (s.code.get (symIndex b)).isSome = true := by
  induction n generalizing i s with
  | zero =>
    refine ⟨s.code, rfl, fun b => ⟨Or.inr, ?_⟩⟩
    rintro (⟨j, hij, hji, -⟩ | h)
    · omega
    · exact h
  | succ n ih =>
    have hv : (Fin.ofNat 511 i : NodeId).val = i := val_ofNat (by omega)
    obtain ⟨c, hc⟩ := climb_completes hrise Config.maxNodes (Fin.ofNat 511 i) [] (by simp only [Config.maxNodes]; omega)
    obtain ⟨code, hset, hcode⟩ := setCode_completes (hsym (Fin.ofNat 511 i) (by omega) (by omega)) c
    obtain ⟨code', hrest, hcode'⟩ := ih (i + 1) { s with code := code } hrise (by omega)
      fun j hij hji => hsym j (by omega) (by omega)
    refine ⟨code', by rw [codeLeaves, hc, withValue_ok, hset, Flow.andThen_on, hrest], fun b => ?_⟩
    rw [hcode' b, hcode b]
    constructor
    · rintro (⟨j, hij, hji, hj⟩ | hi | hold)
      · exact Or.inl ⟨j, by omega, by omega, hj⟩
      · exact Or.inl ⟨Fin.ofNat 511 i, by omega, by omega, hi⟩
      · exact Or.inr hold
    · rintro (⟨j, hij, hji, hj⟩ | hold)
      · rcases Nat.eq_or_lt_of_le hij with hij | hij
        · rw [show j = Fin.ofNat 511 i from Fin.ext (by omega)] at hj
          exact Or.inr (Or.inl hj)
        · exact Or.inl ⟨j, hij, by omega, hj⟩
      · exact Or.inr (Or.inr hold)

/-- `generateCodes` completes where parents rise and the leaves hold symbols: the leaves' symbols get codes (R134, R135). -/
theorem generateCodes_completes (s : State) (hrise : ParentsRise s.node)
    (hsym : ∀ i : NodeId, i.val < s.nleaf.toNat → (nodeAt s i).sym.isSome = true) :
    ∃ code, generateCodes s = .on { s with code := code } ∧
      ∀ b, (code.get (symIndex b)).isSome = true ↔ ∃ i : NodeId, i.val < s.nleaf.toNat ∧ (nodeAt s i).sym = some b := by
  have hclear (b : Symbol) : ¬ ((clearCodes s).code.get (symIndex b)).isSome = true := by
    simp [clearCodes, RegFile.get_fill]
  rw [generateCodes]
  split
  · next hone =>
    obtain ⟨code, he, hcode⟩ := setCode_completes (s := clearCodes s) (hsym 0 (by simp [hone])) [false]
    refine ⟨code, he, fun b => ?_⟩
    rw [hcode b, or_iff_left (hclear b)]
    constructor
    · exact fun h => ⟨0, by simp [hone], h⟩
    · rintro ⟨i, hi, h⟩
      rw [show i = 0 from Fin.ext (show i.val = 0 by omega)] at h
      exact h
  · have hlt := s.nleaf.isLt
    obtain ⟨code, he, hcode⟩ := codeLeaves_completes s.nleaf.toNat 0 (clearCodes s) hrise (by omega)
      fun j _ hj => hsym j (by omega)
    refine ⟨code, he, fun b => ?_⟩
    rw [hcode b, or_iff_left (hclear b)]
    simp only [Nat.zero_le, true_and, Nat.zero_add]
    exact Iff.rfl

/-! ### The codes of the counters -/

/-- The two operations together leave the tree and the codes of the counters (R135, R140, R174). -/
theorem codedFrom_iff {s u : State} : CodedFrom s u ↔ u = { buildTree s with code := codesOf s.freq } := by
  have hrun : exec .generateCodes (buildTree s) = .next { buildTree s with code := codesOf s.freq } := by
    rw [exec, execGenerateCodes, (makeCodes_spec s).1, Flow.outcome_on]
  constructor
  · rintro ⟨t, ht, hu⟩
    cases ht
    exact (Host.Outcome.next.inj (hrun.symm.trans hu)).symm
  · rintro rfl
    exact ⟨buildTree s, rfl, hrun⟩

/-- After both operations the codes are those of the counters. -/
theorem CodedFrom.codeOf_eq {s u : State} (h : CodedFrom s u) (b : Symbol) :
    codeOf u b = (codesOf s.freq).get (symIndex b) := by
  rw [codedFrom_iff.1 h]; rfl

/-- The code of the `j`-th occurring symbol: `[0]` when it is alone, else its leaf's way (R134, R135). -/
theorem codesOf_present (s : State) {j : Nat} (hj : j < (present s.freq).length) :
    (codesOf s.freq).get (symIndex (present s.freq)[j].1) =
      some (if (present s.freq).length = 1 then [false] else pathOf (buildTree s).node j) := by
  obtain ⟨code, he, -, hcode⟩ := generateCodes_spec (buildTree s) (buildTree_built s) (buildTree_nleaf s)
  have hcodes : code = codesOf s.freq := congrArg State.code (Flow.on.inj (he.symm.trans (makeCodes_spec s).1))
  rw [← hcodes]
  exact hcode j hj

/-- A symbol with a code is one of the occurring ones. -/
theorem codesOf_some (s : State) {b : Symbol} {c : Bits} (h : (codesOf s.freq).get (symIndex b) = some c) :
    ∃ j, ∃ _ : j < (present s.freq).length, (present s.freq)[j].1 = b :=
  present_index.1 (((makeCodes_spec s).2.present_iff b).1 (by rw [h]; rfl))

/-- For two or more symbols a code leads from the root to its symbol's leaf (R135). -/
theorem codesOf_leads (s : State) (hN : 2 ≤ (present s.freq).length) {b : Symbol} {c : Bits}
    (h : (codesOf s.freq).get (symIndex b) = some c) :
    ∃ r i, (buildTree s).root = some r ∧ follow (buildTree s).node r c = some i ∧
      ((buildTree s).node.get i).sym = some b := by
  have hle := present_length_le s.freq
  obtain ⟨j, hj, rfl⟩ := codesOf_some s h
  rw [codesOf_present s hj, if_neg (by omega)] at h
  cases h
  obtain ⟨-, -, -, r, hroot, hway⟩ := (buildTree_built s).path hj
  obtain ⟨-, hsym, -⟩ := (buildTree_built s).leaf j hj (Fin.ofNat 511 j) (val_ofNat (by omega))
  exact ⟨r, Fin.ofNat 511 j, hroot, hway, hsym⟩

/-- For two or more symbols every string of 255 bits leads from the root to a leaf, and so begins with that leaf's code
(R137 (d)): the arena has no more than 255 inner nodes. -/
theorem codesOf_complete (s : State) (hN : 2 ≤ (present s.freq).length) {x : Bits} (hx : 255 ≤ x.length) :
    ∃ b c, (codesOf s.freq).get (symIndex b) = some c ∧ c <+: x := by
  have hle := present_length_le s.freq
  obtain ⟨r, hroot, hm, hr, hF⟩ := (buildTree_built s).tree (by omega)
  obtain ⟨c, i, hpre, hway, hi⟩ := hF.descends 256 r x (by omega) (by omega) (by omega)
  obtain ⟨-, -, -, r', hroot', hway'⟩ := (buildTree_built s).path hi
  cases hroot.symm.trans hroot'
  rw [show Fin.ofNat 511 i.val = i from Fin.ext (val_ofNat i.isLt)] at hway'
  have hc : c = pathOf (buildTree s).node i.val :=
    hF.way_unique (List.mem_singleton_self r) c.length c _ (Nat.le_refl _) hway hway'
  refine ⟨(present s.freq)[i.val].1, c, ?_, hpre⟩
  rw [codesOf_present s hi, if_neg (by omega), hc]

end Sys2Proof.Machine

open Sys2Proof Sys2Proof.Machine

/-- Settles O19: the sizes of the tree from its forest, the root's weight from the sum the joins keep. -/
theorem buildTreeCompletesWithOneRoot : Obligations.BuildTreeCompletesWithOneRoot := by
  unfold Obligations.BuildTreeCompletesWithOneRoot
  intro s
  refine ⟨buildTree s, rfl, buildTree_frame s, buildTree_nleaf_toNat s, fun h0 => ?_, fun hN => ?_⟩
  · rw [occurring_length] at h0
    obtain ⟨hroot, hm⟩ := (buildTree_built s).empty h0
    exact ⟨BitVec.eq_of_toNat_eq hm, hroot⟩
  · rw [occurring_length] at hN ⊢
    obtain ⟨r, hroot, hm, hr, -⟩ := (buildTree_built s).tree hN
    exact ⟨hm, r, hroot, by omega, (buildTree_weights s).1 r hroot⟩

/-- Settles O20: the leaves are made from the occurring symbols, and combining leaves them alone but for their parents. -/
theorem leavesAreTheOccurringSymbols : Obligations.LeavesAreTheOccurringSymbols := by
  unfold Obligations.LeavesAreTheOccurringSymbols
  intro s t ht k hk i hi
  cases ht
  obtain ⟨hk', hsymbol⟩ := occurring_getElem s.freq k hk
  obtain ⟨hweight, hsym, hleft, hright⟩ := (buildTree_built s).leaf k hk' i hi
  obtain ⟨-, hfreq⟩ := mem_present.1 (List.getElem_mem hk')
  rw [hsymbol]
  exact ⟨hsym, hweight.trans hfreq.symm, hleft, hright⟩

/-- Settles O22: each join takes the two lowest, which later joins leave so. -/
theorem eachInnerNodeJoinsTheTwoLowest : Obligations.EachInnerNodeJoinsTheTwoLowest := by
  unfold Obligations.EachInnerNodeJoinsTheTwoLowest
  intro s t ht i a b hi hl hr
  cases ht
  obtain ⟨hab, hfree⟩ := buildTree_joins s i a b hi hl hr
  exact ⟨nodeBefore_iff.1 hab, fun j hj hja hjb hpar => nodeBefore_iff.1 (hfree j hj hja hjb hpar)⟩

/-- Settles O23: from one inner node to the next the weight does not fall. -/
theorem innerNodesComeInOrderOfWeight : Obligations.InnerNodesComeInOrderOfWeight := by
  unfold Obligations.InnerNodesComeInOrderOfWeight
  intro s t hsum ht i j hi hij hj
  cases ht
  obtain ⟨q, hF, -, -⟩ := buildTree_forest s
  rw [Fin.le_def] at hij
  exact hF.weight_mono (buildTree_joins s) ((buildTree_weights s).2 hsum) hi (j.val - i.val) j (by omega) hj

/-- Settles O24, by induction on the leaves; each walk ends because parents rise. -/
theorem generateCodesCompletes : Obligations.GenerateCodesCompletes := by
  unfold Obligations.GenerateCodesCompletes
  intro s hrise hsym
  obtain ⟨code, he, hcode⟩ := generateCodes_completes s hrise hsym
  refine ⟨{ s with code := code }, ?_, rfl, hcode⟩
  rw [exec, execGenerateCodes, he, Flow.outcome_on]

/-- Settles O25: a code is the way to its symbol's leaf, or `[0]` for a lone symbol. -/
theorem codesLeadFromTheRootToTheLeaf : Obligations.CodesLeadFromTheRootToTheLeaf := by
  unfold Obligations.CodesLeadFromTheRootToTheLeaf
  intro s
  obtain ⟨t, ht, hu⟩ := codedFrom_iff.2 (rfl : { buildTree s with code := codesOf s.freq } = _)
  have hcoded := (makeCodes_spec s).2
  refine ⟨t, _, ht, hu, fun b => ⟨hcoded.present_iff b, fun c hc => ⟨fun h1 => ?_, fun h2 => ?_⟩⟩⟩
  · exact hcoded.single (by rwa [← occurring_length]) b c hc
  · cases ht
    exact codesOf_leads s (by rwa [← occurring_length]) hc

/-- Settles O26: a leaf has no way on. -/
theorem generatedCodesArePrefixFree : Obligations.GeneratedCodesArePrefixFree := by
  unfold Obligations.GeneratedCodesArePrefixFree
  intro s u h b b' c c' hc hc' hpre
  rw [h.codeOf_eq] at hc hc'
  exact (makeCodes_spec s).2.prefix_free b b' c c' hc hc' hpre

/-- Settles O27: a long enough bit string leads down to a leaf. -/
theorem generatedCodesAreComplete : Obligations.GeneratedCodesAreComplete := by
  unfold Obligations.GeneratedCodesAreComplete
  intro s u h hN x hx
  rw [occurring_length] at hN
  obtain ⟨b, c, hc, hpre⟩ := codesOf_complete s hN hx
  exact ⟨b, c, (h.codeOf_eq b).trans hc, hpre⟩

/-- Settles O28: the bounds on the leaves' ways, and the lone symbol's code. -/
theorem codeLengthsAreBounded : Obligations.CodeLengthsAreBounded := by
  unfold Obligations.CodeLengthsAreBounded
  intro s u h b c hc
  rw [h.codeOf_eq] at hc
  rw [occurring_length]
  have hcoded := (makeCodes_spec s).2
  have hpos := hcoded.length_pos b c hc
  have hmax := hcoded.length_le b c hc
  have hle := present_length_le s.freq
  exact ⟨fun h1 => by rw [hcoded.single h1 b c hc]; rfl, fun h2 => ⟨hpos, by omega⟩, by omega⟩

/-- Settles O29: both code tables are the one of the counters. -/
theorem codesAreAFunctionOfTheCounters : Obligations.CodesAreAFunctionOfTheCounters := by
  unfold Obligations.CodesAreAFunctionOfTheCounters
  intro s s' u u' hfreq h h'
  rw [codedFrom_iff.1 h, codedFrom_iff.1 h', hfreq]

end

section
/-! PROOFS. The container's header (spec/42_container.md rules R151 to R160): `writeHeader` under its precondition,
`readHeader` on any source that begins with a header, and the one after the other. -/

namespace Sys2Proof.Machine

/-! ### writeHeader -/

/-- The table of codes that entries can carry fills at most 69376 bits, and so its bytes fit the sink's space (R94). -/
theorem packBits_tableBits_length_le {code : RegFile 256 (Option Bits)}
    (h : ∀ b c, code.get (symIndex b) = some c → c.length ≤ 255) : (packBits (tableBits code)).length ≤ 8672 := by
  have hbits := tableBits_length_le h
  rw [packBits_length]
  omega

/-- The operation `writeHeader` where the buffer is empty, the sink new and each code fits an entry (R151). -/
theorem exec_writeHeader_eq {s : State} (hbuf : s.bitbuf = []) (hsize : s.snkSize = 0)
    (hcode : ∀ b c, codeOf s b = some c → c.length ≤ 255) : exec .writeHeader s = .next (headerWritten s) := by
  have hle := packBits_tableBits_length_le hcode
  rw [exec, execWriteHeader, writeHeader_on hbuf hsize (by simp only [Config.spaceSize]; omega), Flow.outcome_on]

/-- `T` as `writeHeader` leaves it is the number of the table's bits (R153, R155). -/
theorem headerWritten_tlen_toNat {s : State} (hcode : ∀ b c, codeOf s b = some c → c.length ≤ 255) :
    (headerWritten s).tlen.toNat = (tableBits s.code).length := by
  have hle := tableBits_length_le hcode
  exact (BitVec.toNat_ofNat _ _).trans (Nat.mod_eq_of_lt (by omega))

/-- The payload follows the fixed fields and the table's bytes (R154, R155). -/
theorem headerWritten_payloadOff_toNat {s : State} (hcode : ∀ b c, codeOf s b = some c → c.length ≤ 255) :
    (headerWritten s).payloadOff.toNat = 5 + (packBits (tableBits s.code)).length := by
  have hle := packBits_tableBits_length_le hcode
  exact (BitVec.toNat_ofNat _ _).trans (Nat.mod_eq_of_lt (by omega))

/-! ### readHeader -/

/-- The operation `readHeader` on a source that begins with the header of a list of entries (R156 to R159). -/
theorem HeaderStarts.exec_readHeader {s : State} {pad : Byte} {T : BitVec 32} {es : List (Symbol × Bits)}
    {tb : List Byte} (h : HeaderStarts s pad T es [] tb) (hT : T.toNat = (entriesBits es).length) :
    exec .readHeader s = .next { s with
      pad := pad
      tlen := T
      hbits := T
      payloadOff := BitVec.ofNat 64 (5 + tb.length)
      srcPos := BitVec.ofNat 64 (5 + tb.length)
      bitbuf := []
      dec := entriesTable es [] } := by
  obtain ⟨hcodes, hbytes, hbits, hsize, hread⟩ := h
  have hTe : BitVec.ofNat 32 (entriesBits es).length = T := by rw [← hT, BitVec.ofNat_toNat, BitVec.setWidth_eq]
  have hle : 5 + tb.length ≤ s.srcSize.toNat := by simp at hsize; omega
  rw [List.append_nil, hT] at hbits
  have hon := readHeader_on (s := s) (pad := pad) hcodes (hT ▸ T.isLt) (by rw [hbytes, hT]; rfl) hbits hle
  rw [hTe] at hon
  rw [exec, execReadHeader, hon hread, Flow.outcome_on]

/-! ### The one after the other -/

/-- The flushed table's bytes begin with the table's bits (R123 (b), R154). -/
theorem unpack_packBits_take (x : Bits) : (Bit.unpack (packBits x)).take x.length = x := by
  rw [packBits, unpack_drained_true, List.take_left]

/-- Bytes that one engine's sink holds from its start on begin the source of an engine that reads the same there (R37). -/
theorem SinkHolds.sourceStarts {t u : State} {bytes : List Byte} (h : SinkHolds 0 bytes t)
    (hsize : bytes.length ≤ u.srcSize.toNat) (hread : ∀ k, k < bytes.length → u.src.read k = t.snk.read k) :
    SourceStarts u bytes := by
  refine ⟨hsize, fun k hk => ?_⟩
  rw [hread k hk, ← h k hk, Nat.zero_add]

/-- An engine whose source begins with what `writeHeader` wrote has the header of the code table's entries before it
(R96, R160). -/
theorem headerWritten_headerStarts {s u : State} (hcode : ∀ b c, codeOf s b = some c → c.length ≤ 255)
    (hsize : (headerWritten s).payloadOff.toNat ≤ u.srcSize.toNat)
    (hread : ∀ k, k < (headerWritten s).payloadOff.toNat → u.src.read k = (headerWritten s).snk.read k) :
    HeaderStarts u 0x00 (headerWritten s).tlen (codeEntries s.code.cells 0) [] (packBits (tableBits s.code)) := by
  have hT := headerWritten_tlen_toNat hcode
  have hle := packBits_tableBits_length_le hcode
  have hlen : (0x00 :: Bit.le32 (headerWritten s).tlen ++ packBits (tableBits s.code)).length =
      (headerWritten s).payloadOff.toNat := by
    rw [headerWritten_payloadOff_toNat hcode]; simp; omega
  refine ⟨fun e he => hcode e.1 e.2 ((mem_codeEntries_cells s.code e.1 e.2).1 he), ?_, ?_, ?_⟩
  · rw [hT, packBits_length]
  · rw [hT, unpack_packBits_take, List.append_nil]; rfl
  · exact (headerWritten_holds s (by omega)).1.sourceStarts (hlen ▸ hsize) fun k hk => hread k (hlen ▸ hk)

end Sys2Proof.Machine

open Sys2Proof Sys2Proof.Machine

/-- Settles O30: the registers of `headerWritten` and the bytes its three writes leave. -/
theorem writeHeaderLaysOutTheHeader : Obligations.WriteHeaderLaysOutTheHeader := by
  unfold Obligations.WriteHeaderLaysOutTheHeader
  intro s hbuf _ hsize hcode
  have hle := packBits_tableBits_length_le hcode
  have hP := headerWritten_payloadOff_toNat hcode
  obtain ⟨hholds, hkept⟩ := headerWritten_holds s (by omega)
  refine ⟨headerWritten s, (headerWritten s).tlen, (headerWritten s).payloadOff, exec_writeHeader_eq hbuf hsize hcode,
    rfl, headerWritten_tlen_toNat hcode, ?_, hholds, ?_⟩
  · rw [hP, packBits_length]
  · rw [hP]; exact hkept

/-- Settles O31: the entry loop on the bits of any list of entries, behind any fixed fields. -/
theorem readHeaderTakesAnyEntries : Obligations.ReadHeaderTakesAnyEntries := by
  unfold Obligations.ReadHeaderTakesAnyEntries
  intro s pad T es tb hcodes hT hbytes hbits hsource
  have hstarts : HeaderStarts s pad T es [] tb := ⟨hcodes, hbytes, by rw [List.append_nil]; exact hbits, hsource⟩
  exact hstarts.exec_readHeader hT

/-- Settles O33: the bytes written are the header of the code table's entries, and their table is its inverse. -/
theorem readHeaderInvertsWriteHeader : Obligations.ReadHeaderInvertsWriteHeader := by
  unfold Obligations.ReadHeaderInvertsWriteHeader
  intro s t u hbuf _ hsize hcode hinj hwrite hoff hread
  have hfits : ∀ b c, codeOf s b = some c → c.length ≤ 255 := fun b c hc => (hcode b c hc).2
  obtain rfl : headerWritten s = t :=
    Host.Outcome.next.inj ((exec_writeHeader_eq hbuf hsize hfits).symm.trans hwrite)
  have hstarts := headerWritten_headerStarts hfits hoff hread
  exact ⟨_, hstarts.exec_readHeader (headerWritten_tlen_toNat hfits), fun c b => codeTable_lookup hinj c b,
    rfl, rfl, rfl, rfl⟩

end

section
/-! PROOFS. ENCODE (spec/43_encoder.md rules R170 to R184): its start, each of its transitions, that a transition of a running
command always completes, and the container that the whole run leaves. -/

namespace Sys2Proof.Machine

/-! ### The start of a command -/

/-- A command that starts has every register at its reset value (R40, R41). -/
theorem startCommand_registersReset (mode : Bool) (s : State) : RegistersReset (startCommand mode s) := by
  constructor
  case freq => exact fun b => RegFile.get_fill 256 0 (symIndex b)
  case node => exact fun i => RegFile.get_fill 511 Node.blank i
  case code => exact fun b => RegFile.get_fill 256 none (symIndex b)
  all_goals rfl

theorem startCommand_sameHostSide (mode : Bool) (s : State) : SameHostSide s (startCommand mode s) :=
  ⟨rfl, rfl, rfl, rfl⟩

/-! ### Bytes written to the sink -/

/-- Bytes in sequence change the sink, its size, the position and the record of writes only (R30, R63). -/
theorem appended_frame (bytes : List Byte) (s : State) :
    appended bytes s = { s with
      snk := (appended bytes s).snk
      snkSize := (appended bytes s).snkSize
      snkPos := (appended bytes s).snkPos
      journal := (appended bytes s).journal } := by
  simp only [appended, advanceSink, written_eq]

/-- Bytes in sequence that have their place raise `SNK_SIZE` to their end (R63). -/
theorem Fits.snkSize {bytes : List Byte} {s : State} (h : Fits bytes s) :
    (appended bytes s).snkSize.toNat =
      if bytes = [] then s.snkSize.toNat else max s.snkSize.toNat (s.snkPos.toNat + bytes.length) :=
  written_size s.snkPos.toNat bytes s h

theorem SinkHolds.kept {s t : State} {a c n : Nat} {bytes : List Byte} (h : SinkHolds a bytes s)
    (hk : SinkKeptOutside c n s t) (hd : a + bytes.length ≤ c ∨ c + n ≤ a) : SinkHolds a bytes t :=
  fun k hlt => (hk (a + k) (by omega)).trans (h k hlt)

theorem SinkHolds.append {t : State} {a : Nat} {xs ys : List Byte} (hx : SinkHolds a xs t)
    (hy : SinkHolds (a + xs.length) ys t) : SinkHolds a (xs ++ ys) t := by
  intro k hk
  rw [List.length_append] at hk
  rcases Nat.lt_or_ge k xs.length with hlt | hge
  · rw [List.getElem_append_left hlt]; exact hx k hlt
  · rw [List.getElem_append_right hge, ← hy (k - xs.length) (by omega)]
    congr 1; omega

theorem SinkHolds.tail {t : State} {a : Nat} {x : Byte} {xs : List Byte} (h : SinkHolds a (x :: xs) t) :
    SinkHolds (a + 1) xs t := by
  intro k hk
  rw [Nat.add_assoc, Nat.add_comm 1 k]
  exact h (k + 1) (by simpa using hk)

/-! ### The `Encoding` step -/

section
variable {s : State} {b : Symbol} (hlt : s.srcPos.toNat < s.srcSize.toNat)
  (hread : s.src.read s.srcPos.toNat = some b)
include hlt hread

/-- On a byte that has a code, with room in the sink, the code is emitted (R178, R179). -/
theorem encodeStep_of_code {c : Bits} (hc : codeOf s b = some c)
    (hroom : s.snkPos.toNat + (s.bitbuf ++ c).length / 8 < Config.spaceSize) :
    encodeStep s = .on (emitted c { s with srcPos := s.srcPos + 1 }) := by
  have hc' : codeOf { s with srcPos := s.srcPos + 1 } b = some c := hc
  rw [encodeStep, readByte_eq_ok.2 ⟨hlt, hread⟩, withValue_ok, encodeByte, hc']
  exact emitCode_on hroom

/-- On a byte that has no code, the miss is taken (R178, R233). -/
theorem encodeStep_of_no_code (hc : codeOf s b = none) :
    encodeStep s = .raised (raise .codingTableMiss { s with srcPos := s.srcPos + 1 }) := by
  have hc' : codeOf { s with srcPos := s.srcPos + 1 } b = none := hc
  rw [encodeStep, readByte_eq_ok.2 ⟨hlt, hread⟩, withValue_ok, encodeByte, hc']

end

/-- What `emit(c)` writes and keeps: nothing is written at or below the threshold, and above it fewer than eight bits stay
(R179). -/
theorem emitted_eq_appended (c : Bits) (s : State) : ∃ out rest,
    emitted c s = appended out { s with bitbuf := rest } ∧ Bit.unpack out ++ rest = s.bitbuf ++ c ∧
      ((s.bitbuf ++ c).length ≤ s.params.flushThreshold → out = []) ∧
      (s.params.flushThreshold < (s.bitbuf ++ c).length → rest.length < 8) := by
  rcases Nat.lt_or_ge s.params.flushThreshold (s.bitbuf ++ c).length with habove | hbelow
  · refine ⟨drainedBytes false (s.bitbuf ++ c), drainedRest false (s.bitbuf ++ c), if_pos habove,
      unpack_drained_false _, fun hbelow => absurd hbelow (by omega), fun _ => ?_⟩
    rw [drainedRest_length]; omega
  · refine ⟨[], s.bitbuf ++ c, ?_, rfl, fun _ => rfl, fun habove => absurd habove (by omega)⟩
    rw [appended_nil]
    exact if_neg (by omega)

/-- Whole bytes of a bit sequence are at most an eighth of it. -/
theorem length_le_of_unpack_append {out : List Byte} {rest x : Bits} (h : Bit.unpack out ++ rest = x) :
    out.length ≤ x.length / 8 := by
  have hlen := congrArg List.length h
  rw [List.length_append, Bit.unpack_length] at hlen
  omega

/-! ### The transitions that run the unit operations -/

theorem buildTree_status (s : State) : (buildTree s).status = s.status := by
  rw [buildTree_frame]

/-- `writeHeader` raises no error and leaves the flags (R22, R151). -/
theorem writeHeader_of_exec {s t : State} (h : exec .writeHeader s = .next t) :
    writeHeader s = .on t ∧ t.status = s.status := by
  rcases Flow.outcome_eq_next.1 h with hon | hraised
  · exact ⟨hon, (writeHeader_status s).of_eq_on hon⟩
  · exact ((writeHeader_status s).of_eq_raised hraised).elim

/-- `readHeader` runs to its end and leaves the flags, or it raises and no command runs any more (R156, R236). -/
theorem readHeader_of_exec {s t : State} (h : exec .readHeader s = .next t) :
    (readHeader s = .on t ∧ t.status = s.status) ∨ (readHeader s = .raised t ∧ t.status.busy = false) := by
  rcases Flow.outcome_eq_next.1 h with hon | hraised
  · exact Or.inl ⟨hon, ((readHeader_status s).of_eq_on hon).1⟩
  · exact Or.inr ⟨hraised, by rw [((readHeader_status s).of_eq_raised hraised).1]; rfl⟩

/-! ### The end of ENCODE -/

/-- The padding count in `PAD` and at offset 0, and the flags of the normal end: how `Encoding → Flushed` ends (R181). -/
def padded (pad : Byte) (s : State) : State := finish Phase.flushed (written 0 [pad] { s with pad := pad })

theorem padded_snkSize (pad : Byte) (s : State) : (padded pad s).snkSize.toNat = max 1 s.snkSize.toNat := by
  have hsize := written_size 0 [pad] { s with pad := pad } fun _ => by simp
  rw [if_neg (List.cons_ne_nil pad [])] at hsize
  exact hsize.trans (Nat.max_comm _ _)

/-- Byte 0 is the padding count, and no other byte of the sink differs. -/
theorem padded_sinkHolds (pad : Byte) (s : State) :
    SinkHolds 0 [pad] (padded pad s) ∧ SinkKeptOutside 0 1 s (padded pad s) :=
  ⟨fun _ hk => written_read_inside hk, fun _ hk => written_read_outside hk⟩

/-- The last transition of ENCODE is the flushing drain, its bytes in sequence, and the padding count (R181). -/
theorem flushedState_eq_padded (s : State) :
    flushedState s = padded (BitVec.ofNat 8 (padCount (s.bitbuf.length % 8)))
      (appended (drainedBytes true s.bitbuf) { s with bitbuf := [] }) := rfl

theorem flushedState_frame (s : State) : flushedState s = { s with
    bitbuf := []
    pad := (flushedState s).pad
    snk := (flushedState s).snk
    snkSize := (flushedState s).snkSize
    snkPos := (flushedState s).snkPos
    journal := (flushedState s).journal
    status := { s.status with phase := Phase.flushed, busy := false, done := true } } := by
  simp only [flushedState_eq_padded, padded, finish, written_eq, appended, advanceSink]

theorem flushedState_pad_toNat (s : State) : (flushedState s).pad.toNat = (8 - s.bitbuf.length % 8) % 8 := by
  have hpad : (flushedState s).pad = BitVec.ofNat 8 (padCount (s.bitbuf.length % 8)) := rfl
  rw [hpad, BitVec.toNat_ofNat, padCount]
  omega

/-! ### A transition of a running command completes -/

/-- Whatever byte comes next, the `Encoding` step ends where the sink has room for every code (R177 to R179). -/
theorem encodeStep_completes_of_room {s : State} (hprov : SourceProvided s) (hlt : s.srcPos.toNat < s.srcSize.toNat)
    (hroom : ∀ b c, codeOf s b = some c → s.snkPos.toNat + (s.bitbuf ++ c).length / 8 < Config.spaceSize) :
    (encodeStep s).Completes := by
  obtain ⟨b, hread⟩ := Option.isSome_iff_exists.1 (hprov _ hlt)
  cases hc : codeOf s b with
  | none => exact ⟨_, by rw [encodeStep_of_no_code hlt hread hc, Flow.outcome_raised]⟩
  | some c => exact ⟨_, by rw [encodeStep_of_code hlt hread hc (hroom b c hc), Flow.outcome_on]⟩

/-- Pass 1 ends on a source that is there (R172). -/
theorem countFrequencies_completes {s : State} (hprov : SourceProvided s) : (countFrequencies s).Completes := by
  obtain ⟨t, ht⟩ := countBytes_completes s.srcSize.toNat { s with srcPos := 0 } 0 rfl hprov (by simp)
  exact ⟨_, by rw [countFrequencies, ht, Flow.andThen_on, Flow.outcome_on]⟩

theorem makeTree_completes (s : State) : (makeTree s).Completes := by
  obtain ⟨nodes, nleaf, nnodes, root, he⟩ := makeTree_on s
  exact ⟨_, by rw [he, Flow.outcome_on]⟩

/-- The walk over a buffer ends, in `on` or in the error, where the sink has room for a symbol a bit (R211, R212). -/
theorem walkBits_completes {bits : Bits} {s : State} (hbuf : s.bitbuf = bits)
    (hroom : s.snkPos.toNat + bits.length < Config.spaceSize) : (walkBits bits s).Completes := by
  have hscan := walkBits_scan bits s hbuf hroom
  generalize scan s.dec s.cand bits = r at hscan
  match r, hscan with
  | (out, .done rest), he => exact ⟨_, by rw [he, Flow.outcome_on]⟩
  | (out, .invalid), ⟨left, c, he, _⟩ => exact ⟨_, by rw [he, Flow.outcome_raised]⟩

/-- A chunk brings at most its bytes' bits before the walk (R208, R209). -/
theorem chunkBuffer_length_le {s : State} {bytes : List Byte} (hbuf : s.bitbuf = []) :
    (chunkBuffer s bytes).length ≤ 8 * bytes.length := by
  rw [chunkBuffer, hbuf, List.nil_append]
  split
  · rw [List.length_take, Bit.unpack_length]; omega
  · exact Nat.le_of_eq (Bit.unpack_length bytes)

/-- The chunk step ends on a source that is there, with room in the sink for a symbol a bit (R204 to R212). -/
theorem decodeChunk_completes {s : State} (hprov : SourceProvided s) (hbuf : s.bitbuf = [])
    (hpos : s.srcPos.toNat ≤ s.srcSize.toNat)
    (hroom : s.snkPos.toNat + 8 * (s.srcSize.toNat - s.srcPos.toNat) < Config.spaceSize) :
    (decodeChunk s).Completes := by
  have hchunk : chunkBytes s ≤ s.srcSize.toNat - s.srcPos.toNat := Nat.min_le_right _ _
  obtain ⟨bytes, hbytes⟩ := memRead_provided hprov (a := s.srcPos.toNat) (n := chunkBytes s) (by omega)
  obtain ⟨hlen, -⟩ := memRead_eq_ok.1 hbytes
  have hle := chunkBuffer_length_le (bytes := bytes) hbuf
  rw [decodeChunk_eq, hbytes, withValue_ok]
  exact walkBits_completes rfl (by simp only; omega)

section
variable {s : State} (h : Inv s) (hz : Sized s) (hprov : SourceProvided s) (hb : s.status.busy = true)
include h hz hb

/-- In the phase `Encoding` the sink and the buffer together hold the header and at most 255 bits for each byte read (R30,
R180). -/
theorem Sized.encoding_le (hm : s.status.mode = false) (hp : s.status.phase = Phase.encoding) :
    8 * s.snkPos.toNat + s.bitbuf.length ≤ 69416 + 255 * s.srcPos.toNat := by
  have hheader := hz.header_size hb hm (by rw [hp]; decide)
  have hpay := hz.payload_size hb hm (by rw [hp]; decide)
  rw [if_pos hp, ← h.position_at_end] at hpay
  omega

/-- The header fits the sink (R94, R175). -/
theorem emitHeader_completes (hm : s.status.mode = false) (hp : s.status.phase = Phase.treeBuilt) :
    (emitHeader s).Completes := by
  have hr := h.running hb
  have hbuf := hr.buffer_empty (Or.inr (by rw [hp]; decide))
  have hsize := hr.empty_before (by rw [hm, hp]; decide)
  have htable := packBits_tableBits_length_le fun b c hc => (hz.code_length hm b c hc).2
  exact ⟨_, by rw [emitHeader_on hbuf hsize (by simp only [Config.spaceSize]; omega), Flow.outcome_on]⟩

/-- The next byte's code fits the sink (R177 to R179). -/
theorem encodeStep_completes (hprov : SourceProvided s) (hm : s.status.mode = false)
    (hp : s.status.phase = Phase.encoding) (hlt : s.srcPos.toNat < s.srcSize.toNat) : (encodeStep s).Completes := by
  have hlimit := (h.running hb).size_limit
  have hfill := hz.encoding_le h hb hm hp
  refine encodeStep_completes_of_room hprov hlt fun b c hc => ?_
  have hc255 := (hz.code_length hm b c hc).2
  simp only [List.length_append, Config.spaceSize, Config.sizeLimit] at hlimit ⊢
  omega

/-- The last bits and the padding count fit the sink (R181). -/
theorem flushPayload_completes (hm : s.status.mode = false) (hp : s.status.phase = Phase.encoding) :
    (flushPayload s).Completes := by
  obtain ⟨hlimit, -, hpos, -⟩ := h.running hb
  have hfill := hz.encoding_le h hb hm hp
  have hceil := Bit.ceil8_lt s.bitbuf.length
  have hroom : s.snkPos.toNat + Bit.ceil8 s.bitbuf.length < Config.spaceSize := by
    simp only [Config.spaceSize, Config.sizeLimit] at hlimit ⊢
    omega
  exact ⟨_, by rw [flushPayload_on hroom, Flow.outcome_on]⟩

include hprov

/-- ENCODE's enabled transition completes, and before the last phase one is enabled (R170). -/
theorem encoderTransition_completes (hm : s.status.mode = false) : (encoderTransition s).Completes := by
  obtain ⟨-, -, -, hphase⟩ := h.flags hb
  have hpos := (h.running hb).position_le
  unfold encoderTransition
  split
  · exact countFrequencies_completes hprov
  split
  · exact makeTree_completes s
  split
  · next hp => exact emitHeader_completes h hz hb hm hp
  split
  · exact Flow.Completes.on _
  split
  · next hp =>
    split
    · next hlt => exact encodeStep_completes h hz hb hprov hm hp hlt
    · have heq : s.srcPos = s.srcSize := BitVec.eq_of_toNat_eq (by omega)
      rw [if_pos heq]
      exact flushPayload_completes h hz hb hm hp
  · next h0 h1 h2 h3 h4 =>
    rw [hm] at hphase
    simp only [finalPhase, Phase.idle, Phase.frequencyCounted, Phase.treeBuilt, Phase.headerWritten, Phase.encoding,
      Phase.flushed, Bool.false_eq_true, if_false] at h0 h1 h2 h3 h4 hphase
    bv_omega

/-- DECODE's enabled transition completes, a source byte giving at most eight symbols, and before the last phase one is
enabled (R200). -/
theorem decoderTransition_completes (hm : s.status.mode = true) : (decoderTransition s).Completes := by
  obtain ⟨-, -, -, hphase⟩ := h.flags hb
  have hr := h.running hb
  have hbuf := hr.buffer_empty (Or.inl hm)
  have hlimit := hr.size_limit
  have hpos := hr.position_le
  unfold decoderTransition
  split
  · exact (readHeader_completes hprov).andThen (readHeader_ends s h.dec_wf) fun t _ => Flow.Completes.on _
  split
  · exact Flow.Completes.on _
  split
  · next hp =>
    have hout := hz.output_size hb hm
    rw [if_pos hp, ← h.position_at_end] at hout
    split
    · refine decodeChunk_completes hprov hbuf hpos ?_
      simp only [Config.spaceSize, Config.sizeLimit] at hlimit ⊢
      omega
    · have heq : s.srcPos = s.srcSize := BitVec.eq_of_toNat_eq (by omega)
      rw [if_pos ⟨heq, hbuf⟩]
      exact Flow.Completes.on _
  · next h0 h1 h2 =>
    rw [hm] at hphase
    simp only [finalPhase, Phase.idle, Phase.headerParsed, Phase.decoding, Phase.done, if_true] at h0 h1 h2 hphase
    bv_omega

theorem engineMove_completes : ∃ t, engineMove s = .next t := by
  rw [engineMove, if_pos hb, engineTransition]
  cases hm : s.status.mode with
  | false => exact encoderTransition_completes h hz hprov hb hm
  | true => exact decoderTransition_completes h hz hprov hb hm

end

/-! ### The whole run -/

/-- The code table of a source (R182). -/
abbrev sourceCodes (source : List Byte) : RegFile 256 (Option Bits) := codesOf (countsOf source)

/-- The four parts of a source's container: `PAD`, `T`, the packed table and the packed payload (R182). -/
abbrev sourcePad (source : List Byte) : Byte :=
  BitVec.ofNat 8 (padCount ((payBits (sourceCodes source) source).length % 8))

abbrev sourceTlen (source : List Byte) : BitVec 32 := BitVec.ofNat 32 (tableBits (sourceCodes source)).length

abbrev sourceTable (source : List Byte) : List Byte := packBits (tableBits (sourceCodes source))

abbrev sourcePayload (source : List Byte) : List Byte := packBits (payBits (sourceCodes source) source)

theorem containerOf_eq_parts (source : List Byte) : containerOf source =
    sourcePad source :: Bit.le32 (sourceTlen source) ++ sourceTable source ++ sourcePayload source := rfl

section
variable (p : Params) (source : List Byte)

/-- The codes of a source's byte counts can be carried by entries (R138). -/
theorem sourceCodes_length_le (b : Symbol) (c : Bits) (h : (sourceCodes source).get (symIndex b) = some c) :
    c.length ≤ 255 :=
  (makeCodes_spec { State.reset with freq := countsOf source }).2.length_le_255 h

theorem sourceTable_length_le : (sourceTable source).length ≤ 8672 :=
  packBits_tableBits_length_le (sourceCodes_length_le source)

/-- A code has at most 255 bits, so the payload has at most 32 bytes for each byte of the source (R180). -/
theorem sourcePayload_length_le : (sourcePayload source).length ≤ 32 * source.length := by
  have hpay := payBits_length_le (sourceCodes_length_le source) source
  rw [packBits_length]
  omega

/-- ENCODE at the start of pass 2, but with the source read: what the payload is appended to (R176 to R181). -/
def beforePayload : State := { passTwo p source with srcPos := (passTwo p source).srcSize, bitbuf := [] }

/-- The payload begins behind the header (R155). -/
theorem beforePayload_snkPos_toNat : (beforePayload p source).snkPos.toNat = 5 + (sourceTable source).length :=
  headerWritten_payloadOff_toNat (s := { started p source false with code := sourceCodes source })
    (sourceCodes_length_le source)

/-- The header stands in the sink before the payload (R152 to R155). -/
theorem beforePayload_sinkHolds :
    SinkHolds 0 (0x00 :: Bit.le32 (sourceTlen source) ++ sourceTable source) (beforePayload p source) := by
  have hle := sourceTable_length_le source
  exact (headerWritten_holds { started p source false with code := sourceCodes source }
    (show (sourceTable source).length + 5 < 2 ^ 64 by omega)).1

/-- ENCODE before it writes the padding count: the whole payload behind the header (R177 to R181). -/
def payloadWritten : State := appended (sourcePayload source) (beforePayload p source)

/-- The whole run of ENCODE ends with the padding count of the payload's bits (R170 to R183). -/
theorem encode_run_padded (hl : source.length < 2 ^ 56) :
    runSteps (stepsFor source.length) (session p source 0x01) =
      .next (padded (sourcePad source) (payloadWritten p source)) := encode_run p source hl

theorem payloadWritten_no_error :
    (payloadWritten p source).status.fail = false ∧ (payloadWritten p source).err = 0 := by
  rw [payloadWritten, appended_status, appended_err]
  exact ⟨rfl, rfl⟩

/-- The payload of a source below the limit has its place in the sink (R30, R180). -/
theorem sourcePayload_fits (hl : source.length < 2 ^ 56) : Fits (sourcePayload source) (beforePayload p source) :=
  fun _ => by
    have htable := sourceTable_length_le source
    have hpay := sourcePayload_length_le source
    rw [beforePayload_snkPos_toNat, Config.spaceSize]
    omega

theorem payloadWritten_snkSize_toNat (hl : source.length < 2 ^ 56) : (payloadWritten p source).snkSize.toNat =
    5 + (sourceTable source).length + (sourcePayload source).length := by
  have hfit := sourcePayload_fits p source hl
  rw [payloadWritten, ← appended_end rfl hfit, hfit.snkPos, beforePayload_snkPos_toNat]

/-- Header and payload stand in the sink one behind the other (R182). -/
theorem payloadWritten_sinkHolds :
    SinkHolds 0 (0x00 :: Bit.le32 (sourceTlen source) ++ sourceTable source ++ sourcePayload source)
      (payloadWritten p source) := by
  have hlen : 0 + (0x00 :: Bit.le32 (sourceTlen source) ++ sourceTable source).length =
      (beforePayload p source).snkPos.toNat := by
    rw [beforePayload_snkPos_toNat]; simp; omega
  obtain ⟨hholds, hkept⟩ := appended_sinkHolds (sourcePayload source) (beforePayload p source)
  exact ((beforePayload_sinkHolds p source).kept hkept (Or.inl (Nat.le_of_eq hlen))).append (hlen ▸ hholds)

/-- At the end of the run the sink holds the closed form and no more (R182, R183). -/
theorem padded_payloadWritten_holds (hl : source.length < 2 ^ 56) :
    (padded (sourcePad source) (payloadWritten p source)).snkSize.toNat = (containerOf source).length ∧
      SinkHolds 0 (containerOf source) (padded (sourcePad source) (payloadWritten p source)) := by
  obtain ⟨hcount, hrest⟩ := padded_sinkHolds (sourcePad source) (payloadWritten p source)
  refine ⟨?_, hcount.append ((payloadWritten_sinkHolds p source).tail.kept hrest (Or.inr (Nat.le_refl 1)))⟩
  have hlen : (containerOf source).length = 5 + (sourceTable source).length + (sourcePayload source).length :=
    containerOf_length source
  rw [padded_snkSize, payloadWritten_snkSize_toNat p source hl, hlen]
  omega

end

/-! ### The smallest containers -/

/-- A symbol has a code exactly when it occurs in the source (R35, R173). -/
theorem sourceCodes_isSome {source : List Byte} (hl : source.length < 2 ^ 64) (b : Symbol) :
    ((sourceCodes source).get (symIndex b)).isSome = true ↔ b ∈ source := by
  rw [(makeCodes_spec { State.reset with freq := countsOf source }).2.present_iff b]
  show 1 ≤ ((countsOf source).get (symIndex b)).toNat ↔ _
  rw [countsOf_get hl]
  exact List.one_le_count_iff

/-- A lone symbol has the code `[0]` (R134). -/
theorem sourceCodes_replicate {b : Symbol} {n : Nat} (hpos : 1 ≤ n) (hl : n < 2 ^ 64) :
    (sourceCodes (List.replicate n b)).get (symIndex b) = some [false] := by
  have hcoded := (makeCodes_spec { State.reset with freq := countsOf (List.replicate n b) }).2
  have hcount (c : Symbol) : 1 ≤ ((countsOf (List.replicate n b)).get (symIndex c)).toNat ↔ c = b := by
    rw [countsOf_get (by simpa using hl), List.one_le_count_iff, List.mem_replicate]
    exact and_iff_right (by omega)
  have honly : ∀ j (hj : j < (present (countsOf (List.replicate n b))).length),
      (present (countsOf (List.replicate n b)))[j].1 = b := fun j hj =>
    (hcount _).1 (present_index.2 ⟨j, hj, rfl⟩)
  obtain ⟨j, hj, -⟩ := present_index.1 ((hcount b).2 rfl)
  have hlone : (present (countsOf (List.replicate n b))).length = 1 := by
    rcases Nat.lt_or_ge 1 (present (countsOf (List.replicate n b))).length with htwo | hle
    · have hfst := (honly 0 (by omega)).trans (honly 1 htwo).symm
      exact absurd (present_inj (by omega) htwo hfst) Nat.zero_ne_one
    · omega
  obtain ⟨c, hc⟩ := Option.isSome_iff_exists.1 ((hcoded.present_iff b).2 ((hcount b).2 rfl))
  rw [hcoded.single hlone b c hc] at hc
  exact hc

/-- The cells of a register file stand in the order of the symbols (R32, R35). -/
theorem cells_getElem_eq_get_symIndex {α : Type} (r : RegFile 256 α) {j : Nat} (hj : j < r.cells.length) :
    r.cells[j] = r.get (symIndex (BitVec.ofNat 8 j)) := by
  have hj' : j < 256 := r.size_eq ▸ hj
  rw [RegFile.cells_getElem]
  congr 1
  exact Fin.ext (by simp [symIndex]; omega)

/-- The table of a register file with one code has its entry alone (R96). -/
theorem tableBits_one {code : RegFile 256 (Option Bits)} {b : Symbol} {c : Bits}
    (hc : code.get (symIndex b) = some c) (h : ∀ x, x ≠ b → code.get (symIndex x) = none) :
    tableBits code = entriesBits [(b, c)] := by
  have hsize := code.size_eq
  rw [tableBits, codeEntries_one (i := b.toNat) (c := c) (by rw [hsize]; exact b.isLt) hc fun j hj hne => ?_]
  · simp
  · rw [cells_getElem_eq_get_symIndex]
    refine h _ fun heq => hne ?_
    rw [← heq, BitVec.toNat_ofNat]; omega

/-- The payload of copies of one byte (R99). -/
theorem payBits_replicate {code : RegFile 256 (Option Bits)} {b : Symbol} (hc : code.get (symIndex b) = some [false])
    (n : Nat) : payBits code (List.replicate n b) = Bit.zeros n := by
  induction n with
  | zero => rfl
  | succ n ih => rw [List.replicate_succ, payBits_cons, hc, ih]; rfl

end Sys2Proof.Machine

open Sys2Proof Sys2Proof.Machine

/-- Settles O56: each transition's reads find their bytes, and the bounds leave room for its writes. -/
theorem aRunningCommandAlwaysMovesOn : Obligations.ARunningCommandAlwaysMovesOn := by
  unfold Obligations.ARunningCommandAlwaysMovesOn
  exact fun s h hz hprov hb => engineMove_completes h hz hprov hb

/-- Settles O7: the two tests of the start, and the registers it resets. -/
theorem encodeStartsUnlessRefused : Obligations.EncodeStartsUnlessRefused := by
  unfold Obligations.EncodeStartsUnlessRefused
  refine fun s => ⟨fun hb => if_pos hb, fun hb hlarge => ?_, fun hb hsize => ?_⟩
  · rw [exec, execEncode, if_neg (by simp [hb]), if_neg (by simp only [Config.sizeLimit]; omega)]
  · refine ⟨startCommand false s, ?_, startCommand_registersReset false s, rfl, startCommand_sameHostSide false s,
      fun _ _ => rfl⟩
    rw [exec, execEncode, if_neg (by simp [hb]), if_pos hsize]

/-- Settles O38: the loop of pass 1 folds the source's bytes into the counters. -/
theorem countingPassCountsEveryByte : Obligations.CountingPassCountsEveryByte := by
  unfold Obligations.CountingPassCountsEveryByte
  intro s bytes hrun hsrc
  refine ⟨bytes.foldl countOne s.freq, ?_, foldl_countOne_get bytes s.freq⟩
  rw [enc_step0 hrun, countFrequencies_on hsrc, Flow.outcome_on]
  rfl

/-- Settles O39: each transition is its operation, which leaves the flags unless it raises, and then the phase. -/
theorem transitionsRunTheUnitOperations : Obligations.TransitionsRunTheUnitOperations := by
  unfold Obligations.TransitionsRunTheUnitOperations
  refine fun s => ⟨fun u hrun hu => ?_, fun t hrun ht => ?_, fun hrun => ?_, fun t hrun ht hb => ?_,
    fun t hrun ht hb => ?_, fun hrun => ?_⟩
  · obtain rfl := codedFrom_iff.1 hu
    rw [enc_step1 hrun, makeTree, (makeCodes_spec s).1, Flow.andThen_on, Flow.outcome_on, ← buildTree_status s]
    rfl
  · obtain ⟨hon, hstatus⟩ := writeHeader_of_exec ht
    rw [enc_step2 hrun, emitHeader, hon, Flow.andThen_on, Flow.outcome_on, ← hstatus]
    rfl
  · rw [enc_step3 hrun]; rfl
  · rcases readHeader_of_exec ht with ⟨hon, hstatus⟩ | ⟨-, hnot⟩
    · rw [dec_step0 hrun, parseHeader, hon, Flow.andThen_on, Flow.outcome_on, ← hstatus]
      rfl
    · rw [hb] at hnot; cases hnot
  · rcases readHeader_of_exec ht with ⟨-, hstatus⟩ | ⟨hraised, -⟩
    · rw [hstatus, hrun.2.1] at hb; cases hb
    · rw [dec_step0 hrun, parseHeader, hraised, Flow.andThen_raised, Flow.outcome_raised]
  · rw [dec_step1 hrun]; rfl

/-- Settles O40: the code is emitted, and what `emit` writes goes to the sink in sequence. -/
theorem encodingStepEmitsTheCode : Obligations.EncodingStepEmitsTheCode := by
  unfold Obligations.EncodingStepEmitsTheCode
  intro s b c hrun hlt hread hc hroom
  obtain ⟨out, rest, he, hbits, hbelow, habove⟩ := emitted_eq_appended c { s with srcPos := s.srcPos + 1 }
  have hout := length_le_of_unpack_append hbits
  have hfit : Fits out { s with srcPos := s.srcPos + 1, bitbuf := rest } := fun _ =>
    Nat.lt_of_le_of_lt (Nat.add_le_add_left hout _) hroom
  obtain ⟨hholds, hkept⟩ := appended_sinkHolds out { s with srcPos := s.srcPos + 1, bitbuf := rest }
  refine ⟨appended out { s with srcPos := s.srcPos + 1, bitbuf := rest }, out, ?_, ?_, ?_, hbelow, ?_, hfit.snkPos,
    hfit.snkSize, hholds, hkept⟩
  · rw [enc_step4 hrun hlt, encodeStep_of_code hlt hread hc hroom, Flow.outcome_on, he]
  · rw [appended_bitbuf]; exact appended_frame out _
  · rw [appended_bitbuf]; exact hbits
  · rw [appended_bitbuf]; exact habove

/-- Settles O42: the flushed bytes go to the sink in sequence, behind offset 0, and then the padding count to it. -/
theorem flushEndsTheEncoding : Obligations.FlushEndsTheEncoding := by
  unfold Obligations.FlushEndsTheEncoding
  intro s hrun hend hpos hroom
  have hlen := drainedBytes_true_length s.bitbuf
  have hpad := flushedState_pad_toNat s
  have hfit : Fits (drainedBytes true s.bitbuf) { s with bitbuf := [] } := fun _ => by rw [hlen]; exact hroom
  obtain ⟨hholds, hkept⟩ := appended_sinkHolds (drainedBytes true s.bitbuf) { s with bitbuf := [] }
  obtain ⟨hcount, hrest⟩ := padded_sinkHolds (BitVec.ofNat 8 (padCount (s.bitbuf.length % 8)))
    (appended (drainedBytes true s.bitbuf) { s with bitbuf := [] })
  refine ⟨flushedState s, drainedBytes true s.bitbuf, ?_, flushedState_frame s, hpad, ?_, hfit.snkPos, ?_,
    hholds.kept hrest (Or.inr hpos), hcount, fun k hk hout => ?_⟩
  · rw [enc_step_last hrun hend, flushPayload_on hroom, Flow.outcome_on]
  · rw [hpad, unpack_drained_true]
  · rw [flushedState_eq_padded, padded_snkSize, hfit.snkSize]
  · exact (hrest k (Or.inr hk)).trans (hkept k hout)

/-- Settles O43: the payload goes behind the header, and then the padding count over byte 0. -/
theorem encodeMakesTheClosedForm : Obligations.EncodeMakesTheClosedForm := by
  unfold Obligations.EncodeMakesTheClosedForm
  intro p source hl
  obtain ⟨hfail, herr⟩ := payloadWritten_no_error p source
  obtain ⟨hsize, hholds⟩ := padded_payloadWritten_holds p source hl
  refine ⟨_, encode_run_padded p source hl, rfl, hfail, herr, sinkImage_eq hsize hholds, ?_⟩
  rw [hsize, containerOf_length, packBits_length, packBits_length]

/-- Settles O45: without a symbol there is no entry; a lone symbol has one entry of 17 bits and a zero bit per copy. -/
theorem emptyAndLoneSymbolContainers : Obligations.EmptyAndLoneSymbolContainers := by
  unfold Obligations.EmptyAndLoneSymbolContainers
  refine ⟨?_, fun b n hpos hl => ?_⟩
  · have hnone : ∀ c ∈ (sourceCodes []).cells, c = none := fun c hc => by
      obtain ⟨j, hj, rfl⟩ := List.getElem_of_mem hc
      rw [cells_getElem_eq_get_symIndex, ← Option.not_isSome_iff_eq_none, sourceCodes_isSome (by simp)]
      exact List.not_mem_nil
    have htable : tableBits (sourceCodes []) = [] := congrArg entriesBits (codeEntries_none hnone 0)
    have hpay : payBits (sourceCodes []) [] = [] := rfl
    rw [containerOf_eq_parts, sourcePad, sourceTlen, sourceTable, sourcePayload, htable, hpay]
    rfl
  · have hcode := sourceCodes_replicate (b := b) hpos (by omega)
    have hothers : ∀ x, x ≠ b → (sourceCodes (List.replicate n b)).get (symIndex x) = none := fun x hx => by
      have hiff := sourceCodes_isSome (source := List.replicate n b) (by simp; omega) x
      rw [← Option.not_isSome_iff_eq_none, hiff, List.mem_replicate]
      exact fun h => hx h.2
    have htable : packBits (entriesBits [(b, [false])]) = [b, 0x01, 0x00] :=
      drainedBytes_unpack_append true [b, 0x01] [false]
    have hlength : (entriesBits [(b, [false])]).length = 17 := rfl
    rw [containerOf_eq_parts, sourcePad, sourceTlen, sourceTable, sourcePayload, payBits_replicate hcode n,
      tableBits_one hcode hothers, htable, hlength, pack_zeros, Bit.zeros_length, padCount]
    rfl

/-- Settles O41: the step's two reads, and the error. -/
theorem byteWithoutACodeIsAMiss : Obligations.ByteWithoutACodeIsAMiss := by
  unfold Obligations.ByteWithoutACodeIsAMiss
  intro s b hrun hlt hread hc
  refine ⟨raise .codingTableMiss { s with srcPos := s.srcPos + 1 }, ?_, rfl⟩
  rw [enc_step4 hrun hlt, encodeStep_of_no_code hlt hread hc, Flow.outcome_raised]

end

section
/-! PROOFS. DECODE (spec/44_decoder.md rules R200 to R215): its start, the bits of the walk, how a run ends on any source,
and the container of any source read back. -/

namespace Sys2Proof.Machine

/-! ### One bit of the walk -/

/-- A symbol matched changes the candidate and the end of the sink only, where `SNK_POS` is one further (R211). -/
theorem walked_one_frame (y : Symbol) (s : State) :
    walked [y] s.bitbuf [] s = { s with
      cand := []
      snk := (walked [y] s.bitbuf [] s).snk
      snkSize := (walked [y] s.bitbuf [] s).snkSize
      snkPos := s.snkPos + 1
      journal := (walked [y] s.bitbuf [] s).journal } :=
  appended_frame [y] { s with cand := [] }

/-! ### The end of a run -/

/-- What `readHeader` leaves where it raises has nothing in the sink that was not there (R202, R231). -/
theorem readHeader_raised_snkSize {s t : State} (hs : s.dec.wf = true) (h : readHeader s = .raised t) :
    t.snkSize = s.snkSize := by
  obtain ⟨pad, T, hbits, dec, buf, -, rfl⟩ := (readHeader_ends s hs).of_eq_raised h
  rfl

/-- The walk over at most all the payload's bits is `parse` of them (R214). -/
theorem scan_eq_parse_payload {es : List (Symbol × Bits)} (hcodes : ∀ e ∈ es, e.2.length ≤ 255) (c : Nat) (pad : Byte)
    (payload : List Byte) : scan (entriesTable es []) [] (payloadBits c pad payload) =
      parseBits (entriesTable es []) (8 * payload.length) (payloadBits c pad payload) := by
  refine scan_eq_parse _ (entriesTable_keys hcodes fun k y hk => ?_) _ _ ?_
  · cases hk
  · rw [payloadBits, List.length_take]; omega

/-! ### A container read back -/

/-- `encode(S)` is the closed form of the container (R105, R182). -/
theorem encodeOf_eq_containerOf (p : Params) {source : List Byte} (hl : source.length < 2 ^ 56) :
    encodeOf p source = .value (containerOf source) := by
  obtain ⟨hsize, hholds⟩ := padded_payloadWritten_holds p source hl
  have hdone : (padded (sourcePad source) (payloadWritten p source)).status.done = true := rfl
  rw [encodeOf, runCommand, encode_run_padded p source hl]
  simp only [hdone, sinkImage_eq hsize hholds, if_true]

/-- The container begins with the header of the code table's entries (R96, R160, R182). -/
theorem containerOf_headerOf (source : List Byte) :
    HeaderOf (containerOf source) (sourcePad source) (sourceTlen source) (codeEntries (sourceCodes source).cells 0)
      (sourceTable source) (sourcePayload source) := by
  have hT : (sourceTlen source).toNat = (tableBits (sourceCodes source)).length := by
    have hle := tableBits_length_le (sourceCodes_length_le source)
    exact (BitVec.toNat_ofNat _ _).trans (Nat.mod_eq_of_lt (by omega))
  refine ⟨fun e he => sourceCodes_length_le source e.1 e.2 ((mem_codeEntries_cells _ e.1 e.2).1 he), hT, ?_, ?_,
    containerOf_eq_parts source⟩
  · rw [hT, packBits_length]
  · rw [hT, unpack_packBits_take]; rfl

/-- The padding count takes the fill bits of a packed payload away, and no more, whatever `CHUNK_SIZE` is (R210). -/
theorem payloadBits_packBits (c : Nat) (x : Bits) :
    payloadBits c (BitVec.ofNat 8 (padCount (x.length % 8))) (packBits x) = x := by
  have hpad : (BitVec.ofNat 8 (padCount (x.length % 8))).toNat = (8 - x.length % 8) % 8 := by
    rw [BitVec.toNat_ofNat, padCount]; omega
  have hlen : 8 * (packBits x).length - (8 - x.length % 8) % 8 = x.length := by rw [packBits_length]; omega
  rw [payloadBits_of_pad_le (by omega), hpad, hlen, unpack_packBits_take]

/-- The walk over the payload of a source gives the source back: no code begins another, and the table of the header
is their inverse (R137, R138, R160, R215). -/
theorem scan_sourcePayload {source : List Byte} (hl : source.length < 2 ^ 64) :
    scan (entriesTable (codeEntries (sourceCodes source).cells 0) []) [] (payBits (sourceCodes source) source) =
      (source, .done []) := by
  have hcoded := (makeCodes_spec { State.reset with freq := countsOf source }).2
  refine scan_payBits (codeTable_lookup fun b b' c hc hc' => ?_) (fun b c hc => ⟨?_, ?_⟩) hcoded.prefix_free source
    fun b hb => ?_
  · exact hcoded.prefix_free b b' c c hc hc' List.prefix_rfl
  · exact hcoded.length_pos b c hc
  · exact hcoded.length_le_255 hc
  · exact Option.isSome_iff_exists.1 ((sourceCodes_isSome hl b).2 hb)

end Sys2Proof.Machine

open Sys2Proof Sys2Proof.Machine

/-- Settles O51: the container is a header with the inverse of the codes, and a payload that spells the source in them. -/
theorem decodeInvertsEncodeOfEverySource : Obligations.DecodeInvertsEncodeOfEverySource := by
  unfold Obligations.DecodeInvertsEncodeOfEverySource
  intro p q source container hq hl hencode hlc
  rw [encodeOf_eq_containerOf p hl] at hencode
  obtain rfl : containerOf source = container := Verdict.value.inj hencode
  rw [decodeOf_of_header (containerOf_headerOf source) hq hlc, payloadBits_packBits, scan_sourcePayload (by omega),
    parseVerdict]

/-- Settles O8: the three tests of the start, and the registers it resets. -/
theorem decodeStartsUnlessRefused : Obligations.DecodeStartsUnlessRefused := by
  unfold Obligations.DecodeStartsUnlessRefused
  refine fun s => ⟨fun hb => if_pos hb, fun hb hlarge => ?_, fun hb hsize hzero => ?_, fun hb hsize hpos => ?_⟩
  · rw [exec, execDecode, if_neg (by simp [hb]), if_neg (by simp only [Config.sizeLimit]; omega)]
  · rw [exec, execDecode, if_neg (by simp [hb]), if_pos hsize, if_pos hzero]
  · refine ⟨startCommand true s, ?_, startCommand_registersReset true s, rfl, startCommand_sameHostSide true s,
      fun _ _ => rfl⟩
    rw [exec, execDecode, if_neg (by simp [hb]), if_pos hsize, if_neg (by omega)]

/-- Settles O46: the three ways of one bit: a match, a longer candidate, the error. -/
theorem eachBitIsTestedAgainstTheTable : Obligations.EachBitIsTestedAgainstTheTable := by
  unfold Obligations.EachBitIsTestedAgainstTheTable
  refine fun s b => ⟨fun y hkey hroom => ?_, fun hnone hle => walkBit_more hnone hle,
    fun hnone hlong => ⟨_, walkBit_invalid hnone hlong, rfl⟩⟩
  have hfit : Fits [y] { s with cand := [] } := fun _ => hroom
  obtain ⟨hholds, hkept⟩ := appended_sinkHolds [y] { s with cand := [] }
  exact ⟨walked [y] s.bitbuf [] s, walkBit_match hkey hroom, walked_one_frame y s, hfit.snkSize, hholds, hkept⟩

/-- Settles O48: the run ends as the walk over the payload's bits does, which is `parse`. -/
theorem decodeParsesThePayload : Obligations.DecodeParsesThePayload := by
  unfold Obligations.DecodeParsesThePayload
  intro p pad T es tb payload hc hcodes hT hbytes hbits hl
  have hheader : HeaderOf (pad :: Bit.le32 T ++ tb ++ payload) pad T es tb payload := ⟨hcodes, hT, hbytes, hbits, rfl⟩
  obtain ⟨t, hrun, ht⟩ := decode_run hheader hc hl
  rw [scan_eq_parse_payload hcodes] at ht
  refine ⟨t, hrun, fun out rest hparse => ?_, fun out hparse => ?_⟩
  · obtain ⟨hstatus, hrest⟩ : ParsedTo (out, .done rest) t := hparse ▸ ht
    exact ⟨by rw [hstatus], hrest⟩
  · obtain ⟨hstatus, hrest⟩ : ParsedTo (out, .invalid) t := hparse ▸ ht
    exact ⟨by rw [hstatus], hrest⟩

/-- Settles O49: on a source that begins with a header the walk ends in one of two ways; on any other `readHeader`
raises. -/
theorem everyDecodeEnds : Obligations.EveryDecodeEnds := by
  unfold Obligations.EveryDecodeEnds
  intro p source hc hl
  by_cases h : ∃ pad T es tb payload, HeaderOf source pad T es tb payload
  · obtain ⟨pad, T, es, tb, payload, hheader⟩ := h
    obtain ⟨t, hrun, ht⟩ := decode_run hheader hc hl
    refine ⟨t, hrun, ht.not_busy, ?_⟩
    match scan (entriesTable es []) [] (payloadBits p.chunkSize pad payload), ht with
    | (_, .done _), ⟨hstatus, herr, _, _⟩ =>
      rw [hstatus]; exact ⟨rfl, Or.inl ⟨rfl, rfl, herr, rfl⟩⟩
    | (_, .invalid), ⟨hstatus, herr, _, _⟩ =>
      rw [hstatus]; exact ⟨rfl, Or.inr (Or.inr ⟨rfl, rfl, herr, rfl⟩)⟩
  · obtain ⟨t, hrun, hraised⟩ := decode_run_malformed
      (fun pad T es tb payload hheader => h ⟨pad, T, es, tb, payload, hheader⟩) hc hl
    obtain ⟨hstatus, herr⟩ := (readHeader_status _).of_eq_raised hraised
    refine ⟨t, hrun, ?_⟩
    rw [hstatus]
    exact ⟨rfl, rfl, Or.inr (Or.inl ⟨rfl, rfl, herr, rfl, readHeader_raised_snkSize rfl hraised⟩)⟩

/-- Settles O47: the last transition of DECODE asks for the source's end and an empty buffer, and sets the flags. -/
theorem doneDoesNotLookAtTheCandidate : Obligations.DoneDoesNotLookAtTheCandidate := by
  unfold Obligations.DoneDoesNotLookAtTheCandidate
  intro s hrun hend hbuf
  rw [dec_step_last hrun hend hbuf, finishDecode, Flow.outcome_on]
  rfl

end

section
/-! PROOFS. The errors (spec/60_exceptions.md rules R231, R236, R239): what `raise` records, when `readHeader` raises, and
that nothing happens in an engine whose command has ended. -/

namespace Sys2Proof.Machine

/-- `raise` changes `ERR` and the flags and nothing else (R236). -/
theorem raise_withError (e : ErrorKind) (s : State) : WithError e s (raise e s) := rfl

/-- On a source that begins with a header, `readHeader` leaves the flags as they were (R156 to R159). -/
theorem HeaderStarts.status_of_exec {s t : State} {pad : Byte} {T : BitVec 32} {es : List (Symbol × Bits)}
    {tb : List Byte} (h : HeaderStarts s pad T es [] tb) (hT : T.toNat = (entriesBits es).length)
    (hexec : exec .readHeader s = .next t) : t.status = s.status := by
  obtain rfl := Host.Outcome.next.inj ((h.exec_readHeader hT).symm.trans hexec)
  rfl

end Sys2Proof.Machine

open Sys2Proof Sys2Proof.Machine

/-- Settles O32: `readHeader` ends or raises; its end keeps `FAIL = 0` and shows a header, and a raise sets `FAIL`, which
on a header stays as it was. -/
theorem readHeaderRaisesOnlyOnMalformedHeaders : Obligations.ReadHeaderRaisesOnlyOnMalformedHeaders := by
  unfold Obligations.ReadHeaderRaisesOnlyOnMalformedHeaders
  intro s hprov hclear
  obtain ⟨t, hexec⟩ := readHeader_completes hprov
  refine ⟨t, hexec, ?_⟩
  rcases Flow.outcome_eq_next.1 hexec with hon | hraised
  · have hfail : t.status.fail = false := by rw [((readHeader_status s).of_eq_on hon).1, hclear]
    have hheader := (readHeader_spec s).of_eq_on hon
    exact ⟨fun hset => absurd (hset.symm.trans hfail) (by decide), fun _ => hheader, fun _ => hfail⟩
  · have hleft := (readHeader_spec s).of_eq_raised hraised
    refine ⟨fun _ => hleft, fun hunset => ?_, fun ⟨pad, T, es, tb, hT, hstarts⟩ => ?_⟩
    · have hset : t.status.fail = true := by rw [((readHeader_status s).of_eq_raised hraised).1]; rfl
      exact absurd (hset.symm.trans hunset) (by decide)
    · rw [hstarts.status_of_exec hT hexec, hclear]

/-- Settles O14, by `runSteps_of_not_busy`: no step of an idle engine that is alone changes anything. -/
theorem anEndedCommandStaysEnded : Obligations.AnEndedCommandStaysEnded := by
  unfold Obligations.AnEndedCommandStaysEnded
  exact fun _ n halone hidle => runSteps_of_not_busy halone hidle n

/-- Settles O52: the state at the `raise` with the error taken, and the three numbers. -/
theorem raiseRecordsTheKindAndThePlace : Obligations.RaiseRecordsTheKindAndThePlace := by
  unfold Obligations.RaiseRecordsTheKindAndThePlace
  exact ⟨raise_withError, rfl, rfl, rfl⟩

end

section
/-! PROOFS. Reset and hazards (spec/70_reset_and_hazards.md): that what an earlier command left has no part in the
next one (R263), and what a reset leaves, also one that cuts a transition short (R260, R262). -/

namespace Sys2Proof.Machine

/-! ### The start of a command -/

/-- An ENCODE that is not refused starts (R170, R171). -/
theorem execEncode_eq_next {s t : State} (h : execEncode s = .next t) : t = startCommand false s := by
  unfold execEncode at h
  split at h
  · cases h
  split at h
  · cases h; rfl
  · cases h

/-- A DECODE that is not refused starts (R200, R201). -/
theorem execDecode_eq_next {s t : State} (h : execDecode s = .next t) : t = startCommand true s := by
  unfold execDecode at h
  split at h
  · cases h
  split at h
  · split at h
    · cases h
    · cases h; rfl
  · cases h

/-- A reset keeps the host's side and the sink's bytes, and nothing else of the state before it (R40, R41, R260). -/
theorem resetEngine_congr {s s' : State} (hside : SameHostSide s s') (hsnk : s.snk = s'.snk) :
    resetEngine s = resetEngine s' := by
  obtain ⟨hparams, hsrcSize, hsrc, hhost⟩ := hside
  simp only [resetEngine, hparams, hsrcSize, hsrc, hhost, hsnk]

/-- So does the start of a command (R40, R263). -/
theorem startCommand_congr {s s' : State} (hside : SameHostSide s s') (hsnk : s.snk = s'.snk) (mode : Bool) :
    startCommand mode s = startCommand mode s' :=
  congrArg (setStatus (Status.started mode)) (resetEngine_congr hside hsnk)

/-! ### A reset -/

/-- The start of a command is a reset and then the flags, which are no part of `RegistersReset` (R40, R41). -/
theorem resetEngine_registersReset (s : State) : RegistersReset (resetEngine s) :=
  { startCommand_registersReset false s with }

/-- The reset value of `STATUS` as the host reads it (R22, R41). -/
theorem statusReset_toByte : Status.reset.toByte = 0x00 := rfl

/-- The writes in progress are what the transition would add to the record (R262). -/
theorem pendingWrites_of_engineMove {s u : State} {ws : List Host.Cell} (h : engineMove s = .next u)
    (hj : u.journal = s.journal ++ ws) : pendingWrites s = ws := by
  rw [pendingWrites, h]
  simp only [hj, List.drop_left]

/-- No write is in progress while no command runs (R261). -/
theorem pendingWrites_of_not_busy {s : State} (h : s.status.busy = false) : pendingWrites s = [] :=
  pendingWrites_of_engineMove (u := s) (by simp [engineMove, h]) (List.append_nil _).symm

/-- A reset of an idle engine leaves the sink's bytes alone (R260). -/
theorem hostReset_snk_of_not_busy {s : State} (h : s.status.busy = false) (landed : Nat) :
    (hostReset landed s).snk = s.snk := by
  rw [hostReset, pendingWrites_of_not_busy h, List.take_nil]
  rfl

/-- A reset leaves the writes of the transition in progress that had landed (R262). -/
theorem hostReset_snk_of_engineMove {s u : State} {ws : List Host.Cell} (h : engineMove s = .next u)
    (hj : u.journal = s.journal ++ ws) (landed : Nat) :
    (hostReset landed s).snk = s.snk.replay (ws.take landed) := by
  rw [hostReset, pendingWrites_of_engineMove h hj]
  rfl

end Sys2Proof.Machine

open Sys2Proof Sys2Proof.Machine

/-- Settles O9: the state a command starts in is the same for both engines, and so is every step from it. -/
theorem earlierCommandsHaveNoPart : Obligations.EarlierCommandsHaveNoPart := by
  unfold Obligations.EarlierCommandsHaveNoPart
  intro s s' i n t t' hi hside hsnk ht ht'
  rcases hi with rfl | rfl
  · rw [execEncode_eq_next ht, execEncode_eq_next ht', startCommand_congr hside hsnk]
  · rw [execDecode_eq_next ht, execDecode_eq_next ht', startCommand_congr hside hsnk]

/-- Settles O12: the state is the engine's own reset, and the sink's bytes are told by whether a command runs. -/
theorem resetMayCutATransitionShort : Obligations.ResetMayCutATransitionShort := by
  unfold Obligations.ResetMayCutATransitionShort
  intro s landed ms hcmd hissue hhost
  refine ⟨hostReset landed { s with host := ms }, step_of_hostMove hcmd hissue hhost, resetEngine_registersReset _,
    statusReset_toByte, ⟨rfl, rfl, rfl, rfl⟩, fun hidle k _ => ?_, fun u _ hu => ?_⟩
  · rw [hostReset_snk_of_not_busy (s := { s with host := ms }) hidle]
  · obtain ⟨ws, hjournal, hsnk, -⟩ := (engineMove_moves hu).logs.writes
    exact ⟨ws, hjournal, hsnk, hostReset_snk_of_engineMove hu hjournal landed⟩

end
